-- ==== Sys2Proof/Word.lean ====
section
/-! DEFINITION. The word types of the block and its two fixed widths (spec/00_scope.md R10 to R12). -/

namespace Sys2Proof

/-- Bits of a narrow word, `W` of R10. -/
abbrev wordWidth : Nat := 32

/-- Bits of the wide accumulator, `AW = 2·W` of R12. -/
abbrev accWidth : Nat := 64

/-- The point position `P` of R11: the word `v` denotes `v / 2^P`. -/
abbrev pointPos : Nat := 29

/-- A `W`-bit word: a fixed-point number, a host register, a command word (R10, R11). -/
abbrev Word := BitVec 32

/-- An `AW`-bit wide accumulator value (R12). -/
abbrev Wide := BitVec 64

/-- A binary64 value as its 64-bit pattern (R27). -/
abbrev F64 := BitVec 64

/-- A word address of the register space (R80). -/
abbrev Addr := BitVec 16

/-- `ONE = 2^P`, the word that denotes 1.0 (R11). -/
def oneWord : Word := 0x20000000#32

/-- `v[hi:lo]` as an unsigned number (R24). -/
def bitsOf (v : Word) (hi lo : Nat) : Nat := v.toNat / 2 ^ lo % 2 ^ (hi + 1 - lo)

end Sys2Proof
end

