-- ==== Sys2Proof/Config.lean ====
section
/-! DEFINITION. What an instance of the block fixes: the parameters of spec/00_scope.md R13 to R20 and R22,
and the designer's numerics DESIGN_LIBM (R23). The spec leaves their values OPEN, so they are opaque. -/

namespace Sys2Proof

/-- One tap `(c_k, w_k)` of the band-limiting table `BL_TAPS` (R17). -/
structure Tap where
  offset : Word
  weight : Word
  deriving DecidableEq, Repr, Inhabited

/-- `NOISE_GEN` (R22): the spec's default generator, or another one that the instance brings (log 5). -/
inductive NoiseGen where
  /-- The default, the linear congruential generator of R384. -/
  | lcg
  /-- Another generator, `Config.otherNoise`. -/
  | other
  deriving DecidableEq, Repr, Inhabited

/-- The parameters of one instance (R13 to R20, R22). They are not state: no step changes them (R414, R600). -/
structure Params where
  /-- `NS`, stages a cascade (R13). -/
  ns : Nat
  /-- `BANDS` (R14). -/
  bands : Nat
  /-- `V`, voices in the pool (R15). -/
  voices : Nat
  /-- `NOTE_INC`; its length is `NUM_NOTES` (R16). -/
  noteInc : List Word
  /-- `BL_TAPS` (R17). -/
  taps : List Tap
  /-- `EPS` (R18). -/
  eps : Word
  /-- `K_PRE`, `K_ENV`, `K_AG` (R19). -/
  kPre : Word
  kEnv : Word
  kAg : Word
  /-- `RST_ATTACK`, `RST_DECAY`, `RST_SUSTAIN`, `RST_RELEASE` (R20). -/
  rstAttack : Word
  rstDecay : Word
  rstSustain : Word
  rstRelease : Word
  /-- `NOISE_GEN` (R22). -/
  noiseGen : NoiseGen
  deriving DecidableEq, Repr

/-- `NUM_NOTES` (R16). -/
def Params.numNotes (p : Params) : Nat := p.noteInc.length

/-- A smoothing rate of R19 lies in `[0, ONE]`. -/
def rateInRange (k : Word) : Prop := 0 ≤ k.toInt ∧ k.toInt ≤ 2 ^ pointPos

/-- The bounds the spec puts on the parameters (R13 to R19). -/
structure Params.Valid (p : Params) : Prop where
  ns_even : p.ns % 2 = 0
  ns_low : 2 ≤ p.ns
  ns_high : p.ns ≤ 20
  bands_low : 1 ≤ p.bands
  bands_high : p.bands ≤ 96
  voices_low : 1 ≤ p.voices
  voices_high : p.voices ≤ 512
  notes_low : 1 ≤ p.numNotes
  notes_high : p.numNotes ≤ 65535
  taps_low : 1 ≤ p.taps.length
  eps_nonneg : 0 ≤ p.eps.toInt
  kPre_range : rateInRange p.kPre
  kEnv_range : rateInRange p.kEnv
  kAg_range : rateInRange p.kAg

/-- The properties R17 lets a model name for `BL_TAPS`: the offsets are symmetric about 0, one tap has
offset 0, and it carries the largest weight. No rule of the hardware needs them. DESIGN CHOICE (log 24, safe): the
mirror of an offset is its negative as a word, so `MIN` (`0x80000000`, -4.0), whose negative is no word, is its own
mirror and counts as symmetric. -/
def Params.tapsCentred (p : Params) : Prop :=
  (∀ c : Word, (p.taps.map Tap.offset).count c = (p.taps.map Tap.offset).count (-c)) ∧
  (p.taps.map Tap.offset).count 0 = 1 ∧
  ∀ t ∈ p.taps, t.offset = 0 → ∀ u ∈ p.taps, u.weight.toInt ≤ t.weight.toInt

/-- A complex number of two binary64 values (R252). -/
structure Cplx where
  re : F64
  im : F64
  deriving DecidableEq, Repr, Inhabited

/-- The designer's numerics, whose last bits are implementation-defined (R23, R270), with the complex
product and quotient, whose rounding the spec does not give (log 7). -/
structure Libm where
  tan : F64 → F64
  atan : F64 → F64
  cos : F64 → F64
  sin : F64 → F64
  csqrt : Cplx → Cplx
  cabs : Cplx → F64
  cmul : Cplx → Cplx → Cplx
  cdiv : Cplx → Cplx → Cplx
  deriving Inhabited

/-- DESIGN_LIBM is OPEN (R23): nothing can be proved of its values (log 6 and 7, DESIGN CHOICE, safe). -/
opaque Config.libm : Libm

/-- A generator other than the default (R22): a function from a 32-bit state to a next state and a noise word.
Nothing can be proved of its values (log 5, DESIGN CHOICE, safe). -/
opaque Config.otherNoise : BitVec 32 → BitVec 32 × Word

/-- The open choices behind `Config.params` (log 3; safe). -/
opaque Config.nsChoice : Nat
opaque Config.bandsChoice : Nat
opaque Config.voicesChoice : Nat
opaque Config.noteIncFirst : Word
opaque Config.noteIncRest : List Word
opaque Config.tapFirst : Tap
opaque Config.tapRest : List Tap
opaque Config.epsChoice : Nat
opaque Config.kPreChoice : Nat
opaque Config.kEnvChoice : Nat
opaque Config.kAgChoice : Nat
opaque Config.rstAttack : Word
opaque Config.rstDecay : Word
opaque Config.rstSustain : Word
opaque Config.rstRelease : Word
opaque Config.noiseGenChoice : NoiseGen

/-- The parameters of the machine behind `State.reset`: any legal set of R13 to R20 and R22, and nothing more is
known of it. Each open choice is folded into its legal range, so that every legal value is some choice's
and the set is legal by construction (log 3). -/
def Config.params : Params where
  ns := 2 * (Config.nsChoice % 10 + 1)
  bands := Config.bandsChoice % 96 + 1
  voices := Config.voicesChoice % 512 + 1
  noteInc := Config.noteIncFirst :: Config.noteIncRest.take 65534
  taps := Config.tapFirst :: Config.tapRest
  eps := BitVec.ofNat 32 (Config.epsChoice % 2 ^ 31)
  kPre := BitVec.ofNat 32 (Config.kPreChoice % (2 ^ pointPos + 1))
  kEnv := BitVec.ofNat 32 (Config.kEnvChoice % (2 ^ pointPos + 1))
  kAg := BitVec.ofNat 32 (Config.kAgChoice % (2 ^ pointPos + 1))
  rstAttack := Config.rstAttack
  rstDecay := Config.rstDecay
  rstSustain := Config.rstSustain
  rstRelease := Config.rstRelease
  noiseGen := Config.noiseGenChoice

end Sys2Proof
end

