-- ==== Sys2Proof/Syntax.lean ====
section
/-! DEFINITION. The commands of the block: one constructor for each row of spec/opcode_table.json
(spec/30_encoding.md R123, R124). -/

namespace Sys2Proof

/-- A decoded command. Its operands are the fields of R122, unscaled: `k` is the 6-bit `K`, `note` the
16-bit `NOTE`, `band` the 16-bit `BAND`. `CSTEP` has one row for each role and `DESIGN` one for each
role mask (R126). -/
inductive Instr where
  | nop
  | aluAdd
  | aluSub
  | aluMul
  | aluDiv
  | aluMulw
  | aluMacw
  | aluMsuw
  | aluAddw
  | aluCompact
  | aluAbs
  | aluShl (k : BitVec 6)
  | aluShr (k : BitVec 6)
  | aluFromf
  | aluTof
  | press (note : BitVec 16)
  | release (note : BitVec 16)
  | synth
  | vocode
  | sample
  | cstepMod (band : BitVec 16)
  | cstepCar (band : BitVec 16)
  | designMod (band : BitVec 16)
  | designCar (band : BitVec 16)
  | designBoth (band : BitVec 16)
  | vinit
  | sreset
  deriving DecidableEq, Repr

end Sys2Proof
end

