-- ==== Sys2Proof/WellFormed.lean ====
section
/-! DEFINITION. Which instruction terms have an encoding (spec/30_encoding.md R125). -/

namespace Sys2Proof

/-- The one constraint of R125 that the constructors do not carry: the shift amount of `SHL` and `SHR`
is below `W`. `K = 0` for the other operations and the legal role masks hold by construction, and an
operand out of the configured size is a fault of execution, not an illegal term (R127). -/
def Instr.wellFormed : Instr → Bool
  | .aluShl k => decide (k.toNat < wordWidth)
  | .aluShr k => decide (k.toNat < wordWidth)
  | .nop | .aluAdd | .aluSub | .aluMul | .aluDiv | .aluMulw | .aluMacw | .aluMsuw | .aluAddw
  | .aluCompact | .aluAbs | .aluFromf | .aluTof | .press _ | .release _ | .synth | .vocode | .sample
  | .cstepMod _ | .cstepCar _ | .designMod _ | .designCar _ | .designBoth _ | .vinit | .sreset => true

end Sys2Proof
end

