-- ==== Sys2Proof/Decode.lean ====
section
/-! DEFINITION. The decoder of command words, the encoder, and the opcode table as mask and match rows
(spec/30_encoding.md R120 to R128, spec/opcode_table.json). -/

namespace Sys2Proof

/-- Why a command word is illegal (R126), by the part of the word that is at fault. -/
inductive Illegal where
  /-- `OPC` is not in R123. -/
  | opcode
  /-- `AOP` is not in R124. -/
  | aluOp
  /-- A reserved field of the format is not 0. -/
  | reserved
  /-- `K` breaks R125. -/
  | shiftAmount
  /-- `RM` breaks R125. -/
  | roleMask
  deriving DecidableEq, Repr

/-- Format N (R121): no operand, bits 25:0 are 0. -/
def decodeN (w : Word) (i : Instr) : Except Illegal Instr :=
  if bitsOf w 25 0 = 0 then .ok i else .error .reserved

/-- Format A (R121) for the operations whose `K` must be 0 (R125). -/
def decodeA (w : Word) (i : Instr) : Except Illegal Instr :=
  if bitsOf w 14 0 ≠ 0 then .error .reserved
  else if bitsOf w 20 15 ≠ 0 then .error .shiftAmount
  else .ok i

/-- Format A (R121) for `SHL` and `SHR`, whose `K` is below `W` (R125). -/
def decodeShift (w : Word) (mk : BitVec 6 → Instr) : Except Illegal Instr :=
  if bitsOf w 14 0 ≠ 0 then .error .reserved
  else if wordWidth ≤ bitsOf w 20 15 then .error .shiftAmount
  else .ok (mk (BitVec.ofNat 6 (bitsOf w 20 15)))

/-- The ALU operation that `AOP` selects (R124). -/
def decodeAlu (w : Word) : Except Illegal Instr :=
  match bitsOf w 25 21 with
  | 0x00 => decodeA w .aluAdd
  | 0x01 => decodeA w .aluSub
  | 0x02 => decodeA w .aluMul
  | 0x03 => decodeA w .aluDiv
  | 0x04 => decodeA w .aluMulw
  | 0x05 => decodeA w .aluMacw
  | 0x06 => decodeA w .aluMsuw
  | 0x07 => decodeA w .aluAddw
  | 0x08 => decodeA w .aluCompact
  | 0x09 => decodeA w .aluAbs
  | 0x0A => decodeShift w .aluShl
  | 0x0B => decodeShift w .aluShr
  | 0x0C => decodeA w .aluFromf
  | 0x0D => decodeA w .aluTof
  | _ => .error .aluOp

/-- Format V (R121): the 16-bit note, bits 25:16 are 0. -/
def decodeV (w : Word) (mk : BitVec 16 → Instr) : Except Illegal Instr :=
  if bitsOf w 25 16 = 0 then .ok (mk (BitVec.ofNat 16 (bitsOf w 15 0))) else .error .reserved

/-- Format B (R121) of `CSTEP`: exactly one role (R125). -/
def decodeCstep (w : Word) : Except Illegal Instr :=
  if bitsOf w 23 16 ≠ 0 then .error .reserved
  else match bitsOf w 25 24 with
    | 1 => .ok (.cstepMod (BitVec.ofNat 16 (bitsOf w 15 0)))
    | 2 => .ok (.cstepCar (BitVec.ofNat 16 (bitsOf w 15 0)))
    | _ => .error .roleMask

/-- Format B (R121) of `DESIGN`: at least one role (R125). -/
def decodeDesign (w : Word) : Except Illegal Instr :=
  if bitsOf w 23 16 ≠ 0 then .error .reserved
  else match bitsOf w 25 24 with
    | 1 => .ok (.designMod (BitVec.ofNat 16 (bitsOf w 15 0)))
    | 2 => .ok (.designCar (BitVec.ofNat 16 (bitsOf w 15 0)))
    | 3 => .ok (.designBoth (BitVec.ofNat 16 (bitsOf w 15 0)))
    | _ => .error .roleMask

/-- The decoder of R128, a function of the word alone: one command, or the reason it is illegal (R126). -/
def decode (w : Word) : Except Illegal Instr :=
  match bitsOf w 31 26 with
  | 0x00 => decodeN w .nop
  | 0x01 => decodeAlu w
  | 0x02 => decodeV w .press
  | 0x03 => decodeV w .release
  | 0x04 => decodeN w .synth
  | 0x05 => decodeN w .vocode
  | 0x06 => decodeN w .sample
  | 0x07 => decodeCstep w
  | 0x08 => decodeDesign w
  | 0x09 => decodeN w .vinit
  | 0x3F => decodeN w .sreset
  | _ => .error .opcode

/-- A format A word (R121): `OPC = 0x01`, the operation and the shift amount. -/
def encodeA (aop k : Nat) : Word := BitVec.ofNat 32 (0x01 * 2 ^ 26 + aop * 2 ^ 21 + k * 2 ^ 15)

/-- A format V word (R121). -/
def encodeV (opc : Nat) (note : BitVec 16) : Word := BitVec.ofNat 32 (opc * 2 ^ 26 + note.toNat)

/-- A format B word (R121). -/
def encodeB (opc rm : Nat) (band : BitVec 16) : Word :=
  BitVec.ofNat 32 (opc * 2 ^ 26 + rm * 2 ^ 24 + band.toNat)

/-- The command word of an instruction (R121 to R125). -/
def encode : Instr → Word
  | .nop => 0x00000000#32
  | .aluAdd => encodeA 0x00 0
  | .aluSub => encodeA 0x01 0
  | .aluMul => encodeA 0x02 0
  | .aluDiv => encodeA 0x03 0
  | .aluMulw => encodeA 0x04 0
  | .aluMacw => encodeA 0x05 0
  | .aluMsuw => encodeA 0x06 0
  | .aluAddw => encodeA 0x07 0
  | .aluCompact => encodeA 0x08 0
  | .aluAbs => encodeA 0x09 0
  | .aluShl k => encodeA 0x0A k.toNat
  | .aluShr k => encodeA 0x0B k.toNat
  | .aluFromf => encodeA 0x0C 0
  | .aluTof => encodeA 0x0D 0
  | .press note => encodeV 0x02 note
  | .release note => encodeV 0x03 note
  | .synth => 0x10000000#32
  | .vocode => 0x14000000#32
  | .sample => 0x18000000#32
  | .cstepMod band => encodeB 0x07 1 band
  | .cstepCar band => encodeB 0x07 2 band
  | .designMod band => encodeB 0x08 1 band
  | .designCar band => encodeB 0x08 2 band
  | .designBoth band => encodeB 0x08 3 band
  | .vinit => 0x24000000#32
  | .sreset => 0xFC000000#32

/-- A row of the opcode table: a word belongs to it when its masked bits are `pattern` (R126). -/
structure OpcodeRow where
  mask : Word
  pattern : Word
  deriving DecidableEq, Repr

/-- The word meets the row's mask and match (R126). -/
def OpcodeRow.holds (r : OpcodeRow) (w : Word) : Bool := decide (w &&& r.mask = r.pattern)

/-- The row of spec/opcode_table.json that an instruction belongs to. -/
def rowOf : Instr → OpcodeRow
  | .nop => ⟨0xFFFFFFFF#32, 0x00000000#32⟩
  | .aluAdd => ⟨0xFFFFFFFF#32, 0x04000000#32⟩
  | .aluSub => ⟨0xFFFFFFFF#32, 0x04200000#32⟩
  | .aluMul => ⟨0xFFFFFFFF#32, 0x04400000#32⟩
  | .aluDiv => ⟨0xFFFFFFFF#32, 0x04600000#32⟩
  | .aluMulw => ⟨0xFFFFFFFF#32, 0x04800000#32⟩
  | .aluMacw => ⟨0xFFFFFFFF#32, 0x04A00000#32⟩
  | .aluMsuw => ⟨0xFFFFFFFF#32, 0x04C00000#32⟩
  | .aluAddw => ⟨0xFFFFFFFF#32, 0x04E00000#32⟩
  | .aluCompact => ⟨0xFFFFFFFF#32, 0x05000000#32⟩
  | .aluAbs => ⟨0xFFFFFFFF#32, 0x05200000#32⟩
  | .aluShl _ => ⟨0xFFF07FFF#32, 0x05400000#32⟩
  | .aluShr _ => ⟨0xFFF07FFF#32, 0x05600000#32⟩
  | .aluFromf => ⟨0xFFFFFFFF#32, 0x05800000#32⟩
  | .aluTof => ⟨0xFFFFFFFF#32, 0x05A00000#32⟩
  | .press _ => ⟨0xFFFF0000#32, 0x08000000#32⟩
  | .release _ => ⟨0xFFFF0000#32, 0x0C000000#32⟩
  | .synth => ⟨0xFFFFFFFF#32, 0x10000000#32⟩
  | .vocode => ⟨0xFFFFFFFF#32, 0x14000000#32⟩
  | .sample => ⟨0xFFFFFFFF#32, 0x18000000#32⟩
  | .cstepMod _ => ⟨0xFFFF0000#32, 0x1D000000#32⟩
  | .cstepCar _ => ⟨0xFFFF0000#32, 0x1E000000#32⟩
  | .designMod _ => ⟨0xFFFF0000#32, 0x21000000#32⟩
  | .designCar _ => ⟨0xFFFF0000#32, 0x22000000#32⟩
  | .designBoth _ => ⟨0xFFFF0000#32, 0x23000000#32⟩
  | .vinit => ⟨0xFFFFFFFF#32, 0x24000000#32⟩
  | .sreset => ⟨0xFFFFFFFF#32, 0xFC000000#32⟩

/-- The 27 rows of spec/opcode_table.json, in its order. -/
def opcodeRows : List OpcodeRow :=
  [rowOf .nop, rowOf .aluAdd, rowOf .aluSub, rowOf .aluMul, rowOf .aluDiv, rowOf .aluMulw,
   rowOf .aluMacw, rowOf .aluMsuw, rowOf .aluAddw, rowOf .aluCompact, rowOf .aluAbs,
   rowOf (.aluShl 0), rowOf (.aluShr 0), rowOf .aluFromf, rowOf .aluTof, rowOf (.press 0),
   rowOf (.release 0), rowOf .synth, rowOf .vocode, rowOf .sample, rowOf (.cstepMod 0),
   rowOf (.cstepCar 0), rowOf (.designMod 0), rowOf (.designCar 0), rowOf (.designBoth 0),
   rowOf .vinit, rowOf .sreset]

/-- The instruction the decoder reads from a table word of `nbits` bits; the bits above are 0. Every
command is one 32-bit word (R120), and no byte order arises (R83). -/
def decodeTableWord (nbits w : Nat) : Option Instr :=
  match decode (BitVec.ofNat 32 (w % 2 ^ nbits)) with
  | .ok i => some i
  | .error _ => none

end Sys2Proof
end

