-- ==== Sys2Proof/Machine/State.lean ====
section
/-! DEFINITION. The state of the block and its reset value (spec/10_state.md, spec/70_reset_and_hazards.md
R600, R601). -/

namespace Sys2Proof.Machine

open Sys2Proof

/-- The four violation marks (R510): `range` is V_RANGE, `acc` V_ACC, `doublePress` V_DOUBLE_PRESS,
`ageWrap` V_AGE_WRAP. Model-only: they change no hardware state. -/
structure Marks where
  range : Bool
  acc : Bool
  doublePress : Bool
  ageWrap : Bool
  deriving DecidableEq, Repr

/-- No mark. -/
def Marks.empty : Marks := ⟨false, false, false, false⟩

/-- The two roles of a band (R28, R46). -/
inductive Role where
  | modulator
  | carrier
  deriving DecidableEq, Repr

/-- The ADSR states (R50). -/
inductive Adsr where
  | attack
  | decay
  | sustain
  | release
  deriving DecidableEq, Repr

/-- A window of three samples, newest first: `XIN[0..2]` or `YH[s][0..2]` (R47). -/
structure Win where
  w0 : Word
  w1 : Word
  w2 : Word
  deriving DecidableEq, Repr

/-- The coefficients `A1[s]`, `A2[s]` of one stage (R46). -/
structure StageCoef where
  a1 : Word
  a2 : Word
  deriving DecidableEq, Repr

/-- `COEF[r][b]` (R46): `SCALE` and one coefficient pair a stage. -/
structure Coef where
  scale : Word
  stages : List StageCoef
  deriving DecidableEq, Repr

/-- `HIST[r][b]` (R47): the input window and one output window a stage. -/
structure Hist where
  xin : Win
  yh : List Win
  deriving DecidableEq, Repr

/-- All the state of one band: its two cascades (R46, R47) and its envelope (R48). -/
structure Band where
  coefMod : Coef
  coefCar : Coef
  histMod : Hist
  histCar : Hist
  env : Word
  deriving DecidableEq, Repr

/-- `VOICE[v]` (R49). -/
structure Voice where
  note : BitVec 16
  age : BitVec 32
  phase : Word
  inc : Word
  state : Adsr
  env : Word
  noise : BitVec 32
  last : Word
  deriving DecidableEq, Repr

/-- A host action (R129, R418): a write or a read of one word of the register space. -/
inductive HostAction where
  | wr (addr : Addr) (value : Word)
  | rd (addr : Addr)
  deriving DecidableEq, Repr

/-- The causes of a fault record (R500). These are the block's own faults, taken as next states. -/
inductive FaultCode where
  | divZero
  | cfgFcRange
  | cfgRootPair
  | cfgCoefRange
  | illegalCmd
  | badNote
  | badBand
  | badAddress
  | floatRange
  deriving DecidableEq, Repr

/-- The machine. `params`, `pending` and `observed` are the model's own fields (log 1, log 3); every other
field is a piece of state of spec/10_state.md under the spec's name. -/
structure State where
  /-- The parameters of this instance (R13 to R20); no step changes them. -/
  params : Params
  /-- The host actions still to come, the next one first (R31, R418). -/
  pending : List HostAction
  /-- What the host's reads have returned, oldest first (R418). -/
  observed : List Word
  /-- R38 -/
  cmd : Word
  /-- R39: bit 0 `FAULT`, bit 1 `CFG_DONE`. -/
  status : Word
  /-- R40 -/
  faultCode : Word
  faultInfo : Word
  /-- R41: bit 0 `AUTO_GAIN_EN`. -/
  ctrl : Word
  /-- R42 -/
  ageCnt : BitVec 32
  /-- R32 -/
  a : Word
  b : Word
  /-- R33 -/
  y : Word
  /-- R34 -/
  acc : Wide
  /-- R35 -/
  f : F64
  g : F64
  /-- R36 -/
  modIn : Word
  carIn : Word
  /-- R37 -/
  synOut : Word
  vocOut : Word
  /-- R43 -/
  attackRate : Word
  decayRate : Word
  sustainLevel : Word
  releaseRate : Word
  outputGain : Word
  noiseGain : Word
  tuning : Word
  shape : Word
  /-- R44 -/
  fTop : F64
  /-- R48 -/
  modS : Word
  carS : Word
  gm : Word
  go : Word
  /-- R46, R47, R48: one record a band. -/
  bands : List Band
  /-- R49: one record a voice. -/
  voices : List Voice
  /-- R52 -/
  viol : Marks
  deriving DecidableEq, Repr

/-- The ways a step of the MODEL stops without a next state: none. What the spec calls a fault is a fault
record in the block's registers (R502), which is a next state. No constructor, so nothing raises one; safe. -/
inductive Fault where
  deriving DecidableEq, Repr

/-- The refusals of the model. -/
inductive Refusal where
  /-- Raised by `exec` for an instruction that has no meaning yet; no arm does. Safe. -/
  | notModelled (mnemonic : String)
  deriving DecidableEq, Repr

/-- Three zero samples. -/
def Win.zero : Win := ⟨0, 0, 0⟩

/-- The reset coefficients of a cascade of `ns` stages (R46). -/
def Coef.zero (ns : Nat) : Coef := ⟨0, List.replicate ns ⟨0, 0⟩⟩

/-- The reset history of a cascade of `ns` stages (R47). -/
def Hist.zero (ns : Nat) : Hist := ⟨Win.zero, List.replicate ns Win.zero⟩

/-- A band at reset (R601). -/
def Band.zero (ns : Nat) : Band := ⟨Coef.zero ns, Coef.zero ns, Hist.zero ns, Hist.zero ns, 0⟩

/-- The note id that no pressed voice holds, `NOTE_NONE` (R49). -/
def noteNone : BitVec 16 := 0xFFFF#16

/-- Voice `v` at reset (R601): no note, in `RELEASE`, noise state `v + 1`. -/
def Voice.reset (v : Nat) : Voice := ⟨noteNone, 0, 0, 0, .release, 0, BitVec.ofNat 32 (v + 1), 0⟩

/-- The state after a hard reset of an instance with the parameters `p` (R600, R601), with no host action
to come. -/
def State.resetWith (p : Params) : State where
  params := p
  pending := []
  observed := []
  cmd := 0
  status := 0
  faultCode := 0
  faultInfo := 0
  ctrl := 0
  ageCnt := 0
  a := 0
  b := 0
  y := 0
  acc := 0
  f := 0
  g := 0
  modIn := 0
  carIn := 0
  synOut := 0
  vocOut := 0
  attackRate := p.rstAttack
  decayRate := p.rstDecay
  sustainLevel := p.rstSustain
  releaseRate := p.rstRelease
  outputGain := oneWord
  noiseGain := 0
  tuning := oneWord
  shape := 0
  fTop := 0
  modS := 0
  carS := 0
  gm := 0
  go := 0
  bands := List.replicate p.bands (Band.zero p.ns)
  voices := (List.range p.voices).map Voice.reset
  viol := Marks.empty

/-- The machine right after reset (R600, R601), for the instance's open parameters. -/
def State.reset : State := State.resetWith Config.params

end Sys2Proof.Machine
end

