-- ==== Sys2Proof/Machine/Flags.lean ====
section
/-! DEFINITION. The bits of STATUS and CTRL (spec/10_state.md R39, R41) and the violation marks with the
values that carry them (spec/60_exceptions.md R510). There are no other flags (R53). -/

namespace Sys2Proof.Machine

open Sys2Proof

/-- `STATUS.FAULT` (R39). -/
def State.faulted (s : State) : Bool := s.status.getLsbD 0

/-- `STATUS.CFG_DONE` (R39). -/
def State.cfgDone (s : State) : Bool := s.status.getLsbD 1

/-- `STATUS` with `FAULT` set (R502). -/
def statusSetFault (st : Word) : Word := st ||| 1#32

/-- `STATUS` with `CFG_DONE` set (R276). -/
def statusSetCfgDone (st : Word) : Word := st ||| 2#32

/-- `CTRL.AUTO_GAIN_EN` (R41). -/
def State.autoGainEn (s : State) : Bool := s.ctrl.getLsbD 0

/-- The marks of either (R52: `VIOL` is a set). -/
def Marks.union (m n : Marks) : Marks :=
  ⟨m.range || n.range, m.acc || n.acc, m.doublePress || n.doublePress, m.ageWrap || n.ageWrap⟩

/-- `V_RANGE` alone, when the condition holds (R202). -/
def Marks.ofRange (c : Bool) : Marks := ⟨c, false, false, false⟩

/-- `V_ACC` alone, when the condition holds (R203). -/
def Marks.ofAcc (c : Bool) : Marks := ⟨false, c, false, false⟩

/-- The marks of a press: a double press (R362) and an age wrap (R363). -/
def Marks.ofPress (double wrap : Bool) : Marks := ⟨false, false, double, wrap⟩

/-- A value together with the marks its computation sets. -/
structure Marked (α : Type) where
  val : α
  marks : Marks
  deriving DecidableEq, Repr

/-- A value that sets no mark. -/
def Marked.pure {α : Type} (x : α) : Marked α := ⟨x, Marks.empty⟩

/-- Computes on with a marked value and keeps the marks of both parts. -/
def Marked.bind {α β : Type} (x : Marked α) (k : α → Marked β) : Marked β :=
  ⟨(k x.val).val, x.marks.union (k x.val).marks⟩

/-- Applies a function that sets no mark. -/
def Marked.map {α β : Type} (g : α → β) (x : Marked α) : Marked β := ⟨g x.val, x.marks⟩

/-- Records marks in `VIOL`; nothing clears them (R52). -/
def State.addMarks (s : State) (m : Marks) : State := { s with viol := s.viol.union m }

end Sys2Proof.Machine
end

