-- ==== Sys2Proof/Machine/FixedPoint.lean ====
section
/-! DEFINITION. The fixed-point functions `fx_*` that every unit computes through
(spec/40_fixed_point_alu.md R200 to R227). Words are read as signed integers, the exact result is computed
in `Int`, and it is narrowed or widened once at the end (R25, R202, R203). -/

namespace Sys2Proof.Machine

open Sys2Proof

/-- `fits_N(v)` (R25). -/
def fitsSigned (n : Nat) (v : Int) : Bool := decide (-2 ^ (n - 1) ≤ v) && decide (v ≤ 2 ^ (n - 1) - 1)

/-- `a >>> k = floor(a / 2^k)` (R25, R204); the divisor is positive, so `Int`'s division is the floor. -/
def asr (v : Int) (k : Nat) : Int := v / 2 ^ k

/-- `a << k` (R25). -/
def shl (v : Int) (k : Nat) : Int := v * 2 ^ k

/-- `narrow(v)` (R202): wraps to `W` bits and marks `V_RANGE` when `v` does not fit. -/
def narrow (v : Int) : Marked Word := ⟨BitVec.ofInt 32 v, Marks.ofRange (!fitsSigned wordWidth v)⟩

/-- `widen(u)` (R203): wraps to `AW` bits and marks `V_ACC` when `u` does not fit. -/
def widen (u : Int) : Marked Wide := ⟨BitVec.ofInt 64 u, Marks.ofAcc (!fitsSigned accWidth u)⟩

/-- `fx_add` (R210). -/
def fxAdd (a b : Word) : Marked Word := narrow (a.toInt + b.toInt)

/-- `fx_sub` (R211). -/
def fxSub (a b : Word) : Marked Word := narrow (a.toInt - b.toInt)

/-- `fx_mul` (R212). -/
def fxMul (a b : Word) : Marked Word := narrow (asr (a.toInt * b.toInt) pointPos)

/-- `fx_div` (R213): `none` is the `DIV_ZERO` case; the quotient rounds toward zero. -/
def fxDiv (a b : Word) : Option (Marked Word) :=
  if b = 0 then none else some (narrow ((shl a.toInt pointPos).tdiv b.toInt))

/-- `fx_mulw` (R214), exact (R205). -/
def fxMulw (a b : Word) : Wide := BitVec.ofInt 64 (a.toInt * b.toInt)

/-- `fx_macw` (R215). -/
def fxMacw (acc : Wide) (a b : Word) : Marked Wide := widen (acc.toInt + a.toInt * b.toInt)

/-- `fx_msuw` (R216). -/
def fxMsuw (acc : Wide) (a b : Word) : Marked Wide := widen (acc.toInt - a.toInt * b.toInt)

/-- `fx_addw` (R217). -/
def fxAddw (acc : Wide) (a : Word) : Marked Wide := widen (acc.toInt + shl a.toInt pointPos)

/-- `fx_compact` (R218). -/
def fxCompact (acc : Wide) : Marked Word := narrow (asr acc.toInt pointPos)

/-- `fx_abs` (R219). -/
def fxAbs (a : Word) : Marked Word := narrow (a.toInt.natAbs : Int)

/-- `fx_shl` (R220). -/
def fxShl (a : Word) (k : Nat) : Marked Word := narrow (shl a.toInt k)

/-- `fx_shr` (R221); the result always fits, so no mark. -/
def fxShr (a : Word) (k : Nat) : Word := BitVec.ofInt 32 (asr a.toInt k)

/-- The one-pole step `fx_lerp` (R226): difference, product and sum, in that order. -/
def fxLerp (s x k : Word) : Marked Word :=
  (fxSub x s).bind fun d => (fxMul d k).bind fun p => fxAdd s p

/-- `x mod ONE` (R379): the low `P` bits, zero-extended. -/
def modOne (x : Word) : Word := BitVec.ofNat 32 (x.toNat % 2 ^ pointPos)

end Sys2Proof.Machine
end

