-- ==== Sys2Proof/Machine/Float64.lean ====
section
/-! DEFINITION. Binary64 arithmetic on 64-bit patterns (spec/00_scope.md R27): `+ - · /` and `sqrt` rounded
to nearest-even, and the conversions `fx_fromf`, `fx_tof` (spec/40_fixed_point_alu.md R222, R223). A finite
value is held exactly as a whole number of units of `2^-1074`, the least positive binary64 value. -/

namespace Sys2Proof.Machine

open Sys2Proof

/-- The sign bit. -/
def f64Sign (x : F64) : Bool := x.getLsbD 63

/-- The pattern without its sign; it orders the magnitudes. -/
def f64Mag (x : F64) : Nat := x.toNat % 2 ^ 63

/-- The magnitude pattern of infinity. -/
def f64InfMag : Nat := 2047 * 2 ^ 52

def f64IsNaN (x : F64) : Bool := decide (f64InfMag < f64Mag x)

def f64IsInf (x : F64) : Bool := decide (f64Mag x = f64InfMag)

def f64IsFinite (x : F64) : Bool := decide (f64Mag x < f64InfMag)

/-- A pattern from a sign and a magnitude pattern. -/
def f64Pack (neg : Bool) (mag : Nat) : F64 := BitVec.ofNat 64 ((if neg then 2 ^ 63 else 0) + mag)

/-- The NaN that the arithmetic answers; its payload reaches no register (log 8). -/
def f64NaN : F64 := f64Pack false (f64InfMag + 2 ^ 51)

/-- `|x|` in units of `2^-1074`, for finite `x`: a subnormal's fraction, or `(2^52 + fraction) · 2^(exponent - 1)`. -/
def f64AbsUnits (x : F64) : Nat :=
  let e := f64Mag x / 2 ^ 52
  let fr := f64Mag x % 2 ^ 52
  if e = 0 then fr else (2 ^ 52 + fr) * 2 ^ (e - 1)

/-- The value of a finite `x` in units of `2^-1074`. -/
def f64Units (x : F64) : Int := if f64Sign x then -(f64AbsUnits x : Int) else (f64AbsUnits x : Int)

/-- `num / den` rounded to the nearest integer, ties to even. -/
def roundNearestEven (num den : Nat) : Nat :=
  let q := num / den
  let r := num % den
  if 2 * r < den ∨ (2 * r = den ∧ q % 2 = 0) then q else q + 1

/-- The binary64 value nearest to `num / den` units, ties to even, with overflow to infinity. With the
leading bit of the quotient at `52 + sh` the significand is rounded at `2^sh` units, and `sh · 2^52` plus
the rounded significand is the magnitude pattern, carries into the exponent included. -/
def f64Round (neg : Bool) (num den : Nat) : F64 :=
  let sh := (num / den).log2 - 52
  let m := roundNearestEven num (den * 2 ^ sh)
  f64Pack neg (min (sh * 2 ^ 52 + m) f64InfMag)

/-- Units of `2^-1074` in 1.0. -/
def f64OneUnits : Nat := 2 ^ 1074

/-- A natural number as binary64. -/
def f64OfNat (n : Nat) : F64 := f64Round false (n * f64OneUnits) 1

/-- Sign change. -/
def f64Neg (x : F64) : F64 := f64Pack (!f64Sign x) (f64Mag x)

/-- `x + y`. An exact zero sum is +0, but for two negative zeros. -/
def f64Add (x y : F64) : F64 :=
  if f64IsNaN x || f64IsNaN y then f64NaN
  else if f64IsInf x then (if f64IsInf y && (f64Sign x != f64Sign y) then f64NaN else x)
  else if f64IsInf y then y
  else
    let u := f64Units x + f64Units y
    let neg := if u = 0 then f64Sign x && f64Sign y else decide (u < 0)
    f64Round neg u.natAbs 1

/-- `x - y`. -/
def f64Sub (x y : F64) : F64 := f64Add x (f64Neg y)

/-- `x · y`. -/
def f64Mul (x y : F64) : F64 :=
  let neg := f64Sign x != f64Sign y
  if f64IsNaN x || f64IsNaN y then f64NaN
  else if f64IsInf x || f64IsInf y then
    (if f64Mag x = 0 ∨ f64Mag y = 0 then f64NaN else f64Pack neg f64InfMag)
  else f64Round neg (f64AbsUnits x * f64AbsUnits y) f64OneUnits

/-- `x / y`. -/
def f64Div (x y : F64) : F64 :=
  let neg := f64Sign x != f64Sign y
  if f64IsNaN x || f64IsNaN y then f64NaN
  else if f64IsInf x then (if f64IsInf y then f64NaN else f64Pack neg f64InfMag)
  else if f64IsInf y then f64Pack neg 0
  else if f64Mag y = 0 then (if f64Mag x = 0 then f64NaN else f64Pack neg f64InfMag)
  else f64Round neg (f64AbsUnits x * f64OneUnits) (f64AbsUnits y)

/-- The integer square root of `n`, from the root `r` found so far and the `bits` low bits still to decide. -/
def isqrtBits : Nat → Nat → Nat → Nat
  | 0, r, _ => r
  | i + 1, r, n =>
    let t := r + 2 ^ i
    if t * t ≤ n then isqrtBits i t n else isqrtBits i r n

/-- `sqrt(x)`, correctly rounded: the integer root, with half a step more when it is not exact. -/
def f64Sqrt (x : F64) : F64 :=
  if f64IsNaN x then f64NaN
  else if f64Mag x = 0 then x
  else if f64Sign x then f64NaN
  else if f64IsInf x then x
  else
    let n := f64AbsUnits x * f64OneUnits
    let r := isqrtBits (n.log2 / 2 + 1) 0 n
    f64Round false (2 * r + (if r * r = n then 0 else 1)) 2

/-- The magnitude with its sign, which orders the values that are no NaN. -/
def f64Key (x : F64) : Int := if f64Sign x then -(f64Mag x : Int) else (f64Mag x : Int)

/-- `x < y`; false when either is NaN. -/
def f64Lt (x y : F64) : Bool := !f64IsNaN x && !f64IsNaN y && decide (f64Key x < f64Key y)

/-- `x = y` (R256: exact equality); false when either is NaN, and the two zeros are equal. -/
def f64Eq (x y : F64) : Bool := !f64IsNaN x && !f64IsNaN y && decide (f64Key x = f64Key y)

/-- `max(x, y)`, keeping `x` when the comparison fails (log 9). -/
def f64Max (x y : F64) : F64 := if f64Lt x y then y else x

/-- `min(x, y)`, keeping `x` when the comparison fails (log 9). -/
def f64Min (x y : F64) : F64 := if f64Lt y x then y else x

/-- `fx_fromf` (R222): truncates `f · 2^P` toward zero; `none` for NaN, infinities and values whose
truncation does not fit. -/
def fxFromf (x : F64) : Option Word :=
  if !f64IsFinite x then none
  else
    let t := (f64Units x).tdiv (2 ^ (1074 - pointPos))
    if fitsSigned wordWidth t then some (BitVec.ofInt 32 t) else none

/-- `fx_tof` (R223): `a / 2^P`, which binary64 holds exactly. -/
def fxTof (a : Word) : F64 :=
  f64Round (decide (a.toInt < 0)) (a.toInt.natAbs * 2 ^ (1074 - pointPos)) 1

end Sys2Proof.Machine
end

