-- ==== Sys2Proof/Machine/Operands.lean ====
section
/-! DEFINITION. The operand forms of the commands: the parameter snapshot (spec/10_state.md R45), a band
named by its index and role (spec/30_encoding.md R122, spec/42_biquad_cascade.md R307) and the result
registers (spec/40_fixed_point_alu.md R206). The registers A, B, ACC, F, G, MOD_IN, CAR_IN, F_TOP are read
as fields of State. -/

namespace Sys2Proof.Machine

open Sys2Proof

/-- `SNAP` (R45): the eight parameter registers and `AUTO_GAIN_EN`, read once at the start of a command. -/
structure Snap where
  attackRate : Word
  decayRate : Word
  sustainLevel : Word
  releaseRate : Word
  outputGain : Word
  noiseGain : Word
  tuning : Word
  shape : Word
  autoGainEn : Bool
  deriving DecidableEq, Repr

/-- `snapshot()` (R45). -/
def State.snapshot (s : State) : Snap where
  attackRate := s.attackRate
  decayRate := s.decayRate
  sustainLevel := s.sustainLevel
  releaseRate := s.releaseRate
  outputGain := s.outputGain
  noiseGain := s.noiseGain
  tuning := s.tuning
  shape := s.shape
  autoGainEn := s.autoGainEn

/-- The coefficients of one role of a band (R46). -/
def Band.coef (bd : Band) : Role → Coef
  | .modulator => bd.coefMod
  | .carrier => bd.coefCar

/-- The history of one role of a band (R47). -/
def Band.hist (bd : Band) : Role → Hist
  | .modulator => bd.histMod
  | .carrier => bd.histCar

/-- Replaces the coefficients of one role of a band. -/
def Band.setCoef (bd : Band) (r : Role) (c : Coef) : Band :=
  match r with
  | .modulator => { bd with coefMod := c }
  | .carrier => { bd with coefCar := c }

/-- Replaces the history of one role of a band. -/
def Band.setHist (bd : Band) (r : Role) (h : Hist) : Band :=
  match r with
  | .modulator => { bd with histMod := h }
  | .carrier => { bd with histCar := h }

/-- Band `n` of the bank. `n < BANDS` names a band in every state a run reaches (log 15). -/
def State.band (s : State) (n : Nat) : Band := s.bands.getD n (Band.zero s.params.ns)

/-- Changes band `n` and no other. -/
def State.modifyBand (s : State) (n : Nat) (g : Band → Band) : State :=
  { s with bands := s.bands.modify n g }

/-- Writes a narrow result to `Y` (R206) and its marks to `VIOL`. -/
def State.writeY (s : State) (r : Marked Word) : State := { s.addMarks r.marks with y := r.val }

/-- Writes a wide result to `ACC` (R206) and its marks to `VIOL`. -/
def State.writeAcc (s : State) (r : Marked Wide) : State := { s.addMarks r.marks with acc := r.val }

end Sys2Proof.Machine
end

