-- ==== Sys2Proof/Machine/Ops.lean ====
section
/-! DEFINITION. The shared operations on the whole state: fault entry (spec/60_exceptions.md R500 to R505)
and reset, the one way out of a fault (R506, spec/70_reset_and_hazards.md R600, R601). -/

namespace Sys2Proof.Machine

open Sys2Proof

/-- The codes of R500. -/
def FaultCode.toWord : FaultCode → Word
  | .divZero => 0x01#32
  | .cfgFcRange => 0x02#32
  | .cfgRootPair => 0x03#32
  | .cfgCoefRange => 0x04#32
  | .illegalCmd => 0x05#32
  | .badNote => 0x06#32
  | .badBand => 0x07#32
  | .badAddress => 0x08#32
  | .floatRange => 0x09#32

/-- `raise Fault(code, info)` (R502): the fault record and nothing else. While a fault is recorded a new one
is not taken and the first is kept (R505). The caller passes the state from before the command, so none of
the command's writes happen (R410). -/
def State.raise (s : State) (code : FaultCode) (info : Word) : State :=
  if s.faulted then s
  else { s with status := statusSetFault s.status, faultCode := code.toWord, faultInfo := info }

/-- A fault of the executing command: `FAULT_INFO` holds the command word (R503), which `CMD` holds since
the write that issued it (R411, log 17). -/
def State.raiseCmd (s : State) (code : FaultCode) : State := s.raise code s.cmd

/-- `do_reset()` (R600, R601): every piece of hardware state at its reset value. The parameters are not
state (R414), `VIOL` is not cleared (R52), and the host keeps its action list and its observations (R418). -/
def State.doReset (s : State) : State :=
  { State.resetWith s.params with pending := s.pending, observed := s.observed, viol := s.viol }

end Sys2Proof.Machine
end

