-- ==== Sys2Proof/Machine/Alu.lean ====
section
/-! DEFINITION. The meanings of the ALU commands (spec/40_fixed_point_alu.md R206, R210 to R223). Operands
are read from the state before any result is written. -/

namespace Sys2Proof.Machine

open Sys2Proof

/-- `ADD` (R210). -/
def execAluAdd (s : State) : Host.Outcome State Fault Refusal := .next (s.writeY (fxAdd s.a s.b))

/-- `SUB` (R211). -/
def execAluSub (s : State) : Host.Outcome State Fault Refusal := .next (s.writeY (fxSub s.a s.b))

/-- `MUL` (R212). -/
def execAluMul (s : State) : Host.Outcome State Fault Refusal := .next (s.writeY (fxMul s.a s.b))

/-- `DIV` (R213): `DIV_ZERO` when `B = 0`, and then nothing is written. -/
def execAluDiv (s : State) : Host.Outcome State Fault Refusal :=
  match fxDiv s.a s.b with
  | none => .next (s.raiseCmd .divZero)
  | some q => .next (s.writeY q)

/-- `MULW` (R214). -/
def execAluMulw (s : State) : Host.Outcome State Fault Refusal :=
  .next (s.writeAcc (Marked.pure (fxMulw s.a s.b)))

/-- `MACW` (R215). -/
def execAluMacw (s : State) : Host.Outcome State Fault Refusal := .next (s.writeAcc (fxMacw s.acc s.a s.b))

/-- `MSUW` (R216). -/
def execAluMsuw (s : State) : Host.Outcome State Fault Refusal := .next (s.writeAcc (fxMsuw s.acc s.a s.b))

/-- `ADDW` (R217). -/
def execAluAddw (s : State) : Host.Outcome State Fault Refusal := .next (s.writeAcc (fxAddw s.acc s.a))

/-- `COMPACT` (R218). -/
def execAluCompact (s : State) : Host.Outcome State Fault Refusal := .next (s.writeY (fxCompact s.acc))

/-- `ABS` (R219). -/
def execAluAbs (s : State) : Host.Outcome State Fault Refusal := .next (s.writeY (fxAbs s.a))

/-- `SHL K` (R220): `ILLEGAL_CMD` when `K >= W`. -/
def execAluShl (k : BitVec 6) (s : State) : Host.Outcome State Fault Refusal :=
  .next (if k.toNat < wordWidth then s.writeY (fxShl s.a k.toNat) else s.raiseCmd .illegalCmd)

/-- `SHR K` (R221): `ILLEGAL_CMD` when `K >= W`. -/
def execAluShr (k : BitVec 6) (s : State) : Host.Outcome State Fault Refusal :=
  .next (if k.toNat < wordWidth then s.writeY (Marked.pure (fxShr s.a k.toNat)) else s.raiseCmd .illegalCmd)

/-- `FROMF` (R222): `FLOAT_RANGE` when the value has no narrow word, and then nothing is written. -/
def execAluFromf (s : State) : Host.Outcome State Fault Refusal :=
  match fxFromf s.f with
  | none => .next (s.raiseCmd .floatRange)
  | some t => .next (s.writeY (Marked.pure t))

/-- `TOF` (R223). -/
def execAluTof (s : State) : Host.Outcome State Fault Refusal := .next { s with f := fxTof s.a }

end Sys2Proof.Machine
end

