-- ==== Sys2Proof/Machine/Cascade.lean ====
section
/-! DEFINITION. The cascaded-biquad pipeline and `CSTEP` (spec/42_biquad_cascade.md R300 to R308). -/

namespace Sys2Proof.Machine

open Sys2Proof

/-- `sg`, the sign of a stage's middle tap (R303): `+1` on even stages, `-1` on odd ones. -/
def stageSign (stage : Nat) : Int := if stage % 2 = 0 then 1 else -1

/-- The three input taps of stage 0, each multiplied by `SCALE` in the wide domain (R303). -/
def scaledTaps (stage : Nat) (x : Win) (scale : Word) : Marked Wide :=
  (widen ((fxMulw scale x.w0).toInt + stageSign stage * 2 * (fxMulw scale x.w1).toInt)).bind fun acc =>
    fxMacw acc scale x.w2

/-- The three input taps of a later stage, brought to product scale (R303). -/
def plainTaps (stage : Nat) (x : Win) : Marked Wide :=
  (fxAddw 0 x.w0).bind fun acc =>
    (widen (acc.toInt + stageSign stage * shl x.w1.toInt (pointPos + 1))).bind fun acc => fxAddw acc x.w2

/-- `stage_out(s, X, y1, y2, C)` (R303): one wide accumulation and one compaction. -/
def stageOut (stage : Nat) (x : Win) (y1 y2 scale : Word) (c : StageCoef) : Marked Word :=
  (if stage = 0 then scaledTaps stage x scale else plainTaps stage x).bind fun acc =>
    (fxMsuw acc c.a1 y1).bind fun acc => (fxMsuw acc c.a2 y2).bind fxCompact

/-- The stages from number `stage` on, each fed with the window of the one before (R301, R302): their new
output windows. -/
def runStages (scale : Word) : Nat → Win → List StageCoef → List Win → Marked (List Win)
  | stage, x, c :: cs, y :: ys =>
    (stageOut stage x y.w0 y.w1 scale c).bind fun o =>
      (runStages scale (stage + 1) ⟨o, y.w0, y.w1⟩ cs ys).map fun rest => ⟨o, y.w0, y.w1⟩ :: rest
  | _, _, [], ys => Marked.pure ys
  | _, _, _ :: _, [] => Marked.pure []

/-- `cascade_step` (R302) on the coefficients and history of one cascade: the new history and the output,
which is the last stage's `y[0]`. -/
def cascadeStep (c : Coef) (h : Hist) (u : Word) : Marked (Hist × Word) :=
  (runStages c.scale 0 ⟨u, h.xin.w0, h.xin.w1⟩ c.stages h.yh).map fun ys =>
    (⟨⟨u, h.xin.w0, h.xin.w1⟩, ys⟩, (ys.getLastD Win.zero).w0)

/-- `CSTEP` (R307) on the cascade of role `r` and band `n`: `BAD_BAND`, or one step with the sample in `A`,
its output in `Y`. -/
def cstep (r : Role) (n : Nat) (s : State) : State :=
  if n < s.params.bands then
    let o := cascadeStep ((s.band n).coef r) ((s.band n).hist r) s.a
    (s.modifyBand n fun bd => bd.setHist r o.val.1).writeY ⟨o.val.2, o.marks⟩
  else s.raiseCmd .badBand

/-- `CSTEP mod, BAND` (R307, `RM = 01`). -/
def execCstepMod (band : BitVec 16) (s : State) : Host.Outcome State Fault Refusal :=
  .next (cstep .modulator band.toNat s)

/-- `CSTEP car, BAND` (R307, `RM = 10`). -/
def execCstepCar (band : BitVec 16) (s : State) : Host.Outcome State Fault Refusal :=
  .next (cstep .carrier band.toNat s)

end Sys2Proof.Machine
end

