-- ==== Sys2Proof/Machine/Synth.lean ====
section
/-! DEFINITION. The voice pool, the ADSR, the band-limited oscillator, and `PRESS`, `RELEASE`, `SYNTH`
(spec/44_synthesizer.md R360 to R389). -/

namespace Sys2Proof.Machine

open Sys2Proof

/-- A free voice (R361): `SUSTAIN` or `RELEASE` with the envelope exactly 0. -/
def Voice.free (v : Voice) : Bool :=
  (decide (v.state = .sustain) || decide (v.state = .release)) && decide (v.env = 0)

/-- The voice that holds the smallest age, ties to the lowest index: `best` of age `bestAge` so far, the
list's head at index `i` (R361). -/
def oldestFrom : Nat → Nat → BitVec 32 → List Voice → Nat
  | _, best, _, [] => best
  | i, best, bestAge, v :: vs =>
    if v.age < bestAge then oldestFrom (i + 1) i v.age vs else oldestFrom (i + 1) best bestAge vs

/-- The index of the oldest voice (R361). -/
def oldestVoice : List Voice → Nat
  | [] => 0
  | v :: vs => oldestFrom 1 0 v.age vs

/-- `select_voice()` (R361): the lowest free voice, else the oldest. -/
def selectVoice (vs : List Voice) : Nat :=
  match vs.findIdx? Voice.free with
  | some i => i
  | none => oldestVoice vs

/-- A voice holds the note and is not in `RELEASE`: a press of the note is then a double press (R362). -/
def Voice.holds (note : BitVec 16) (v : Voice) : Bool :=
  decide (v.note = note) && !decide (v.state = .release)

/-- What `PRESS` writes into the selected voice (R360); phase, noise state and last sample stay (R364). -/
def Voice.press (note : BitVec 16) (inc : Word) (age : BitVec 32) (v : Voice) : Voice :=
  { v with env := 0, state := .attack, inc := inc, age := age, note := note }

/-- `PRESS NOTE` (R360): `BAD_NOTE`, or the selected voice starts the note with a fresh age (R363). -/
def pressNote (note : BitVec 16) (s : State) : State :=
  if note.toNat < s.params.numNotes then
    let age := s.ageCnt + 1
    let double := s.voices.any (Voice.holds note)
    { s.addMarks (Marks.ofPress double (decide (age = 0))) with
      ageCnt := age
      voices := s.voices.modify (selectVoice s.voices)
        (Voice.press note (s.params.noteInc.getD note.toNat 0) age) }
  else s.raiseCmd .badNote

/-- `PRESS NOTE` (R360). -/
def execPress (note : BitVec 16) (s : State) : Host.Outcome State Fault Refusal := .next (pressNote note s)

/-- What `RELEASE` does to a voice (R366). -/
def Voice.releaseNote (note : BitVec 16) (v : Voice) : Voice :=
  if v.note = note then { v with state := .release } else v

/-- `RELEASE NOTE` (R366). -/
def execRelease (note : BitVec 16) (s : State) : Host.Outcome State Fault Refusal :=
  .next (if note.toNat < s.params.numNotes then { s with voices := s.voices.map (Voice.releaseNote note) }
    else s.raiseCmd .badNote)

/-- Target, rate and next state of a moving segment (R370); `SUSTAIN` has none. -/
def adsrRow (sn : Snap) : Adsr → Option (Word × Word × Adsr)
  | .attack => some (oneWord, sn.attackRate, .decay)
  | .decay => some (sn.sustainLevel, sn.decayRate, .sustain)
  | .sustain => none
  | .release => some (0, sn.releaseRate, .release)

/-- `adsr_tick` (R371): the voice snaps to its target and advances, or moves, never both. -/
def adsrTick (eps : Word) (sn : Snap) (v : Voice) : Marked Voice :=
  match adsrRow sn v.state with
  | none => Marked.pure v
  | some (tgt, rate, nxt) =>
    (fxSub tgt v.env).bind fun d =>
      (fxAbs d).bind fun dist =>
        if dist.toInt ≤ eps.toInt then Marked.pure { v with env := tgt, state := nxt }
        else (fxMul d rate).bind fun move => (fxAdd v.env move).map fun env => { v with env := env }

/-- `naive(ph, shape)` (R380): the blend of the rising sawtooth and the square. -/
def naive (ph shape : Word) : Marked Word :=
  (fxShl ph 1).bind fun twice =>
    (fxSub twice oneWord).bind fun saw =>
      let sq : Word := if ph.toInt < 2 ^ (pointPos - 1) then oneWord else -oneWord
      (fxSub sq saw).bind fun diff => (fxMul diff shape).bind fun part => fxAdd saw part

/-- The tap loop of R381 from an accumulator on. -/
def runTaps (phase step shape : Word) : Wide → List Tap → Marked Wide
  | acc, [] => Marked.pure acc
  | acc, t :: ts =>
    (fxMul t.offset step).bind fun off =>
      (fxAdd phase off).bind fun ph =>
        (naive (modOne ph) shape).bind fun w =>
          (fxMacw acc t.weight w).bind fun acc => runTaps phase step shape acc ts

/-- The band-limited sample (R381). -/
def oscSample (taps : List Tap) (phase step shape : Word) : Marked Word :=
  (runTaps phase step shape 0 taps).bind fxCompact

/-- The next state of the default generator (R384). -/
def lcgNext (n : BitVec 32) : BitVec 32 := 1664525#32 * n + 1013904223#32

/-- The noise word of a new state of the default generator, `sext_32(s') >>> (31 - P)` (R384). -/
def lcgWord (n : BitVec 32) : Word := BitVec.ofInt 32 (asr n.toInt (31 - pointPos))

/-- `noise_next` of the instance's `NOISE_GEN` (R22, R384): the next state and the noise word (log 5). -/
def noiseNext (g : NoiseGen) (n : BitVec 32) : BitVec 32 × Word :=
  match g with
  | .lcg => (lcgNext n, lcgWord (lcgNext n))
  | .other => Config.otherNoise n

/-- The noise mix (R385). -/
def mixNoise (osc noise gain : Word) : Marked Word :=
  (fxMul osc noise).bind fun x => (fxMul x gain).bind fun y => fxAdd osc y

/-- Everything one sample does to one voice (R387): the envelope tick, the phase step (R378, R379), the
oscillator, the noise, and `LAST` (R386). -/
def voiceTick (p : Params) (sn : Snap) (v : Voice) : Marked Voice :=
  (adsrTick p.eps sn v).bind fun v =>
    (fxMul v.inc sn.tuning).bind fun step =>
      (fxAdd v.phase step).bind fun moved =>
        (oscSample p.taps (modOne moved) step sn.shape).bind fun osc =>
          let n := noiseNext p.noiseGen v.noise
          (mixNoise osc n.2 sn.noiseGain).map fun smp =>
            { v with phase := modOne moved, noise := n.1, last := smp }

/-- The voice loop of R387 in voice order: the wide sum of `smp · ENV`, and the voices after it. -/
def runVoices (p : Params) (sn : Snap) : Wide → List Voice → Marked (Wide × List Voice)
  | acc, [] => Marked.pure (acc, [])
  | acc, v :: vs =>
    (voiceTick p sn v).bind fun v =>
      (fxMacw acc v.last v.env).bind fun acc =>
        (runVoices p sn acc vs).map fun rest => (rest.1, v :: rest.2)

/-- What one sample of the synthesizer computes. -/
structure SynOut where
  out : Word
  voices : List Voice
  deriving DecidableEq, Repr

/-- `synth_process()` (R387), compacted once. -/
def synthProcess (sn : Snap) (s : State) : Marked SynOut :=
  (runVoices s.params sn 0 s.voices).bind fun r => (fxCompact r.1).map fun out => ⟨out, r.2⟩

/-- Writes what a synthesizer sample computed: `SYN_OUT` and the pool (R388). -/
def State.writeSyn (s : State) (r : Marked SynOut) : State :=
  { s.addMarks r.marks with synOut := r.val.out, voices := r.val.voices }

/-- `SYNTH` (R388). -/
def execSynth (s : State) : Host.Outcome State Fault Refusal :=
  .next (s.writeSyn (synthProcess s.snapshot s))

end Sys2Proof.Machine
end

