-- ==== Sys2Proof/Machine/Vocoder.lean ====
section
/-! DEFINITION. The vocoder and `VOCODE` (spec/43_vocoder.md R330 to R341). -/

namespace Sys2Proof.Machine

open Sys2Proof

/-- One band of the loop of R332: the modulator cascade, the envelope follower, the carrier cascade, and the
product added to the accumulator. -/
def bandStep (kEnv modS carS : Word) (acc : Wide) (bd : Band) : Marked (Wide × Band) :=
  (cascadeStep bd.coefMod bd.histMod modS).bind fun m =>
    (fxAbs m.2).bind fun level =>
      (fxLerp bd.env level kEnv).bind fun env =>
        (cascadeStep bd.coefCar bd.histCar carS).bind fun c =>
          (fxMacw acc c.2 env).map fun acc =>
            (acc, { bd with histMod := m.1, histCar := c.1, env := env })

/-- The band loop of R332 in band order. -/
def runBands (kEnv modS carS : Word) : Wide → List Band → Marked (Wide × List Band)
  | acc, [] => Marked.pure (acc, [])
  | acc, bd :: bds =>
    (bandStep kEnv modS carS acc bd).bind fun r =>
      (runBands kEnv modS carS r.1 bds).map fun rest => (rest.1, r.2 :: rest.2)

/-- The result of the auto-gain step: the output and the two trackers. -/
structure Gain where
  out : Word
  gm : Word
  go : Word
  deriving DecidableEq, Repr

/-- Step 6, auto-gain (R338), on the raw modulator `m` and the compacted output. The ratio is taken only
when `GO` is not 0. -/
def autoGain (enabled : Bool) (kAg m : Word) (g : Gain) : Marked Gain :=
  if enabled then
    (fxAbs m).bind fun am => (fxLerp g.gm am kAg).bind fun gm =>
      (fxAbs g.out).bind fun ao => (fxLerp g.go ao kAg).bind fun go =>
        match fxDiv gm go with
        | none => Marked.pure ⟨g.out, gm, go⟩
        | some ratio => ratio.bind fun r => (fxMul g.out r).map fun out => ⟨out, gm, go⟩
  else Marked.pure g

/-- What one sample of the vocoder computes: the output and the vocoder state after it. -/
structure VocOut where
  out : Word
  modS : Word
  carS : Word
  gm : Word
  go : Word
  bands : List Band
  deriving DecidableEq, Repr

/-- `vocoder_process(m, c)` (R330 to R339). -/
def vocoderProcess (sn : Snap) (m c : Word) (s : State) : Marked VocOut :=
  (fxLerp s.modS m s.params.kPre).bind fun modS =>
    (fxLerp s.carS c s.params.kPre).bind fun carS =>
      (runBands s.params.kEnv modS carS 0 s.bands).bind fun r =>
        (fxCompact r.1).bind fun out =>
          (autoGain sn.autoGainEn s.params.kAg m ⟨out, s.gm, s.go⟩).bind fun g =>
            (fxMul g.out sn.outputGain).map fun final => ⟨final, modS, carS, g.gm, g.go, r.2⟩

/-- Writes what a vocoder sample computed: `VOC_OUT` and the vocoder state (R340). -/
def State.writeVoc (s : State) (r : Marked VocOut) : State :=
  { s.addMarks r.marks with
    vocOut := r.val.out
    modS := r.val.modS
    carS := r.val.carS
    gm := r.val.gm
    go := r.val.go
    bands := r.val.bands }

/-- `VOCODE` (R340). -/
def execVocode (s : State) : Host.Outcome State Fault Refusal :=
  .next (s.writeVoc (vocoderProcess s.snapshot s.modIn s.carIn s))

end Sys2Proof.Machine
end

