-- ==== Sys2Proof/Machine/Control.lean ====
section
/-! DEFINITION. The commands of no single unit: `NOP`, `SAMPLE`, `SRESET` (spec/45_commands.md R412 to
R414). -/

namespace Sys2Proof.Machine

open Sys2Proof

/-- `NOP` (R412). -/
def execNop (s : State) : Host.Outcome State Fault Refusal := .next s

/-- One audio sample (R413) with the snapshot `sn`: the synthesizer, then the vocoder on its new output.
`CAR_IN` is not read. -/
def sampleOnce (sn : Snap) (s : State) : State :=
  let s1 := s.writeSyn (synthProcess sn s)
  s1.writeVoc (vocoderProcess sn s1.modIn s1.synOut s1)

/-- `SAMPLE` (R413): one snapshot for both units. -/
def execSample (s : State) : Host.Outcome State Fault Refusal := .next (sampleOnce s.snapshot s)

/-- `SRESET` (R414). -/
def execSreset (s : State) : Host.Outcome State Fault Refusal := .next s.doReset

end Sys2Proof.Machine
end

