-- ==== Sys2Proof/Machine/Designer.lean ====
section
/-! DEFINITION. The band-pass filter designer, `DESIGN` and `VINIT` (spec/41_filter_designer.md R250 to
R277). `design` follows the spec's algorithm in binary64, over the numerics `Libm` it is given; products
and quotients in a formula associate to the left (log 10). -/

namespace Sys2Proof.Machine

open Sys2Proof

/-- The binary64 values the formulas name: 0, 0.5, 1, 2, -2, `1e-8` and the binary64 nearest `π` (R252), and the
ends of the coefficient range, -4 and 4 (R259). -/
def f64Zero : F64 := 0#64
def f64Half : F64 := f64Round false f64OneUnits 2
def f64One : F64 := f64OfNat 1
def f64Two : F64 := f64OfNat 2
def f64MinusTwo : F64 := f64Neg (f64OfNat 2)
def f64Four : F64 := f64OfNat 4
def f64MinusFour : F64 := f64Neg f64Four
def f64Tiny : F64 := f64Round false f64OneUnits 100000000
def f64Pi : F64 := 0x400921FB54442D18#64

/-- Componentwise complex sum and difference, a real number as a complex one, conjugate, and the product of
a real and a complex number (R252, R254, R258; log 10). -/
def cAdd (x y : Cplx) : Cplx := ⟨f64Add x.re y.re, f64Add x.im y.im⟩
def cSub (x y : Cplx) : Cplx := ⟨f64Sub x.re y.re, f64Sub x.im y.im⟩
def cReal (x : F64) : Cplx := ⟨x, f64Zero⟩
def cConj (x : Cplx) : Cplx := ⟨x.re, f64Neg x.im⟩
def cScale (k : F64) (x : Cplx) : Cplx := ⟨f64Mul k x.re, f64Mul k x.im⟩

/-- The check of R251: `0.0 < fc and fc < 0.5`; a NaN fails it. -/
def fcInRange (fc : F64) : Bool := f64Lt f64Zero fc && f64Lt fc f64Half

/-- `p_k`, the upper pole of pair `k` (R252). -/
def protoPole (L : Libm) (n k : Nat) : Cplx :=
  let theta := f64Add (f64Div f64Pi f64Two) (f64Div (f64Mul (f64OfNat (2 * k + 1)) f64Pi) (f64OfNat (2 * n)))
  ⟨L.cos theta, L.sin theta⟩

/-- `clamp(w)` (R253; log 9 for NaN). -/
def clampAngle (w : F64) : F64 := f64Min (f64Max w f64Tiny) (f64Sub f64Pi f64Tiny)

/-- `2·pi·f` (R253). -/
def angleOf (x : F64) : F64 := f64Mul (f64Mul f64Two f64Pi) x

/-- `BW` and `O0SQ` (R253). -/
def warpBand (L : Libm) (fc fw : F64) : F64 × F64 :=
  let half := f64Div fw f64Two
  let oLo := L.tan (f64Div (clampAngle (angleOf (f64Sub fc half))) f64Two)
  let oHi := L.tan (f64Div (clampAngle (angleOf (f64Add fc half))) f64Two)
  (f64Sub oHi oLo, f64Mul oLo oHi)

/-- `dig(r)` (R254): the two digital roots of a prototype pole. -/
def digitalRoots (L : Libm) (bw o0sq : F64) (r : Cplx) : Cplx × Cplx :=
  let h : Cplx := ⟨f64Div (f64Mul r.re bw) f64Two, f64Div (f64Mul r.im bw) f64Two⟩
  let t := L.csqrt (cSub (L.cmul h h) (cReal o0sq))
  let sp := cAdd h t
  let sm := cSub h t
  (L.cdiv (cAdd (cReal f64One) sp) (cSub (cReal f64One) sp),
   L.cdiv (cAdd (cReal f64One) sm) (cSub (cReal f64One) sm))

/-- The poles of the stages `2k` and `2k + 1` (R255). -/
def pairPoles (L : Libm) (bw o0sq : F64) (n k : Nat) : List (Cplx × Cplx) :=
  let z := digitalRoots L bw o0sq (protoPole L n k)
  let c := digitalRoots L bw o0sq (cConj (protoPole L n k))
  [(z.1, c.1), (z.2, c.2)]

/-- The poles of all `N` stages, in stage order (R255). -/
def stagePoles (L : Libm) (bw o0sq : F64) (n : Nat) : List (Cplx × Cplx) :=
  (List.range (n / 2)).flatMap (pairPoles L bw o0sq n)

/-- `expand(r1, r2)` (R256): `(a1, a2)`, or no case applies. -/
def expandPair (r1 r2 : Cplx) : Option (F64 × F64) :=
  if f64Eq r1.im f64Zero && f64Eq r2.im f64Zero then
    some (f64Neg (f64Add r1.re r2.re), f64Mul r1.re r2.re)
  else if f64Eq r2.re r1.re && f64Eq r2.im (f64Neg r1.im) then
    some (f64Mul f64MinusTwo r1.re, f64Add (f64Mul r1.re r1.re) (f64Mul r1.im r1.im))
  else none

/-- `expand` of every stage in stage order; the first failure is `CFG_ROOT_PAIR` (R256, R260). -/
def expandStages : List (Cplx × Cplx) → Except FaultCode (List (F64 × F64))
  | [] => .ok []
  | p :: ps =>
    match expandPair p.1 p.2 with
    | none => .error .cfgRootPair
    | some a =>
      match expandStages ps with
      | .error e => .error e
      | .ok as => .ok (a :: as)

/-- `b1` of a stage (R257): `+2` on even stages, `-2` on odd ones. -/
def stageB1 (stage : Nat) : F64 := if stage % 2 = 0 then f64Two else f64MinusTwo

/-- The products `num` and `den` of R258 over the stages from number `stage` on. -/
def responseFrom (L : Libm) (q : Cplx) : Nat → Cplx → Cplx → List (F64 × F64) → Cplx × Cplx
  | _, num, den, [] => (num, den)
  | stage, num, den, a :: as =>
    let q2 := L.cmul q q
    let nf := cAdd (cAdd (cReal f64One) (cScale (stageB1 stage) q)) q2
    let df := cAdd (cAdd (cReal f64One) (cScale a.1 q)) (cScale a.2 q2)
    responseFrom L q (stage + 1) (L.cmul num nf) (L.cmul den df) as

/-- The scale factor of R258. -/
def scaleFactor (L : Libm) (o0sq : F64) (as : List (F64 × F64)) : F64 :=
  let wc := f64Mul f64Two (L.atan (f64Sqrt o0sq))
  let q : Cplx := ⟨L.cos wc, f64Neg (L.sin wc)⟩
  let r := responseFrom L q 0 (cReal f64One) (cReal f64One) as
  f64Div f64One (f64Div (L.cabs r.1) (L.cabs r.2))

/-- A designed value is in `[-4.0, 4.0)` (R259, R500); NaN and the infinities are not. -/
def coefInRange (x : F64) : Bool := !f64Lt x f64MinusFour && f64Lt x f64Four

/-- The conversion of R259: `fx_fromf` of a value in `[-4.0, 4.0)`, and `CFG_COEF_RANGE` for every other value
(R500), those just below `-4.0` that the command `FROMF` truncates to `-4.0` (R222, vector F-10) among them. -/
def convertCoef (x : F64) : Except FaultCode Word :=
  if coefInRange x then
    match fxFromf x with
    | none => .error .cfgCoefRange
    | some w => .ok w
  else .error .cfgCoefRange

/-- The conversion of every stage, `A1` before `A2`, in stage order (R259, R260). -/
def convertStages : List (F64 × F64) → Except FaultCode (List StageCoef)
  | [] => .ok []
  | a :: as =>
    match convertCoef a.1, convertCoef a.2, convertStages as with
    | .ok a1, .ok a2, .ok cs => .ok (⟨a1, a2⟩ :: cs)
    | .ok _, .ok _, .error e => .error e
    | .ok _, .error e, _ => .error e
    | .error e, _, _ => .error e

/-- `design(fc, fw, N)` (R250 to R260): a coefficient record, or the first fault in the order of R260. -/
def design (L : Libm) (fc fw : F64) (n : Nat) : Except FaultCode Coef :=
  if fcInRange fc then
    let w := warpBand L fc fw
    match expandStages (stagePoles L w.1 w.2 n) with
    | .error e => .error e
    | .ok as =>
      match convertStages as with
      | .error e => .error e
      | .ok cs =>
        match convertCoef (scaleFactor L w.2 as) with
        | .error e => .error e
        | .ok sc => .ok ⟨sc, cs⟩
  else .error .cfgFcRange

/-- What `DESIGN` stores in a band for `RM = 01`, `10` and `11` (R272). -/
def storeMod (c : Coef) (bd : Band) : Band := bd.setCoef .modulator c
def storeCar (c : Coef) (bd : Band) : Band := bd.setCoef .carrier c
def storeBoth (c : Coef) (bd : Band) : Band := (bd.setCoef .modulator c).setCoef .carrier c

/-- `DESIGN RM, BAND` (R272), with the roles of `RM` given by how a band's record takes the coefficients. -/
def designBand (L : Libm) (store : Coef → Band → Band) (n : Nat) (s : State) : State :=
  if n < s.params.bands then
    match design L s.f s.g s.params.ns with
    | .error e => s.raiseCmd e
    | .ok c => s.modifyBand n (store c)
  else s.raiseCmd .badBand

/-- `DESIGN mod, BAND` (R272, `RM = 01`). -/
def execDesignMod (band : BitVec 16) (s : State) : Host.Outcome State Fault Refusal :=
  .next (designBand Config.libm storeMod band.toNat s)

/-- `DESIGN car, BAND` (R272, `RM = 10`). -/
def execDesignCar (band : BitVec 16) (s : State) : Host.Outcome State Fault Refusal :=
  .next (designBand Config.libm storeCar band.toNat s)

/-- `DESIGN both, BAND` (R272, `RM = 11`). -/
def execDesignBoth (band : BitVec 16) (s : State) : Host.Outcome State Fault Refusal :=
  .next (designBand Config.libm storeBoth band.toNat s)

/-- The division width `d` of the band plan (R275). -/
def planWidth (fTop : F64) (bands : Nat) : F64 := f64Div fTop (f64OfNat (bands + 1))

/-- The design of band `b` of the plan: centre `(b + 1)·d`, bandwidth `d` (R275, R276). -/
def planBand (L : Libm) (s : State) (b : Nat) : Except FaultCode Coef :=
  let d := planWidth s.fTop s.params.bands
  design L (f64Mul (f64OfNat (b + 1)) d) d s.params.ns

/-- The designs of `count` bands from number `b` on, in increasing order; the first fault ends them
(R276, R504). -/
def designAll (dsgn : Nat → Except FaultCode Coef) : Nat → Nat → Except FaultCode (List Coef)
  | _, 0 => .ok []
  | b, count + 1 =>
    match dsgn b with
    | .error e => .error e
    | .ok c =>
      match designAll dsgn (b + 1) count with
      | .error e => .error e
      | .ok cs => .ok (c :: cs)

/-- A band that starts from rest with the coefficients `c` in both roles (R276). -/
def restBand (ns : Nat) (c : Coef) : Band := ⟨c, c, Hist.zero ns, Hist.zero ns, 0⟩

/-- `VINIT` (R276): every band designed, or the first fault and nothing written. -/
def vinit (L : Libm) (s : State) : State :=
  match designAll (planBand L s) 0 s.params.bands with
  | .error e => s.raiseCmd e
  | .ok cs =>
    { s with
      bands := cs.map (restBand s.params.ns)
      modS := 0
      carS := 0
      gm := 0
      go := 0
      status := statusSetCfgDone s.status }

/-- `VINIT` (R276). -/
def execVinit (s : State) : Host.Outcome State Fault Refusal := .next (vinit Config.libm s)

end Sys2Proof.Machine
end

