-- ==== Sys2Proof/Machine/Dispatch.lean ====
section
/-! DEFINITION. The meaning of every command: one arm per constructor of Instr
(spec/30_encoding.md R123, R124). -/

namespace Sys2Proof.Machine

open Sys2Proof

/-- Executes a decoded command (R411). -/
def exec (i : Instr) (s : State) : Host.Outcome State Fault Refusal :=
  match i with
  | .nop => Sys2Proof.Machine.execNop s
  | .aluAdd => Sys2Proof.Machine.execAluAdd s
  | .aluSub => Sys2Proof.Machine.execAluSub s
  | .aluMul => Sys2Proof.Machine.execAluMul s
  | .aluDiv => Sys2Proof.Machine.execAluDiv s
  | .aluMulw => Sys2Proof.Machine.execAluMulw s
  | .aluMacw => Sys2Proof.Machine.execAluMacw s
  | .aluMsuw => Sys2Proof.Machine.execAluMsuw s
  | .aluAddw => Sys2Proof.Machine.execAluAddw s
  | .aluCompact => Sys2Proof.Machine.execAluCompact s
  | .aluAbs => Sys2Proof.Machine.execAluAbs s
  | .aluShl k => Sys2Proof.Machine.execAluShl k s
  | .aluShr k => Sys2Proof.Machine.execAluShr k s
  | .aluFromf => Sys2Proof.Machine.execAluFromf s
  | .aluTof => Sys2Proof.Machine.execAluTof s
  | .press note => Sys2Proof.Machine.execPress note s
  | .release note => Sys2Proof.Machine.execRelease note s
  | .synth => Sys2Proof.Machine.execSynth s
  | .vocode => Sys2Proof.Machine.execVocode s
  | .sample => Sys2Proof.Machine.execSample s
  | .cstepMod band => Sys2Proof.Machine.execCstepMod band s
  | .cstepCar band => Sys2Proof.Machine.execCstepCar band s
  | .designMod band => Sys2Proof.Machine.execDesignMod band s
  | .designCar band => Sys2Proof.Machine.execDesignCar band s
  | .designBoth band => Sys2Proof.Machine.execDesignBoth band s
  | .vinit => Sys2Proof.Machine.execVinit s
  | .sreset => Sys2Proof.Machine.execSreset s

end Sys2Proof.Machine
end

