-- ==== Sys2Proof/Machine/RegSpace.lean ====
section
/-! DEFINITION. The register space: which word of the state each address names, and reading and writing it
(spec/20_memory.md R80 to R93). -/

namespace Sys2Proof.Machine

open Sys2Proof

/-- The fixed-address registers (R81). -/
inductive Reg where
  | cmd | status | faultCode | faultInfo | ctrl | ageCnt
  | a | b | y | accLo | accHi | fLo | fHi | gLo | gHi
  | modIn | carIn | synOut | vocOut
  | attackRate | decayRate | sustainLevel | releaseRate | outputGain | noiseGain | tuning | shape
  | fTopLo | fTopHi
  | modS | carS | gm | go
  deriving DecidableEq, Repr

/-- The fields of a voice in the voice view (R93). -/
inductive VoiceField where
  | note | age | phase | inc | state | env | noise | last
  deriving DecidableEq, Repr

/-- What an address names (R81, R82, R90 to R93). `tap` is the index of a sample in a window, 0 the newest. -/
inductive Slot where
  | reg (r : Reg)
  | scale (r : Role) (band : Nat)
  | a1 (r : Role) (band stage : Nat)
  | a2 (r : Role) (band stage : Nat)
  | env (band : Nat)
  | xin (r : Role) (band tap : Nat)
  | yh (r : Role) (band stage tap : Nat)
  | voice (v : Nat) (fld : VoiceField)
  | unmapped
  deriving DecidableEq, Repr

/-- The addresses of the fixed registers (R81). -/
def regAt : Nat → Option Reg
  | 0x00 => some .cmd
  | 0x01 => some .status
  | 0x02 => some .faultCode
  | 0x03 => some .faultInfo
  | 0x04 => some .ctrl
  | 0x05 => some .ageCnt
  | 0x08 => some .a
  | 0x09 => some .b
  | 0x0A => some .y
  | 0x0B => some .accLo
  | 0x0C => some .accHi
  | 0x0D => some .fLo
  | 0x0E => some .fHi
  | 0x0F => some .gLo
  | 0x10 => some .gHi
  | 0x18 => some .modIn
  | 0x19 => some .carIn
  | 0x1A => some .synOut
  | 0x1B => some .vocOut
  | 0x20 => some .attackRate
  | 0x21 => some .decayRate
  | 0x22 => some .sustainLevel
  | 0x23 => some .releaseRate
  | 0x24 => some .outputGain
  | 0x25 => some .noiseGain
  | 0x26 => some .tuning
  | 0x27 => some .shape
  | 0x28 => some .fTopLo
  | 0x29 => some .fTopHi
  | 0x30 => some .modS
  | 0x31 => some .carS
  | 0x32 => some .gm
  | 0x33 => some .go
  | _ => none

/-- Role and band of a 64-word block of the coefficient or history region (R90, R92). -/
def roleBand (bands idx : Nat) : Role × Nat :=
  if idx < bands then (.modulator, idx) else (.carrier, idx - bands)

/-- The coefficient word at offset `off` of the coefficient region (R90). -/
def coefSlot (p : Params) (off : Nat) : Slot :=
  let rb := roleBand p.bands (off / 64)
  let o := off % 64
  if 2 * p.bands ≤ off / 64 then .unmapped
  else if o = 0 then .scale rb.1 rb.2
  else if p.ns ≤ (o - 1) / 2 then .unmapped
  else if o % 2 = 1 then .a1 rb.1 rb.2 ((o - 1) / 2)
  else .a2 rb.1 rb.2 ((o - 1) / 2)

/-- The history word at offset `off` of the history view (R92). -/
def histSlot (p : Params) (off : Nat) : Slot :=
  let rb := roleBand p.bands (off / 64)
  let o := off % 64
  if 2 * p.bands ≤ off / 64 then .unmapped
  else if o < 3 then .xin rb.1 rb.2 o
  else if p.ns ≤ (o - 3) / 3 then .unmapped
  else .yh rb.1 rb.2 ((o - 3) / 3) ((o - 3) % 3)

/-- The fields of the voice view in address order (R93). -/
def voiceFieldAt : Nat → VoiceField
  | 0 => .note
  | 1 => .age
  | 2 => .phase
  | 3 => .inc
  | 4 => .state
  | 5 => .env
  | 6 => .noise
  | _ => .last

/-- What the address names on an instance with these parameters (R81, R82, R88 to R93). -/
def slotOf (p : Params) (addr : Addr) : Slot :=
  let n := addr.toNat
  if n < 0x1000 then
    match regAt n with
    | some r => .reg r
    | none => .unmapped
  else if n < 0x4000 then coefSlot p (n - 0x1000)
  else if n < 0x5000 then (if n - 0x4000 < min p.bands 0x100 then .env (n - 0x4000) else .unmapped)
  else if n < 0x8000 then histSlot p (n - 0x5000)
  else if n < 0x9000 then
    (if (n - 0x8000) / 8 < p.voices then .voice ((n - 0x8000) / 8) (voiceFieldAt ((n - 0x8000) % 8))
     else .unmapped)
  else .unmapped

/-- The registers a host may write (R81). -/
def Reg.writable : Reg → Bool
  | .cmd | .ctrl | .a | .b | .accLo | .accHi | .fLo | .fHi | .gLo | .gHi | .modIn | .carIn
  | .attackRate | .decayRate | .sustainLevel | .releaseRate | .outputGain | .noiseGain | .tuning | .shape
  | .fTopLo | .fTopHi => true
  | .status | .faultCode | .faultInfo | .ageCnt | .y | .synOut | .vocOut | .modS | .carS | .gm | .go => false

/-- The slots a host may write: RW registers and the coefficient region (R81, R90 to R93). -/
def Slot.writable : Slot → Bool
  | .reg r => r.writable
  | .scale _ _ | .a1 _ _ _ | .a2 _ _ _ => true
  | .env _ | .xin _ _ _ | .yh _ _ _ _ | .voice _ _ | .unmapped => false

/-- The low and the high word of a 64-bit register (R83). -/
def loWord (x : BitVec 64) : Word := x.extractLsb' 0 32
def hiWord (x : BitVec 64) : Word := x.extractLsb' 32 32

/-- A 64-bit register with one word replaced; the other half is unchanged (R34, R87). -/
def withLo (x : BitVec 64) (v : Word) : BitVec 64 := hiWord x ++ v
def withHi (x : BitVec 64) (v : Word) : BitVec 64 := v ++ loWord x

/-- What a host read of a fixed register returns; reserved bits of `STATUS`, `FAULT_CODE` and `CTRL` read 0
(R39 to R41). -/
def readReg (s : State) : Reg → Word
  | .cmd => s.cmd
  | .status => s.status &&& 3#32
  | .faultCode => s.faultCode &&& 0xFF#32
  | .faultInfo => s.faultInfo
  | .ctrl => s.ctrl &&& 1#32
  | .ageCnt => s.ageCnt
  | .a => s.a
  | .b => s.b
  | .y => s.y
  | .accLo => loWord s.acc
  | .accHi => hiWord s.acc
  | .fLo => loWord s.f
  | .fHi => hiWord s.f
  | .gLo => loWord s.g
  | .gHi => hiWord s.g
  | .modIn => s.modIn
  | .carIn => s.carIn
  | .synOut => s.synOut
  | .vocOut => s.vocOut
  | .attackRate => s.attackRate
  | .decayRate => s.decayRate
  | .sustainLevel => s.sustainLevel
  | .releaseRate => s.releaseRate
  | .outputGain => s.outputGain
  | .noiseGain => s.noiseGain
  | .tuning => s.tuning
  | .shape => s.shape
  | .fTopLo => loWord s.fTop
  | .fTopHi => hiWord s.fTop
  | .modS => s.modS
  | .carS => s.carS
  | .gm => s.gm
  | .go => s.go

/-- A host write to a fixed register other than `CMD` (R85); `CTRL` ignores its reserved bits (R41), and a
read-only register is not written (R82). A write of `CMD` issues a command and is not done here (R86). -/
def writeReg (s : State) (v : Word) : Reg → State
  | .ctrl => { s with ctrl := v &&& 1#32 }
  | .a => { s with a := v }
  | .b => { s with b := v }
  | .accLo => { s with acc := withLo s.acc v }
  | .accHi => { s with acc := withHi s.acc v }
  | .fLo => { s with f := withLo s.f v }
  | .fHi => { s with f := withHi s.f v }
  | .gLo => { s with g := withLo s.g v }
  | .gHi => { s with g := withHi s.g v }
  | .modIn => { s with modIn := v }
  | .carIn => { s with carIn := v }
  | .attackRate => { s with attackRate := v }
  | .decayRate => { s with decayRate := v }
  | .sustainLevel => { s with sustainLevel := v }
  | .releaseRate => { s with releaseRate := v }
  | .outputGain => { s with outputGain := v }
  | .noiseGain => { s with noiseGain := v }
  | .tuning => { s with tuning := v }
  | .shape => { s with shape := v }
  | .fTopLo => { s with fTop := withLo s.fTop v }
  | .fTopHi => { s with fTop := withHi s.fTop v }
  | .cmd | .status | .faultCode | .faultInfo | .ageCnt | .y | .synOut | .vocOut | .modS | .carS | .gm | .go => s

/-- The sample of a window by its index (R47). -/
def Win.at (w : Win) : Nat → Word
  | 0 => w.w0
  | 1 => w.w1
  | _ => w.w2

/-- The coefficients of stage `n` of a cascade. -/
def Coef.stage (c : Coef) (n : Nat) : StageCoef := c.stages.getD n ⟨0, 0⟩

/-- The 2-bit code of an ADSR state (R50), zero-extended (R93). -/
def Adsr.toWord : Adsr → Word
  | .attack => 0
  | .decay => 1
  | .sustain => 2
  | .release => 3

/-- A field of a voice as the voice view shows it, narrow fields zero-extended (R93). -/
def Voice.field (v : Voice) : VoiceField → Word
  | .note => BitVec.ofNat 32 v.note.toNat
  | .age => v.age
  | .phase => v.phase
  | .inc => v.inc
  | .state => v.state.toWord
  | .env => v.env
  | .noise => v.noise
  | .last => v.last

/-- The word a slot holds; an unmapped address reads 0 (R82). -/
def readSlot (s : State) : Slot → Word
  | .reg r => readReg s r
  | .scale r b => ((s.band b).coef r).scale
  | .a1 r b n => (((s.band b).coef r).stage n).a1
  | .a2 r b n => (((s.band b).coef r).stage n).a2
  | .env b => (s.band b).env
  | .xin r b i => ((s.band b).hist r).xin.at i
  | .yh r b n i => (((s.band b).hist r).yh.getD n Win.zero).at i
  | .voice v fld => (s.voices.getD v (Voice.reset v)).field fld
  | .unmapped => 0

/-- Replaces `SCALE`, or `A1` or `A2` of one stage, in a coefficient record. -/
def Coef.setScale (v : Word) (c : Coef) : Coef := { c with scale := v }
def Coef.setA1 (n : Nat) (v : Word) (c : Coef) : Coef :=
  { c with stages := c.stages.modify n fun st => { st with a1 := v } }
def Coef.setA2 (n : Nat) (v : Word) (c : Coef) : Coef :=
  { c with stages := c.stages.modify n fun st => { st with a2 := v } }

/-- Stores a word in a writable slot other than `CMD`; any other slot is left as it is (R85, R90). -/
def writeSlot (s : State) (v : Word) : Slot → State
  | .reg r => writeReg s v r
  | .scale r b => s.modifyBand b fun bd => bd.setCoef r ((bd.coef r).setScale v)
  | .a1 r b n => s.modifyBand b fun bd => bd.setCoef r ((bd.coef r).setA1 n v)
  | .a2 r b n => s.modifyBand b fun bd => bd.setCoef r ((bd.coef r).setA2 n v)
  | .env _ | .xin _ _ _ | .yh _ _ _ _ | .voice _ _ | .unmapped => s

/-- The word the register space shows at an address: what a host read returns (R80, R82). -/
def peek (s : State) (addr : Addr) : Word := readSlot s (slotOf s.params addr)

end Sys2Proof.Machine
end

