-- ==== Sys2Proof/Machine/Access.lean ====
section
/-! DEFINITION. Host accesses and the issue of commands (spec/20_memory.md R80 to R86, spec/45_commands.md
R410, R411, R417, R418). -/

namespace Sys2Proof.Machine

open Sys2Proof

/-- The word of `SRESET`, the one command accepted while faulted (R411, R414). -/
def sresetWord : Word := 0xFC000000#32

/-- The address of `CMD` (R81). -/
def cmdAddr : Addr := 0x0000#16

/-- The host write of `CMD` (R411): the word is kept, and the command it encodes is executed; while faulted
only `SRESET` is, and an illegal word raises `ILLEGAL_CMD`. -/
def issueCommand (w : Word) (s : State) : Host.Outcome State Fault Refusal :=
  let s1 := { s with cmd := w }
  if s1.faulted then
    if w = sresetWord then exec .sreset s1 else .next s1
  else
    match decode w with
    | .error _ => .next (s1.raise .illegalCmd w)
    | .ok i => exec i s1

/-- The word a failing access records: the address, zero-extended (R503). -/
def addrWord (addr : Addr) : Word := BitVec.ofNat 32 addr.toNat

/-- A host write (R82, R85, R86, R417). A failing write raises `BAD_ADDRESS`, or is ignored while faulted
(`State.raise` keeps the first fault). -/
def hostWrite (addr : Addr) (v : Word) (s : State) : Host.Outcome State Fault Refusal :=
  let slot := slotOf s.params addr
  if slot = .reg .cmd then issueCommand v s
  else if slot.writable then .next (writeSlot s v slot)
  else .next (s.raise .badAddress (addrWord addr))

/-- A host read (R82, R86, R417): the word is returned to the host, that is, added to `observed`. A failing
read returns 0 and raises `BAD_ADDRESS`, or is ignored while faulted. -/
def hostRead (addr : Addr) (s : State) : Host.Outcome State Fault Refusal :=
  let s1 := { s with observed := s.observed ++ [peek s addr] }
  if slotOf s.params addr = .unmapped then .next (s1.raise .badAddress (addrWord addr)) else .next s1

/-- One host action (R418). -/
def performAction (act : HostAction) (s : State) : Host.Outcome State Fault Refusal :=
  match act with
  | .wr addr v => hostWrite addr v s
  | .rd addr => hostRead addr s

/-- The next host action takes effect; with none to come the block idles and holds its state (R526, log 2). -/
def nextAction (s : State) : Host.Outcome State Fault Refusal :=
  match s.pending with
  | [] => .next s
  | act :: rest => performAction act { s with pending := rest }

/-- The state whose next host action writes the word to `CMD`, ahead of the actions still to come. -/
def State.placeCommand (s : State) (w : Word) : State := { s with pending := .wr cmdAddr w :: s.pending }

/-- The state with the host's action list in place (R418). -/
def State.loadActions (s : State) (acts : List HostAction) : State := { s with pending := acts }

end Sys2Proof.Machine
end

