-- ==== Sys2Proof/Machine/Step.lean ====
section
/-! DEFINITION. One step of the machine: one host action, with the whole command when it writes `CMD`
(spec/45_commands.md R410, R418). -/

namespace Sys2Proof.Machine

open Sys2Proof

/-- One step (R410, R418). -/
def step (s : State) : Host.Outcome State Fault Refusal := nextAction s

/-- `s` with the command word where the next step takes it from: as the host's next write of `CMD` (log 1).
Every command is one 32-bit word (R120). -/
def State.withFetchWord (s : State) (nbits w : Nat) : State := s.placeCommand (BitVec.ofNat 32 (w % 2 ^ nbits))

end Sys2Proof.Machine
end

