-- ==== Sys2Proof/Safety.lean ====
section
/-! DEFINITION. What claims are stated in: well-shaped states, clean runs, and runs of host actions
(spec/10_state.md, spec/60_exceptions.md R510, spec/45_commands.md R418, R419). -/

namespace Sys2Proof.Machine

open Sys2Proof

/-- A cascade's coefficients and history have `NS` stages (R46, R47). -/
structure Band.Shaped (ns : Nat) (bd : Band) : Prop where
  coefMod : bd.coefMod.stages.length = ns
  coefCar : bd.coefCar.stages.length = ns
  histMod : bd.histMod.yh.length = ns
  histCar : bd.histCar.yh.length = ns

/-- A voice as the rules leave it: its phase is in `[0, ONE)` (R379), and it holds no note (R49) or a note of
the table at that note's increment (R360). -/
structure Voice.Shaped (p : Params) (v : Voice) : Prop where
  phase : v.phase.toNat < 2 ^ pointPos
  note : (v.note = noteNone ∧ v.inc = 0) ∨
    (v.note.toNat < p.numNotes ∧ v.inc = p.noteInc.getD v.note.toNat 0)

/-- The fault record: no fault and nothing recorded, or a fault with one of the codes of R500 (R39, R40). -/
def State.FaultRecord (s : State) : Prop :=
  (s.faulted = false ∧ s.faultCode = 0 ∧ s.faultInfo = 0) ∨
  (s.faulted = true ∧ ∃ c : FaultCode, s.faultCode = c.toWord)

/-- The invariant of the machine: legal parameters, `BANDS` bands of `NS` stages, `V` voices, reserved bits
0 (R39, R41), and a fault record that agrees with `STATUS.FAULT`. -/
structure State.Inv (s : State) : Prop where
  params : s.params.Valid
  bandCount : s.bands.length = s.params.bands
  bandShape : ∀ bd ∈ s.bands, bd.Shaped s.params.ns
  voiceCount : s.voices.length = s.params.voices
  voiceShape : ∀ v ∈ s.voices, v.Shaped s.params
  status : s.status.toNat < 4
  ctrl : s.ctrl.toNat < 2
  record : s.FaultRecord

/-- A clean run has broken no caller precondition: `VIOL` is empty (R510). -/
def State.clean (s : State) : Prop := s.viol = Marks.empty

/-- A run that has not been stopped by a fault (R419). -/
def State.live (s : State) : Prop := s.faulted = false

/-- A host run (R418): the actions loaded and taken one a step. -/
def hostRun (s : State) (acts : List HostAction) : Host.Outcome State Fault Refusal :=
  Sys2Proof.core.run acts.length (s.loadActions acts)

end Sys2Proof.Machine
end

