-- ==== Sys2Proof/Certificates/Slice0/Obligations.lean ====
section
/-! DEFINITION. The statements for the provers. Each docstring names the rule it formalises. Results are
stated in exact integer or rational arithmetic, not by the model's own functions, wherever a rule gives a
value. -/

open Sys2Proof Sys2Proof.Machine

/-! ## Vocabulary -/

namespace Sys2Proof.Spec

/-- The fault record of R502 with a code of R500: `STATUS.FAULT` set, code and info written, nothing else. -/
def faultedWith (s : State) (code info : Word) : State :=
  { s with status := s.status ||| 1#32, faultCode := code, faultInfo := info }

/-- Every word of the range is illegal: written to `CMD` of a live block it raises `ILLEGAL_CMD` (code 5) with
the word and does nothing else (R126, R411, R502). -/
def IllegalRange (lo hi : Nat) : Prop :=
  ∀ (s : State) (w : Word) (rest : List HostAction), lo ≤ w.toNat → w.toNat ≤ hi →
    s.pending = .wr 0x0000#16 w :: rest → s.faulted = false →
    step s = .next (faultedWith { s with pending := rest, cmd := w } 5#32 w)

/-- `q = floor(x / d)`, for a positive `d`. -/
def IsFloor (q x d : Int) : Prop := q * d ≤ x ∧ x < (q + 1) * d

/-- The outcome is R202's `narrow(x)` written to `Y`: the word congruent to `x` modulo `2^32`, `V_RANGE`
recorded exactly when `x` does not fit, every other field as before. -/
def NarrowsTo (x : Int) (s : State) (o : Host.Outcome State Fault Refusal) : Prop :=
  ∃ y : Word, ∃ v : Marks, o = .next { s with y := y, viol := v } ∧ (∃ k : Int, y.toInt = x + k * 2 ^ 32) ∧
    (v.range = true ↔ s.viol.range = true ∨ x < -2 ^ 31 ∨ 2 ^ 31 ≤ x) ∧
    v.acc = s.viol.acc ∧ v.doublePress = s.viol.doublePress ∧ v.ageWrap = s.viol.ageWrap

/-- The outcome is R203's `widen(u)` written to `ACC`. -/
def WidensTo (u : Int) (s : State) (o : Host.Outcome State Fault Refusal) : Prop :=
  ∃ y : Wide, ∃ v : Marks, o = .next { s with acc := y, viol := v } ∧ (∃ k : Int, y.toInt = u + k * 2 ^ 64) ∧
    (v.acc = true ↔ s.viol.acc = true ∨ u < -2 ^ 63 ∨ 2 ^ 63 ≤ u) ∧
    v.range = s.viol.range ∧ v.doublePress = s.viol.doublePress ∧ v.ageWrap = s.viol.ageWrap

/-- The exponent field of a binary64 pattern. -/
def f64Exp (x : F64) : Nat := x.toNat / 2 ^ 52 % 2 ^ 11

/-- The real value of a finite binary64 pattern (R27): sign, exponent field and fraction. -/
def f64Value (x : F64) : ℚ :=
  let m : ℚ :=
    if f64Exp x = 0 then ((x.toNat % 2 ^ 52 : Nat) : ℚ) * (2 : ℚ) ^ (-1074 : ℤ)
    else ((2 ^ 52 + x.toNat % 2 ^ 52 : Nat) : ℚ) * (2 : ℚ) ^ ((f64Exp x : ℤ) - 1075)
  if x.toNat / 2 ^ 63 = 1 then -m else m

/-- Neither NaN nor an infinity. -/
def f64Fin (x : F64) : Prop := f64Exp x < 2047

/-- `t = trunc(v)`: toward zero. -/
def IsTrunc (t : Int) (v : ℚ) : Prop :=
  (0 ≤ v → 0 ≤ t ∧ (t : ℚ) ≤ v ∧ v < t + 1) ∧ (v < 0 → t ≤ 0 ∧ v ≤ (t : ℚ) ∧ (t : ℚ) - 1 < v)

/-- Executes commands one after another. -/
def execAll : List Instr → State → Host.Outcome State Fault Refusal
  | [], s => .next s
  | i :: is, s =>
    match exec i s with
    | .next t => execAll is t
    | .fault r => .fault r
    | .refused r => .refused r

/-- `CSTEP` of a role (R307). -/
def cstepOf : Role → BitVec 16 → Instr
  | .modulator, band => .cstepMod band
  | .carrier, band => .cstepCar band

/-- The input window of a stage: the cascade's input window, or the window of the stage before (R301). -/
def stageInput (h : Hist) (stage : Nat) : Win :=
  if stage = 0 then h.xin else h.yh.getD (stage - 1) Win.zero

/-- The last stage's newest output (R301). -/
def lastOutput (h : Hist) : Word := (h.yh.getLastD Win.zero).w0

/-- The modulator side is at rest (R336): zero input, smoothing state, modulator histories and envelopes. -/
def ModulatorSilent (s : State) : Prop :=
  s.modIn = 0 ∧ s.modS = 0 ∧
    ∀ bd ∈ s.bands, bd.env = 0 ∧ bd.histMod.xin = Win.zero ∧ ∀ w ∈ bd.histMod.yh, w = Win.zero

/-- No voice sounds: each is in `SUSTAIN` or `RELEASE` with the envelope at 0. -/
def PoolIdle (s : State) : Prop :=
  ∀ v ∈ s.voices, v.env = 0 ∧ (v.state = .sustain ∨ v.state = .release)

/-- A word in `[0, ONE]`. -/
def InUnit (w : Word) : Prop := 0 ≤ w.toInt ∧ w.toInt ≤ 2 ^ 29

/-- A free voice (R361): `SUSTAIN` or `RELEASE`, with the envelope exactly 0. -/
def IsFree (v : Voice) : Prop := (v.state = .sustain ∨ v.state = .release) ∧ v.env = 0

/-- R361's choice: the lowest free voice, or with none free the oldest, ties to the lowest index. -/
def Selected (vs : List Voice) (k : Nat) : Prop :=
  ∃ v, vs[k]? = some v ∧
    ((IsFree v ∧ ∀ j < k, ∀ u, vs[j]? = some u → ¬ IsFree u) ∨
     ((∀ u ∈ vs, ¬ IsFree u) ∧
       ∀ (j : Nat) (u : Voice), vs[j]? = some u →
         v.age.toNat < u.age.toNat ∨ (v.age.toNat = u.age.toNat ∧ k ≤ j)))

/-- A note is held by a voice not in `RELEASE` (R362). -/
def HeldUnreleased (note : BitVec 16) (vs : List Voice) : Prop :=
  ∃ v ∈ vs, v.note = note ∧ v.state ≠ .release

/-- The waveform of R380 in exact arithmetic; `Int`'s division by `2^29` is the floor. -/
def exactNaive (ph shape : Int) : Int :=
  let saw := 2 * ph - 2 ^ 29
  let sq := if ph < 2 ^ 28 then 2 ^ 29 else -2 ^ 29
  saw + (sq - saw) * shape / 2 ^ 29

/-- The band-limited sample of R381 in exact arithmetic: the weighted taps around the phase, floored once. -/
def exactOsc (taps : List Tap) (phase step shape : Int) : Int :=
  (taps.map fun t =>
    t.weight.toInt * exactNaive ((phase + t.offset.toInt * step / 2 ^ 29) % 2 ^ 29) shape).sum / 2 ^ 29

/-- One tick of R371 of a voice in a moving segment, with the target, rate and next state of its row of R370:
it snaps when the distance is within `eps`, else it moves by `fx_lerp` and its state stays. With no mark the
distance and the move are the exact ones. -/
def TicksToward (tgt rate eps : Word) (nxt : Adsr) (clean : Prop) (old new : Voice) : Prop :=
  let dist := (fxAbs (fxSub tgt old.env).val).val
  let gap := tgt.toInt - old.env.toInt
  (dist.toInt ≤ eps.toInt → new.env = tgt ∧ new.state = nxt) ∧
  (eps.toInt < dist.toInt → new.env = (fxLerp old.env tgt rate).val ∧ new.state = old.state) ∧
  (clean → |gap| ≤ eps.toInt → new.env = tgt ∧ new.state = nxt) ∧
  (clean → eps.toInt < |gap| →
    IsFloor (new.env.toInt - old.env.toInt) (gap * rate.toInt) (2 ^ 29) ∧ new.state = old.state)

/-- `fx_lerp` repeated toward a fixed target (R227). -/
def lerpTimes (x k : Word) : Nat → Word → Word
  | 0, s => s
  | n + 1, s => lerpTimes x k n (fxLerp s x k).val

/-- The design of band `b` of the plan (R275, R276), with the numerics `L`. -/
def planDesign (L : Libm) (s : State) (b : Nat) : Except FaultCode Coef :=
  let d := f64Div s.fTop (f64OfNat (s.params.bands + 1))
  design L (f64Mul (f64OfNat (b + 1)) d) d s.params.ns

/-- The state after a whole `VINIT` with the records `cs` (R276). -/
def afterVinit (s : State) (cs : List Coef) : State :=
  { s with
    bands := cs.map fun c => ⟨c, c, Hist.zero s.params.ns, Hist.zero s.params.ns, 0⟩
    modS := 0, carS := 0, gm := 0, go := 0
    status := s.status ||| 2#32 }

/-- Every mark of the first is in the second. -/
def MarksKept (m n : Marks) : Prop :=
  (m.range = true → n.range = true) ∧ (m.acc = true → n.acc = true) ∧
    (m.doublePress = true → n.doublePress = true) ∧ (m.ageWrap = true → n.ageWrap = true)

/-- The registers that only the host writes: `A`, `B`, `G`, the sample inputs, the parameter registers,
`F_TOP`, `CTRL` and `CMD` (R32, R35, R36, R41, R43, R44, R38). -/
def SameHostRegisters (s t : State) : Prop :=
  t.a = s.a ∧ t.b = s.b ∧ t.g = s.g ∧ t.modIn = s.modIn ∧ t.carIn = s.carIn ∧
  t.attackRate = s.attackRate ∧ t.decayRate = s.decayRate ∧ t.sustainLevel = s.sustainLevel ∧
  t.releaseRate = s.releaseRate ∧ t.outputGain = s.outputGain ∧ t.noiseGain = s.noiseGain ∧
  t.tuning = s.tuning ∧ t.shape = s.shape ∧ t.fTop = s.fTop ∧ t.ctrl = s.ctrl ∧ t.cmd = s.cmd

end Sys2Proof.Spec

open Sys2Proof.Spec

/-! ## Encoding -/

/-- R121 to R128: decoding the encoding of a well-formed instruction gives it back. -/
def Obligations.DecodeOfEncode : Prop :=
  ∀ i : Instr, i.wellFormed = true → decode (encode i) = .ok i

/-- R126: a word that decodes is the encoding of what it decodes to; no bit of a legal word is ignored. -/
def Obligations.EncodeOfDecode : Prop :=
  ∀ (w : Word) (i : Instr), decode w = .ok i → i.wellFormed = true ∧ encode i = w

/-- R126: a word is legal exactly when it meets the mask and match of a row of opcode_table.json, and then
the row is the decoded instruction's, so it is one row only. -/
def Obligations.LegalWordsAreTheTableRows : Prop :=
  ∀ w : Word,
    (∀ i, decode w = .ok i → rowOf i ∈ opcodeRows ∧ w &&& (rowOf i).mask = (rowOf i).pattern) ∧
    (∀ r ∈ opcodeRows, w &&& r.mask = r.pattern → ∃ i, decode w = .ok i ∧ rowOf i = r)

/-- T16: words written out from R121 to R125, one a format and two illegal ones (sanity). -/
def Obligations.SpecWordsDecode : Prop :=
  decode 0x00000000#32 = .ok .nop ∧ decode 0x04A00000#32 = .ok .aluMacw ∧
  decode 0x056F8000#32 = .ok (.aluShr 31) ∧ decode 0x08000003#32 = .ok (.press 3) ∧
  decode 0x1E000000#32 = .ok (.cstepCar 0) ∧ decode 0x23000001#32 = .ok (.designBoth 1) ∧
  decode 0xFC000000#32 = .ok .sreset ∧
  decode 0x05500000#32 = .error .shiftAmount ∧ decode 0x1F000000#32 = .error .roleMask

/-! ## Steps, faults and reset -/

/-- R411: the host's write of a legal word to `CMD` keeps the word and executes the command. -/
def Obligations.StepRunsTheDecodedCommand : Prop :=
  ∀ (s : State) (w : Word) (rest : List HostAction) (i : Instr),
    s.pending = .wr 0x0000#16 w :: rest → s.faulted = false → decode w = .ok i →
    step s = exec i { s with pending := rest, cmd := w }

/-- R126, R411, R502: an illegal word raises `ILLEGAL_CMD` (code 5) with the word, and nothing else. -/
def Obligations.IllegalWordFaults : Prop :=
  ∀ (s : State) (w : Word) (rest : List HostAction),
    s.pending = .wr 0x0000#16 w :: rest → s.faulted = false → (∀ i, decode w ≠ .ok i) →
    step s = .next (faultedWith { s with pending := rest, cmd := w } 5#32 w)

/-- R411: while faulted a command word other than `SRESET`'s is kept in `CMD` and ignored; `SRESET` resets. -/
def Obligations.FaultedBlockTakesOnlySreset : Prop :=
  ∀ (s : State) (w : Word) (rest : List HostAction),
    s.pending = .wr 0x0000#16 w :: rest → s.faulted = true →
    (w ≠ 0xFC000000#32 → step s = .next { s with pending := rest, cmd := w }) ∧
    (w = 0xFC000000#32 →
      step s = .next { State.resetWith s.params with pending := rest, observed := s.observed, viol := s.viol })

/-- R416: every command terminates. Every step of the model answers a next state: no fault outcome, no
refusal, from any state (that a fault is a state is the model's choice, log 23). R526, log 2: with no action to
come the block holds its state. -/
def Obligations.EveryStepAnswersNext : Prop :=
  (∀ s : State, ∃ t, step s = .next t) ∧ ∀ s : State, s.pending = [] → step s = .next s

/-- R410, R502: a command that raises a fault has no effect but the fault record and the word kept in `CMD`. -/
def Obligations.FaultingCommandWritesOnlyTheRecord : Prop :=
  ∀ (s t : State) (w : Word) (rest : List HostAction),
    s.pending = .wr 0x0000#16 w :: rest → s.faulted = false → step s = .next t → t.faulted = true →
    ∃ n : Nat, 1 ≤ n ∧ n ≤ 9 ∧
      t = faultedWith { s with pending := rest, cmd := w } (BitVec.ofNat 32 n) w

/-- R505, R506: whatever the host does, a recorded fault is kept, and only `SRESET` ends it. -/
def Obligations.FirstFaultIsKeptUntilSreset : Prop :=
  ∀ s t : State, s.faulted = true → step s = .next t →
    (t.faulted = true ∧ t.faultCode = s.faultCode ∧ t.faultInfo = s.faultInfo) ∨
    (s.pending.head? = some (.wr 0x0000#16 0xFC000000#32) ∧ t.faulted = false ∧ t.faultCode = 0 ∧
      t.faultInfo = 0)

/-- R601: every reset value, for every legal choice of the parameters: the registers, the coefficient store,
the histories, the envelopes, the voice pool and `VIOL`, which `SRESET` does not clear. -/
def Obligations.ResetValues : Prop :=
  ∀ p : Params, p.Valid →
    let s := State.resetWith p
    (s.cmd = 0 ∧ s.status = 0 ∧ s.faultCode = 0 ∧ s.faultInfo = 0 ∧ s.ctrl = 0 ∧ s.ageCnt = 0 ∧
      s.a = 0 ∧ s.b = 0 ∧ s.y = 0 ∧ s.acc = 0 ∧ s.f = 0 ∧ s.g = 0 ∧
      s.modIn = 0 ∧ s.carIn = 0 ∧ s.synOut = 0 ∧ s.vocOut = 0 ∧
      s.attackRate = p.rstAttack ∧ s.decayRate = p.rstDecay ∧ s.sustainLevel = p.rstSustain ∧
      s.releaseRate = p.rstRelease ∧ s.outputGain = 0x20000000#32 ∧ s.tuning = 0x20000000#32 ∧
      s.noiseGain = 0 ∧ s.shape = 0 ∧ s.fTop = 0 ∧
      s.modS = 0 ∧ s.carS = 0 ∧ s.gm = 0 ∧ s.go = 0 ∧ s.viol = ⟨false, false, false, false⟩) ∧
    s.bands.length = p.bands ∧ s.voices.length = p.voices ∧
    (∀ bd ∈ s.bands, bd.env = 0 ∧ ∀ r : Role,
      (bd.coef r).scale = 0 ∧ (bd.coef r).stages = List.replicate p.ns ⟨0, 0⟩ ∧
      (bd.hist r).xin = ⟨0, 0, 0⟩ ∧ (bd.hist r).yh = List.replicate p.ns ⟨0, 0, 0⟩) ∧
    (∀ t : State, ∃ u, exec .sreset t = .next u ∧ u.viol = t.viol) ∧
    ∀ (v : Nat) (u : Voice), s.voices[v]? = some u →
      u.note = 0xFFFF#16 ∧ u.age = 0 ∧ u.phase = 0 ∧ u.inc = 0 ∧ u.state = .release ∧ u.env = 0 ∧
      u.noise.toNat = v + 1 ∧ u.last = 0

/-- R412: `NOP`, word 0, changes nothing, and `OPC 0x00` with a nonzero reserved field is illegal. R600, R414:
`SRESET` puts every piece of hardware state at its reset value and keeps the parameters; a nonzero reserved
field is illegal. It keeps `VIOL` (R52, R601). That it leaves the host's action list and observations is the
model's (logs 1 and 22). -/
def Obligations.NopKeepsAndSresetResetsEverything : Prop :=
  decode 0x00000000#32 = .ok .nop ∧
  IllegalRange 0x00000001 0x03FFFFFF ∧
  decode 0xFC000000#32 = .ok .sreset ∧
  IllegalRange 0xFC000001 0xFFFFFFFF ∧
  ∀ s : State, exec .nop s = .next s ∧ exec .sreset s =
    .next { State.resetWith s.params with pending := s.pending, observed := s.observed, viol := s.viol }

/-- The invariant holds after reset, for every legal choice of the parameters, so for `State.reset`. -/
def Obligations.ResetMeetsTheInvariant : Prop :=
  State.reset.Inv ∧ ∀ p : Params, p.Valid → (State.resetWith p).Inv

/-- Every step keeps the invariant: legal shapes (R46, R47, R49), phases in `[0, ONE)` (R379), reserved bits
0 (R39, R41), the fault record in agreement with `STATUS.FAULT` (R40). -/
def Obligations.StepKeepsTheInvariant : Prop :=
  ∀ s t : State, s.Inv → step s = .next t → t.Inv

/-- R52: `VIOL` starts empty, is shown at no address, and no step clears a mark, `SRESET` included. R414, R600: no
step changes the parameters, which are a field of State by the model's choice (log 3). -/
def Obligations.MarksAndParametersPersist : Prop :=
  State.reset.viol = ⟨false, false, false, false⟩ ∧
  (∀ (s : State) (m : Marks) (addr : Addr), peek { s with viol := m } addr = peek s addr) ∧
  ∀ s t : State, step s = .next t → MarksKept s.viol t.viol ∧ t.params = s.params

/-- R32, R35, R36, R38, R41, R43, R44: no command but `SRESET` writes a register that is the host's. -/
def Obligations.CommandsLeaveHostRegisters : Prop :=
  ∀ (i : Instr) (s t : State), exec i s = .next t →
    t.pending = s.pending ∧ t.observed = s.observed ∧ (i ≠ .sreset → SameHostRegisters s t)

/-- R33, R34, R35, R39, R42, R46, R415: the commands that write `Y`, `ACC`, `F`, `AGE_CNT`, `CFG_DONE` and the
coefficients; every other command but `SRESET` leaves them as they are. -/
def Obligations.ResultRegistersHaveTheirWriters : Prop :=
  ∀ (i : Instr) (s t : State), i ≠ .sreset → exec i s = .next t →
    (i ∉ [.aluAdd, .aluSub, .aluMul, .aluDiv, .aluCompact, .aluAbs, .aluFromf] →
      (∀ k, i ≠ .aluShl k ∧ i ≠ .aluShr k) → (∀ b, i ≠ .cstepMod b ∧ i ≠ .cstepCar b) → t.y = s.y) ∧
    (i ∉ [.aluMulw, .aluMacw, .aluMsuw, .aluAddw] → t.acc = s.acc) ∧
    (i ≠ .aluTof → t.f = s.f) ∧
    ((∀ n, i ≠ .press n) → t.ageCnt = s.ageCnt) ∧
    (i ≠ .vinit → t.cfgDone = s.cfgDone) ∧
    (i ≠ .vinit → (∀ b, i ≠ .designMod b ∧ i ≠ .designCar b ∧ i ≠ .designBoth b) →
      t.bands.map (fun bd => (bd.coefMod, bd.coefCar)) = s.bands.map (fun bd => (bd.coefMod, bd.coefCar)))

/-! ## The register space -/

/-- R86, R95: a read of a mapped address returns the word and changes nothing else, faulted or not (R417). -/
def Obligations.MappedReadOnlyReturns : Prop :=
  ∀ (s : State) (addr : Addr) (rest : List HostAction),
    s.pending = .rd addr :: rest → slotOf s.params addr ≠ .unmapped →
    step s = .next { s with pending := rest, observed := s.observed ++ [peek s addr] }

/-- R82, R417, R503: a failing access raises `BAD_ADDRESS` (code 8) with the address when no fault is
recorded, is ignored when one is, and a failing read returns 0 either way. -/
def Obligations.FailingAccesses : Prop :=
  ∀ (s : State) (addr : Addr) (v : Word) (rest : List HostAction),
    (s.pending = .rd addr :: rest → slotOf s.params addr = .unmapped →
      (s.faulted = false → step s =
        .next (faultedWith { s with pending := rest, observed := s.observed ++ [0] } 8#32
          (BitVec.ofNat 32 addr.toNat))) ∧
      (s.faulted = true → step s = .next { s with pending := rest, observed := s.observed ++ [0] })) ∧
    (s.pending = .wr addr v :: rest → (slotOf s.params addr).writable = false →
      (s.faulted = false → step s =
        .next (faultedWith { s with pending := rest } 8#32 (BitVec.ofNat 32 addr.toNat))) ∧
      (s.faulted = true → step s = .next { s with pending := rest }))

/-- R85, R86, R95, R417: a host write to a writable address other than `CMD` is read back (`CTRL` keeps bit 0,
R41), every other address reads as before, and nothing of the host's side changes but the action taken. -/
def Obligations.WriteThenRead : Prop :=
  ∀ (s : State) (addr : Addr) (v : Word) (rest : List HostAction),
    s.Inv → s.pending = .wr addr v :: rest → (slotOf s.params addr).writable = true → addr ≠ 0x0000#16 →
    ∃ t, step s = .next t ∧ peek t addr = (if addr = 0x0004#16 then v &&& 1#32 else v) ∧
      (∀ other : Addr, other ≠ addr → peek t other = peek s other) ∧
      t.pending = rest ∧ t.observed = s.observed ∧ t.viol = s.viol ∧ t.params = s.params

/-- R81: the fixed registers, their addresses and access. Every other address below 0x1000 is unmapped. -/
def Obligations.FixedRegisterMap : Prop :=
  ∀ s : State,
    peek s 0x0000#16 = s.cmd ∧ (peek s 0x0001#16).toNat = s.status.toNat % 4 ∧
    (peek s 0x0002#16).toNat = s.faultCode.toNat % 256 ∧ peek s 0x0003#16 = s.faultInfo ∧
    (peek s 0x0004#16).toNat = s.ctrl.toNat % 2 ∧ peek s 0x0005#16 = s.ageCnt ∧
    peek s 0x0008#16 = s.a ∧ peek s 0x0009#16 = s.b ∧ peek s 0x000A#16 = s.y ∧
    peek s 0x000C#16 ++ peek s 0x000B#16 = s.acc ∧ peek s 0x000E#16 ++ peek s 0x000D#16 = s.f ∧
    peek s 0x0010#16 ++ peek s 0x000F#16 = s.g ∧ peek s 0x0029#16 ++ peek s 0x0028#16 = s.fTop ∧
    peek s 0x0018#16 = s.modIn ∧ peek s 0x0019#16 = s.carIn ∧ peek s 0x001A#16 = s.synOut ∧
    peek s 0x001B#16 = s.vocOut ∧ peek s 0x0020#16 = s.attackRate ∧ peek s 0x0021#16 = s.decayRate ∧
    peek s 0x0022#16 = s.sustainLevel ∧ peek s 0x0023#16 = s.releaseRate ∧ peek s 0x0024#16 = s.outputGain ∧
    peek s 0x0025#16 = s.noiseGain ∧ peek s 0x0026#16 = s.tuning ∧ peek s 0x0027#16 = s.shape ∧
    peek s 0x0030#16 = s.modS ∧ peek s 0x0031#16 = s.carS ∧ peek s 0x0032#16 = s.gm ∧
    peek s 0x0033#16 = s.go ∧
    ∀ n < 0x1000,
      ((slotOf s.params (BitVec.ofNat 16 n)).writable = true ↔
        n ∈ [0x00, 0x04, 0x08, 0x09, 0x0B, 0x0C, 0x0D, 0x0E, 0x0F, 0x10, 0x18, 0x19, 0x20, 0x21, 0x22, 0x23,
          0x24, 0x25, 0x26, 0x27, 0x28, 0x29]) ∧
      (slotOf s.params (BitVec.ofNat 16 n) = .unmapped ↔
        n ∈ [0x06, 0x07, 0x1C, 0x1D, 0x1E, 0x1F, 0x2A, 0x2B, 0x2C, 0x2D, 0x2E, 0x2F] ∨
          (0x11 ≤ n ∧ n ≤ 0x17) ∨ 0x34 ≤ n)

/-- R90, R89: where the coefficient words stand, writable, and the rest of a band's 64 words and of the region
unmapped. -/
def Obligations.CoefficientLayout : Prop :=
  ∀ (s : State) (r : Role) (band : Nat), s.Inv → band < s.params.bands →
    let base := 0x1000 + ((match r with | .modulator => 0 | .carrier => 1) * s.params.bands + band) * 64
    let at' := fun off => BitVec.ofNat 16 (base + off)
    peek s (at' 0) = ((s.band band).coef r).scale ∧
    (∀ stage < s.params.ns,
      peek s (at' (1 + 2 * stage)) = (((s.band band).coef r).stage stage).a1 ∧
      peek s (at' (2 + 2 * stage)) = (((s.band band).coef r).stage stage).a2) ∧
    (∀ off ≤ 2 * s.params.ns, (slotOf s.params (at' off)).writable = true) ∧
    (∀ off, 2 * s.params.ns + 1 ≤ off → off ≤ 63 → slotOf s.params (at' off) = .unmapped) ∧
    ∀ n, 0x1000 + 2 * s.params.bands * 64 ≤ n → n < 0x4000 → slotOf s.params (BitVec.ofNat 16 n) = .unmapped

/-- R91, R92, R93: where the state views show the envelopes, the histories and the voices, read-only, and which
words of the views are unmapped. -/
def Obligations.ViewLayout : Prop :=
  ∀ s : State, s.Inv →
    (∀ band < s.params.bands, peek s (BitVec.ofNat 16 (0x4000 + band)) = (s.band band).env ∧
      ∀ r : Role,
        let base := 0x5000 + ((match r with | .modulator => 0 | .carrier => 1) * s.params.bands + band) * 64
        let at' := fun off => BitVec.ofNat 16 (base + off)
        let h := (s.band band).hist r
        peek s (at' 0) = h.xin.w0 ∧ peek s (at' 1) = h.xin.w1 ∧ peek s (at' 2) = h.xin.w2 ∧
        (∀ stage < s.params.ns,
          let w := h.yh.getD stage Win.zero
          peek s (at' (3 + 3 * stage)) = w.w0 ∧ peek s (at' (4 + 3 * stage)) = w.w1 ∧
          peek s (at' (5 + 3 * stage)) = w.w2) ∧
        ∀ off, 3 + 3 * s.params.ns ≤ off → off ≤ 63 → slotOf s.params (at' off) = .unmapped) ∧
    (∀ (k : Nat) (v : Voice), s.voices[k]? = some v →
      let at' := fun off => BitVec.ofNat 16 (0x8000 + 8 * k + off)
      (peek s (at' 0)).toNat = v.note.toNat ∧ peek s (at' 1) = v.age ∧
      peek s (at' 2) = v.phase ∧ peek s (at' 3) = v.inc ∧
      (peek s (at' 4)).toNat =
        (match v.state with | .attack => 0 | .decay => 1 | .sustain => 2 | .release => 3) ∧
      peek s (at' 5) = v.env ∧ peek s (at' 6) = v.noise ∧ peek s (at' 7) = v.last) ∧
    ∀ n, 0x4000 ≤ n → n < 0x10000 →
      (slotOf s.params (BitVec.ofNat 16 n)).writable = false ∧
      (0x4000 + s.params.bands ≤ n → n < 0x5000 → slotOf s.params (BitVec.ofNat 16 n) = .unmapped) ∧
      (0x5000 + 2 * s.params.bands * 64 ≤ n → n < 0x8000 → slotOf s.params (BitVec.ofNat 16 n) = .unmapped) ∧
      (0x8000 + 8 * s.params.voices ≤ n → slotOf s.params (BitVec.ofNat 16 n) = .unmapped)

/-! ## The arithmetic unit -/

/-- R210, R211, R219: the words, and `A + B`, `A - B`, `|A|` narrowed to `Y`. -/
def Obligations.AddSubAbsNarrow : Prop :=
  decode 0x04000000#32 = .ok .aluAdd ∧ decode 0x04200000#32 = .ok .aluSub ∧ decode 0x05200000#32 = .ok .aluAbs ∧
  ∀ s : State, NarrowsTo (s.a.toInt + s.b.toInt) s (exec .aluAdd s) ∧
    NarrowsTo (s.a.toInt - s.b.toInt) s (exec .aluSub s) ∧ NarrowsTo |s.a.toInt| s (exec .aluAbs s)

/-- R212, R218, R204: the words; `MUL` floors the product at scale `2^58`, `COMPACT` the accumulator, by `2^29`,
and both narrow the result. -/
def Obligations.MulAndCompactFloor : Prop :=
  decode 0x04400000#32 = .ok .aluMul ∧ decode 0x05000000#32 = .ok .aluCompact ∧
  ∀ (s : State) (q : Int),
    (IsFloor q (s.a.toInt * s.b.toInt) (2 ^ 29) → NarrowsTo q s (exec .aluMul s)) ∧
    (IsFloor q s.acc.toInt (2 ^ 29) → NarrowsTo q s (exec .aluCompact s))

/-- R213: the word; the quotient of `A · 2^29` by `B`, rounded toward zero (the remainder has `A`'s sign),
narrowed; `B = 0` raises `DIV_ZERO` (code 1) and writes nothing else. -/
def Obligations.DivTruncatesTowardZero : Prop :=
  decode 0x04600000#32 = .ok .aluDiv ∧
  (∀ (s : State) (q r : Int), s.b ≠ 0 → s.a.toInt * 2 ^ 29 = q * s.b.toInt + r →
    r.natAbs < s.b.toInt.natAbs → (0 ≤ s.a.toInt → 0 ≤ r) → (s.a.toInt < 0 → r ≤ 0) →
    NarrowsTo q s (exec .aluDiv s)) ∧
  ∀ s : State, s.faulted = false → s.b = 0 → exec .aluDiv s = .next (faultedWith s 1#32 s.cmd)

/-- R214, R205, R215, R216, R217: the words; `MULW` is the exact product; the accumulations widen. -/
def Obligations.WideResults : Prop :=
  decode 0x04800000#32 = .ok .aluMulw ∧ decode 0x04A00000#32 = .ok .aluMacw ∧
  decode 0x04C00000#32 = .ok .aluMsuw ∧ decode 0x04E00000#32 = .ok .aluAddw ∧
  ∀ s : State,
    (∃ u : Wide, exec .aluMulw s = .next { s with acc := u } ∧ u.toInt = s.a.toInt * s.b.toInt) ∧
    WidensTo (s.acc.toInt + s.a.toInt * s.b.toInt) s (exec .aluMacw s) ∧
    WidensTo (s.acc.toInt - s.a.toInt * s.b.toInt) s (exec .aluMsuw s) ∧
    WidensTo (s.acc.toInt + s.a.toInt * 2 ^ 29) s (exec .aluAddw s)

/-- R220, R221, R204: the words `0x05400000 | (K << 15)` and `0x05600000 | (K << 15)`, and shifts by `K < 32`; a
larger `K` is `ILLEGAL_CMD` (code 5). -/
def Obligations.ShiftsByConstant : Prop :=
  ∀ (s : State) (k : BitVec 6),
    (k.toNat < 32 →
      decode (BitVec.ofNat 32 (0x05400000 + k.toNat * 2 ^ 15)) = .ok (.aluShl k) ∧
      decode (BitVec.ofNat 32 (0x05600000 + k.toNat * 2 ^ 15)) = .ok (.aluShr k) ∧
      NarrowsTo (s.a.toInt * 2 ^ k.toNat) s (exec (.aluShl k) s) ∧
      ∃ y : Word, exec (.aluShr k) s = .next { s with y := y } ∧ IsFloor y.toInt s.a.toInt (2 ^ k.toNat)) ∧
    (32 ≤ k.toNat → s.faulted = false →
      exec (.aluShl k) s = .next (faultedWith s 5#32 s.cmd) ∧
      exec (.aluShr k) s = .next (faultedWith s 5#32 s.cmd))

/-- R222: the word; `F · 2^29` truncated toward zero; `FLOAT_RANGE` (code 9) for NaN, infinities and values whose
truncation does not fit. -/
def Obligations.FromfTruncates : Prop :=
  decode 0x05800000#32 = .ok .aluFromf ∧
  ∀ s : State,
    (∀ t : Int, f64Fin s.f → IsTrunc t (f64Value s.f * 2 ^ 29) → -2 ^ 31 ≤ t → t < 2 ^ 31 →
      ∃ y : Word, exec .aluFromf s = .next { s with y := y } ∧ y.toInt = t) ∧
    (∀ t : Int, f64Fin s.f → IsTrunc t (f64Value s.f * 2 ^ 29) → (t < -2 ^ 31 ∨ 2 ^ 31 ≤ t) →
      s.faulted = false → exec .aluFromf s = .next (faultedWith s 9#32 s.cmd)) ∧
    (¬ f64Fin s.f → s.faulted = false → exec .aluFromf s = .next (faultedWith s 9#32 s.cmd))

/-- R223: the word; `A / 2^29`, exact in binary64, and 0 gives +0.0. -/
def Obligations.TofIsExact : Prop :=
  decode 0x05A00000#32 = .ok .aluTof ∧
  ∀ s : State, ∃ x : F64, exec .aluTof s = .next { s with f := x } ∧ f64Fin x ∧
    f64Value x = (s.a.toInt : ℚ) / 2 ^ 29 ∧ (s.a = 0 → x = 0)

/-- R225: `FROMF` after `TOF` returns the word, for every word, without a mark. -/
def Obligations.FloatRoundTrip : Prop :=
  ∀ s : State, ∃ t, exec .aluTof s = .next t ∧ exec .aluFromf t = .next { t with y := s.a }

/-- R218, R217: `COMPACT` after `MULW` is `MUL`, marks included, and `COMPACT` after `ADDW` on a zero
accumulator is the word itself. -/
def Obligations.CompactUndoesProductScale : Prop :=
  ∀ s : State,
    (∃ t u v, exec .aluMulw s = .next t ∧ exec .aluCompact t = .next u ∧ exec .aluMul s = .next v ∧
      u.y = v.y ∧ u.viol = v.viol) ∧
    (s.acc = 0 → ∃ t, exec .aluAddw s = .next t ∧ exec .aluCompact t = .next { t with y := s.a } ∧
      t.viol = s.viol)

/-- R227: `fx_lerp` with `0 < k <= ONE` toward a fixed target, when the first step marks nothing. A step adds
`floor(e·k / 2^P)`. From above each
step falls strictly without passing the target, and the target is reached and kept; from below no step passes
it, a step stays exactly when `e·k < 2^29`, and such a state is reached and kept. With `k = 0` nothing moves. -/
def Obligations.LerpConverges : Prop :=
  (∀ s x k : Word, 0 < k.toInt → k.toInt ≤ 2 ^ 29 → (fxLerp s x k).marks = Marks.empty →
    let n := (fxLerp s x k).val
    IsFloor (n.toInt - s.toInt) ((x.toInt - s.toInt) * k.toInt) (2 ^ 29) ∧ (x = s → n = s) ∧
    (x.toInt < s.toInt → x.toInt ≤ n.toInt ∧ n.toInt < s.toInt ∧
      ∃ m, ∀ j, m ≤ j → lerpTimes x k j s = x) ∧
    (s.toInt < x.toInt → s.toInt ≤ n.toInt ∧ n.toInt ≤ x.toInt ∧
      (n = s ↔ (x.toInt - s.toInt) * k.toInt < 2 ^ 29) ∧
      ∃ (m : Nat) (z : Word), z.toInt ≤ x.toInt ∧ (x.toInt - z.toInt) * k.toInt < 2 ^ 29 ∧
        ∀ j, m ≤ j → lerpTimes x k j s = z)) ∧
  ∀ s x : Word, (fxLerp s x 0).val = s

/-! ## The cascade -/

/-- R303, R304: a stage adds its terms in the wide accumulator, one after another, and compacts once. `V_ACC` is
marked exactly when a partial sum does not fit 64 bits; the sum, wrapped, is floored by `2^29` and narrowed, with
`V_RANGE` exactly when the floor does not fit. So with no mark the output is the floor of the exact sum. -/
def Obligations.StageOutputIsTheDifferenceEquation : Prop :=
  ∀ (stage : Nat) (x : Win) (y1 y2 scale : Word) (c : StageCoef),
    let o := stageOut stage x y1 y2 scale c
    let sg : Int := if stage % 2 = 0 then 1 else -1
    let unit : Int := if stage = 0 then scale.toInt else 2 ^ 29
    let p0 : Int := unit * x.w0.toInt
    let p1 : Int := p0 + sg * 2 * unit * x.w1.toInt
    let p2 : Int := p1 + unit * x.w2.toInt
    let p3 : Int := p2 - c.a1.toInt * y1.toInt
    let p4 : Int := p3 - c.a2.toInt * y2.toInt
    (o.marks.acc = true ↔ ∃ p ∈ [p0, p1, p2, p3, p4], p < -2 ^ 63 ∨ 2 ^ 63 ≤ p) ∧
    (∃ u q n m : Int, -2 ^ 63 ≤ u ∧ u < 2 ^ 63 ∧ u = p4 + n * 2 ^ 64 ∧ IsFloor q u (2 ^ 29) ∧
      o.val.toInt = q + m * 2 ^ 32 ∧ (o.marks.range = true ↔ q < -2 ^ 31 ∨ 2 ^ 31 ≤ q)) ∧
    o.marks.doublePress = false ∧ o.marks.ageWrap = false ∧
    (o.marks = Marks.empty → IsFloor o.val.toInt p4 (2 ^ 29))

/-- R302, R307: `CSTEP` (words `0x1D000000 | BAND` and `0x1E000000 | BAND`) shifts the sample in `A` into the
cascade's input window, ages and extends every stage's window by `stage_out` on the window of the stage before,
returns the last stage's output in `Y`, adds to `VIOL` the marks of its stages (R202, R203, R304), and changes
nothing else; `BAND >= BANDS` raises `BAD_BAND` (code 7), and every other word of the opcode is illegal. -/
def Obligations.CstepStepsOneCascade : Prop :=
  (IllegalRange 0x1C000000 0x1CFFFFFF ∧ IllegalRange 0x1D010000 0x1DFFFFFF ∧
    IllegalRange 0x1E010000 0x1EFFFFFF ∧ IllegalRange 0x1F000000 0x1FFFFFFF) ∧
  ∀ (s : State) (r : Role) (band : BitVec 16),
    decode (BitVec.ofNat 32
      ((match r with | .modulator => 0x1D000000 | .carrier => 0x1E000000) + band.toNat)) = .ok (cstepOf r band) ∧
    (s.Inv → band.toNat < s.params.bands →
      let bd := s.band band.toNat
      ∃ (h : Hist) (y : Word) (v : Marks),
        exec (cstepOf r band) s =
          .next { s with y := y, viol := v, bands := s.bands.set band.toNat (bd.setHist r h) } ∧
        h.xin = ⟨s.a, (bd.hist r).xin.w0, (bd.hist r).xin.w1⟩ ∧ h.yh.length = s.params.ns ∧
        (∀ k < s.params.ns,
          let old := (bd.hist r).yh.getD k Win.zero
          let new := h.yh.getD k Win.zero
          new.w1 = old.w0 ∧ new.w2 = old.w1 ∧
          new.w0 = (stageOut k (stageInput h k) old.w0 old.w1 (bd.coef r).scale ((bd.coef r).stage k)).val) ∧
        y = lastOutput h ∧
        (let marksOf := fun k =>
          let old := (bd.hist r).yh.getD k Win.zero
          (stageOut k (stageInput h k) old.w0 old.w1 (bd.coef r).scale ((bd.coef r).stage k)).marks
        (v.range = true ↔ s.viol.range = true ∨ ∃ k < s.params.ns, (marksOf k).range = true) ∧
        (v.acc = true ↔ s.viol.acc = true ∨ ∃ k < s.params.ns, (marksOf k).acc = true)) ∧
        v = s.viol.union (cascadeStep (bd.coef r) (bd.hist r) s.a).marks ∧
        v.doublePress = s.viol.doublePress ∧ v.ageWrap = s.viol.ageWrap) ∧
    (s.faulted = false → s.params.bands ≤ band.toNat →
      exec (cstepOf r band) s = .next (faultedWith s 7#32 s.cmd))

/-- R127, R307, R272, R360, R366, R502: every operand value has a legal word; a band index not below `BANDS` raises
`BAD_BAND` (code 7) when the command executes, a note not below `NUM_NOTES` `BAD_NOTE` (code 6). -/
def Obligations.OperandFaults : Prop :=
  (∀ n : BitVec 16, ∀ i ∈ [Instr.cstepMod n, .cstepCar n, .designMod n, .designCar n, .designBoth n, .press n,
    .release n], decode (encode i) = .ok i) ∧
  ∀ (s : State) (n : BitVec 16), s.faulted = false →
    (s.params.bands ≤ n.toNat →
      ∀ i ∈ [Instr.cstepMod n, .cstepCar n, .designMod n, .designCar n, .designBoth n],
        exec i s = .next (faultedWith s 7#32 s.cmd)) ∧
    (s.params.numNotes ≤ n.toNat →
      ∀ i ∈ [Instr.press n, .release n], exec i s = .next (faultedWith s 6#32 s.cmd))

/-- R306: with zero coefficients and zero output windows a cascade outputs 0 for every input, while its input
window records the input. -/
def Obligations.ZeroCoefficientsOutputZero : Prop :=
  ∀ (c : Coef) (h : Hist) (u : Word), c.scale = 0 → (∀ st ∈ c.stages, st = ⟨0, 0⟩) →
    (∀ w ∈ h.yh, w = Win.zero) →
    cascadeStep c h u = ⟨(⟨⟨u, h.xin.w0, h.xin.w1⟩, h.yh⟩, 0), Marks.empty⟩

/-! ## The designer -/

/-- R251, R270, R250: `design` faults with `CFG_FC_RANGE` exactly when the centre frequency is not in
`(0, 0.5)` (a NaN is not), and a record it returns has `N` stages. -/
def Obligations.DesignChecksTheCentre : Prop :=
  ∀ (L : Libm) (fc fw : F64) (n : Nat),
    (design L fc fw n = .error .cfgFcRange ↔ ¬ (f64Fin fc ∧ 0 < f64Value fc ∧ f64Value fc < 1 / 2)) ∧
    (n % 2 = 0 → ∀ c, design L fc fw n = .ok c → c.stages.length = n)

/-- R259, R500, R222: the conversion of a designed coefficient or scale. A finite value in `[-4.0, 4.0)` becomes the
word of its product by `2^29`, truncated toward zero; every other value, NaN and the infinities among them, is
`CFG_COEF_RANGE`, and so is the whole design that meets it. -/
def Obligations.ConversionKeepsTheCoefficientRange : Prop :=
  (∀ x : F64, f64Fin x → -4 ≤ f64Value x → f64Value x < 4 →
    ∃ w : Word, convertCoef x = .ok w ∧ IsTrunc w.toInt (f64Value x * 2 ^ 29)) ∧
  (∀ x : F64, (¬ f64Fin x ∨ f64Value x < -4 ∨ 4 ≤ f64Value x) → convertCoef x = .error .cfgCoefRange) ∧
  ∀ (L : Libm) (fc fw : F64) (n : Nat) (as : List (F64 × F64)), fcInRange fc = true →
    expandStages (stagePoles L (warpBand L fc fw).1 (warpBand L fc fw).2 n) = .ok as →
    (∃ x, (x = scaleFactor L (warpBand L fc fw).2 as ∨ ∃ a ∈ as, x = a.1 ∨ x = a.2) ∧
      convertCoef x = .error .cfgCoefRange) →
    design L fc fw n = .error .cfgCoefRange

/-- R272, R23: the words `0x21000000`, `0x22000000`, `0x23000000` with `BAND`, every other word of the opcode
being illegal. `DESIGN` answers a next state: for every numerics, so for the instance's own, a record is stored
in the roles of `RM` of the one band and nothing else changes, and a failing design raises its fault and stores
nothing. `BAND >= BANDS` raises `BAD_BAND` (code 7) whatever the design. -/
def Obligations.DesignStoresTheSelectedRoles : Prop :=
  (IllegalRange 0x20000000 0x20FFFFFF ∧ IllegalRange 0x21010000 0x21FFFFFF ∧
    IllegalRange 0x22010000 0x22FFFFFF ∧ IllegalRange 0x23010000 0x23FFFFFF) ∧
  ∀ (s : State) (band : BitVec 16),
    (decode (BitVec.ofNat 32 (0x21000000 + band.toNat)) = .ok (.designMod band) ∧
      decode (BitVec.ofNat 32 (0x22000000 + band.toNat)) = .ok (.designCar band) ∧
      decode (BitVec.ofNat 32 (0x23000000 + band.toNat)) = .ok (.designBoth band)) ∧
    (exec (.designMod band) s = .next (designBand Config.libm storeMod band.toNat s) ∧
      exec (.designCar band) s = .next (designBand Config.libm storeCar band.toNat s) ∧
      exec (.designBoth band) s = .next (designBand Config.libm storeBoth band.toNat s)) ∧
    (s.faulted = false → s.params.bands ≤ band.toNat →
      ∀ i ∈ [Instr.designMod band, .designCar band, .designBoth band],
        exec i s = .next (faultedWith s 7#32 s.cmd)) ∧
    (s.Inv → band.toNat < s.params.bands → ∀ L : Libm,
      let bd := s.band band.toNat
      let put := fun bd' : Band => { s with bands := s.bands.set band.toNat bd' }
      (∀ c, design L s.f s.g s.params.ns = .ok c →
        designBand L storeMod band.toNat s = put { bd with coefMod := c } ∧
        designBand L storeCar band.toNat s = put { bd with coefCar := c } ∧
        designBand L storeBoth band.toNat s = put { bd with coefMod := c, coefCar := c }) ∧
      (∀ e, design L s.f s.g s.params.ns = .error e → s.faulted = false →
        ∀ store ∈ [storeMod, storeCar, storeBoth],
          designBand L store band.toNat s = faultedWith s e.toWord s.cmd))

/-- R275, R276, R23: the word; `VINIT` answers a next state: for every numerics, so for the instance's own, with
every band of the plan designed the vocoder starts from rest with the records in both roles, and with a band
that fails the fault of the first is raised and nothing is written. -/
def Obligations.VinitDesignsAllBandsOrNone : Prop :=
  decode 0x24000000#32 = .ok .vinit ∧ IllegalRange 0x24000001 0x27FFFFFF ∧
  ∀ s : State, exec .vinit s = .next (vinit Config.libm s) ∧ ∀ L : Libm,
    (∀ cs : List Coef, cs.length = s.params.bands →
      (∀ (b : Nat) (c : Coef), cs[b]? = some c → planDesign L s b = .ok c) → vinit L s = afterVinit s cs) ∧
    (∀ (b : Nat) (e : FaultCode), b < s.params.bands → (∀ b' < b, ∃ c, planDesign L s b' = .ok c) →
      planDesign L s b = .error e → s.faulted = false → vinit L s = faultedWith s e.toWord s.cmd)

/-- R44, R275: with `F_TOP` at +0.0, its reset value, `VINIT` raises `CFG_FC_RANGE` (code 2). -/
def Obligations.VinitFaultsUntilTopIsSet : Prop :=
  ∀ s : State, s.params.Valid → s.faulted = false → s.fTop = 0 →
    exec .vinit s = .next (faultedWith s 2#32 s.cmd)

/-! ## The vocoder -/

/-- R340, R331, R332, R338: the word, with every other word of the opcode illegal, and what `VOCODE` writes. `MOD_S` and `CAR_S` take their one-pole step; in each band
both cascades take one step on them and the envelope follows the modulator cascade's magnitude; the
coefficients stay; `GM` and `GO` stay while auto-gain is off; the marks of the sample are added to `VIOL`, and no
mark of a press (R337); nothing else changes. -/
def Obligations.VocodeWritesTheVocoderState : Prop :=
  decode 0x14000000#32 = .ok .vocode ∧ IllegalRange 0x14000001 0x17FFFFFF ∧
  ∀ s : State, ∃ (out : Word) (bands : List Band) (gm go : Word) (v : Marks),
    let modS := (fxLerp s.modS s.modIn s.params.kPre).val
    let carS := (fxLerp s.carS s.carIn s.params.kPre).val
    exec .vocode s =
      .next { s with vocOut := out, modS := modS, carS := carS, gm := gm, go := go, bands := bands, viol := v } ∧
    bands.length = s.bands.length ∧
    (s.autoGainEn = false → gm = s.gm ∧ go = s.go) ∧
    v = s.viol.union (vocoderProcess s.snapshot s.modIn s.carIn s).marks ∧
    v.doublePress = s.viol.doublePress ∧ v.ageWrap = s.viol.ageWrap ∧
    ∀ (b : Nat) (old new : Band), s.bands[b]? = some old → bands[b]? = some new →
      new.coefMod = old.coefMod ∧ new.coefCar = old.coefCar ∧
      new.histMod = (cascadeStep old.coefMod old.histMod modS).val.1 ∧
      new.histCar = (cascadeStep old.coefCar old.histCar carS).val.1 ∧
      new.env = (fxLerp old.env (fxAbs (cascadeStep old.coefMod old.histMod modS).val.2).val s.params.kEnv).val

/-- R332, R333, R339: with auto-gain off and no mark, `VOC_OUT` is the sum over the bands of carrier output
times envelope, floored once, times the output gain, floored. -/
def Obligations.VocodeOutputIsTheGainedBandSum : Prop :=
  ∀ s : State, s.autoGainEn = false → ∃ t, exec .vocode s = .next t ∧
    (t.viol = Marks.empty → ∃ q : Int,
      IsFloor q ((t.bands.map fun bd => (lastOutput bd.histCar).toInt * bd.env.toInt).sum) (2 ^ 29) ∧
      IsFloor t.vocOut.toInt (q * s.outputGain.toInt) (2 ^ 29))

/-- R338: with auto-gain on, the trackers follow `|MOD_IN|` and `|out|`, and the output is scaled by `GM/GO`
unless `GO` is 0; `out` is what the same sample gives with auto-gain off and unit output gain. With auto-gain off
the trackers keep their values. -/
def Obligations.AutoGainScalesByTheRatio : Prop :=
  ∀ s : State, ∃ t u,
    exec .vocode s = .next t ∧ exec .vocode { s with ctrl := 0, outputGain := 0x20000000#32 } = .next u ∧
    t.modS = u.modS ∧ t.carS = u.carS ∧ t.bands = u.bands ∧
    (s.autoGainEn = false →
      t.gm = s.gm ∧ t.go = s.go ∧ t.vocOut = (fxMul u.vocOut s.outputGain).val) ∧
    (s.autoGainEn = true →
      t.gm = (fxLerp s.gm (fxAbs s.modIn).val s.params.kAg).val ∧
      t.go = (fxLerp s.go (fxAbs u.vocOut).val s.params.kAg).val ∧
      (t.go = 0 → t.vocOut = (fxMul u.vocOut s.outputGain).val) ∧
      ∀ ratio, fxDiv t.gm t.go = some ratio →
        t.vocOut = (fxMul (fxMul u.vocOut ratio.val).val s.outputGain).val)

/-- R336: from a modulator at rest a zero modulator keeps every envelope and the output exactly 0, whatever the
carrier, the coefficients and the gains, and the modulator side stays at rest. -/
def Obligations.SilentModulatorStaysSilent : Prop :=
  ∀ s : State, ModulatorSilent s → ∃ t, exec .vocode s = .next t ∧ t.vocOut = 0 ∧ ModulatorSilent t

/-! ## The synthesizer -/

/-- R360 to R364: the word `0x08000000 | NOTE`. A press of a note of the table takes the voice of R361, writes
five of its fields, steps `AGE_CNT`, marks a double press and an age wrap, and changes nothing else; a note not
below `NUM_NOTES` raises `BAD_NOTE` (code 6); a nonzero reserved field is illegal. -/
def Obligations.PressTakesTheSelectedVoice : Prop :=
  IllegalRange 0x08010000 0x0BFFFFFF ∧
  ∀ (s : State) (note : BitVec 16),
    decode (BitVec.ofNat 32 (0x08000000 + note.toNat)) = .ok (.press note) ∧
    (s.Inv → note.toNat < s.params.numNotes →
      ∃ (k : Nat) (old : Voice) (v : Marks), Selected s.voices k ∧ s.voices[k]? = some old ∧
        exec (.press note) s = .next { s with
          ageCnt := s.ageCnt + 1
          viol := v
          voices := s.voices.set k { old with
            note := note, age := s.ageCnt + 1, inc := s.params.noteInc.getD note.toNat 0,
            state := .attack, env := 0 } } ∧
        v.range = s.viol.range ∧ v.acc = s.viol.acc ∧
        (v.doublePress = true ↔ s.viol.doublePress = true ∨ HeldUnreleased note s.voices) ∧
        (v.ageWrap = true ↔ s.viol.ageWrap = true ∨ s.ageCnt.toNat = 2 ^ 32 - 1)) ∧
    (s.faulted = false → s.params.numNotes ≤ note.toNat →
      exec (.press note) s = .next (faultedWith s 6#32 s.cmd))

/-- R366, R367: the word `0x0C000000 | NOTE`. `RELEASE` puts every voice holding the note into `RELEASE` and
changes nothing else; a note not below `NUM_NOTES` raises `BAD_NOTE` (code 6); a nonzero reserved field is illegal. -/
def Obligations.ReleaseReleasesEveryHolder : Prop :=
  IllegalRange 0x0C010000 0x0FFFFFFF ∧
  ∀ (s : State) (note : BitVec 16),
    decode (BitVec.ofNat 32 (0x0C000000 + note.toNat)) = .ok (.release note) ∧
    (note.toNat < s.params.numNotes →
      ∃ vs : List Voice, exec (.release note) s = .next { s with voices := vs } ∧
        vs.length = s.voices.length ∧
        ∀ (k : Nat) (old new : Voice), s.voices[k]? = some old → vs[k]? = some new →
          (old.note = note → new = { old with state := .release }) ∧ (old.note ≠ note → new = old)) ∧
    (s.faulted = false → s.params.numNotes ≤ note.toNat →
      exec (.release note) s = .next (faultedWith s 6#32 s.cmd))

/-- R365: from reset, pressing `V + 1` distinct notes reuses exactly voice 0, which then holds the newest note,
and breaks no precondition. -/
def Obligations.PressingOneNoteTooManyStealsVoiceZero : Prop :=
  ∀ (p : Params) (notes : List (BitVec 16)) (newest : BitVec 16), p.Valid → notes.length = p.voices →
    (notes ++ [newest]).Nodup → (∀ n ∈ notes ++ [newest], n.toNat < p.numNotes) →
    ∃ t, execAll ((notes ++ [newest]).map .press) (State.resetWith p) = .next t ∧
      t.voices.map Voice.note = notes.set 0 newest ∧ t.ageCnt.toNat = p.voices + 1 ∧ t.viol = Marks.empty

/-- R387, R388, R378, R379, R384: the word, with every other word of the opcode illegal, and what `SYNTH` writes.
Note, age and increment of a voice stay; its phase steps by the tuned increment modulo `ONE`; its noise state
takes one step of `NOISE_GEN` (R22: a parameter, log 5), which for the default generator is R384's; the marks of
the sample are added to `VIOL`, and no mark of a press; nothing else of the machine changes. -/
def Obligations.SynthAdvancesEveryVoice : Prop :=
  decode 0x10000000#32 = .ok .synth ∧ IllegalRange 0x10000001 0x13FFFFFF ∧
  ∀ s : State, ∃ (out : Word) (vs : List Voice) (v : Marks),
    exec .synth s = .next { s with synOut := out, voices := vs, viol := v } ∧
    vs.length = s.voices.length ∧
    v = s.viol.union (synthProcess s.snapshot s).marks ∧
    v.doublePress = s.viol.doublePress ∧ v.ageWrap = s.viol.ageWrap ∧
    ∀ (k : Nat) (old new : Voice), s.voices[k]? = some old → vs[k]? = some new →
      new.note = old.note ∧ new.age = old.age ∧ new.inc = old.inc ∧
      new.noise = (noiseNext s.params.noiseGen old.noise).1 ∧
      (s.params.noiseGen = .lcg → new.noise.toNat = (1664525 * old.noise.toNat + 1013904223) % 2 ^ 32) ∧
      ∃ q n : Int, IsFloor q (old.inc.toInt * s.tuning.toInt) (2 ^ 29) ∧
        new.phase.toInt = old.phase.toInt + q + n * 2 ^ 29 ∧ 0 ≤ new.phase.toInt ∧ new.phase.toInt < 2 ^ 29

/-- R381, R384, R385, R386: with no mark, the sample of every voice, in `LAST`, is the band-limited sample at the
new phase, plus its product with the noise word, floored, times the noise gain, floored; with no noise gain it is
the band-limited sample. The noise word is `NOISE_GEN`'s (R22: a parameter, log 5), for the default generator
R384's. -/
def Obligations.VoiceSampleIsTheTapSumWithNoise : Prop :=
  ∀ s : State, ∃ t, exec .synth s = .next t ∧
    (t.viol = Marks.empty → ∀ (k : Nat) (old new : Voice), s.voices[k]? = some old → t.voices[k]? = some new →
      let step : Int := old.inc.toInt * s.tuning.toInt / 2 ^ 29
      let osc : Int := exactOsc s.params.taps new.phase.toInt step s.shape.toInt
      let n : Word := (noiseNext s.params.noiseGen old.noise).2
      new.last.toInt = osc + osc * n.toInt / 2 ^ 29 * s.noiseGain.toInt / 2 ^ 29 ∧
      (s.noiseGain = 0 → new.last.toInt = osc) ∧
      (s.params.noiseGen = .lcg → IsFloor n.toInt new.noise.toInt 4))

/-- R387: with no mark, `SYN_OUT` is the sum over the voices of last sample times envelope, floored once. -/
def Obligations.SynthOutputIsTheVoiceSum : Prop :=
  ∀ s : State, ∃ t, exec .synth s = .next t ∧
    (t.viol = Marks.empty →
      IsFloor t.synOut.toInt ((t.voices.map fun v => v.last.toInt * v.env.toInt).sum) (2 ^ 29))

/-- R388, R603: an idle pool outputs 0 and stays idle. -/
def Obligations.IdlePoolOutputsZero : Prop :=
  ∀ s : State, 0 ≤ s.params.eps.toInt → PoolIdle s → ∃ t, exec .synth s = .next t ∧ t.synOut = 0 ∧ PoolIdle t

/-- R380: for a phase in `[0, ONE)` and a shape in `[0, ONE]` the waveform is the sawtooth `2·ph - 1` plus the
floored share of its distance to the square, marks nothing and stays in `[-ONE, ONE]`; shape 0 is the sawtooth
and shape `ONE` the square. -/
def Obligations.NaiveWaveformBlends : Prop :=
  ∀ ph shape : Word, 0 ≤ ph.toInt → ph.toInt < 2 ^ 29 → InUnit shape →
    let w := naive ph shape
    let saw : Int := 2 * ph.toInt - 2 ^ 29
    let sq : Int := if ph.toInt < 2 ^ 28 then 2 ^ 29 else -2 ^ 29
    w.marks = Marks.empty ∧ IsFloor (w.val.toInt - saw) ((sq - saw) * shape.toInt) (2 ^ 29) ∧
    -2 ^ 29 ≤ w.val.toInt ∧ w.val.toInt ≤ 2 ^ 29 ∧
    (shape = 0 → w.val.toInt = saw) ∧ (shape = 0x20000000#32 → w.val.toInt = sq)

/-- R382, R385, R386: with tap weights summing to at most `ONE` in magnitude, a shape in `[0, ONE]` and no
noise, every voice's sample is in `[-ONE, ONE]`. -/
def Obligations.OscillatorStaysInFullScale : Prop :=
  ∀ s : State, ((s.params.taps.map fun t => |t.weight.toInt|).sum ≤ 2 ^ 29) → InUnit s.shape →
    s.noiseGain = 0 → ∃ t, exec .synth s = .next t ∧
      ∀ v ∈ t.voices, -2 ^ 29 ≤ v.last.toInt ∧ v.last.toInt ≤ 2 ^ 29

/-- R370, R371: at each `SYNTH` every voice takes one tick of the row of its state: `ATTACK` toward `ONE`, `DECAY`
toward the sustain level, `RELEASE` toward 0 and with itself as the next state, each at its own rate; a voice in
`SUSTAIN` holds. After reset every voice is in `RELEASE`. -/
def Obligations.EnvelopeTicksByTheRowOfItsState : Prop :=
  (∀ p : Params, ∀ v ∈ (State.resetWith p).voices, v.state = .release) ∧
  ∀ s : State, ∃ t, exec .synth s = .next t ∧
    ∀ (k : Nat) (old new : Voice), s.voices[k]? = some old → t.voices[k]? = some new →
      let tick := fun tgt rate nxt => TicksToward tgt rate s.params.eps nxt (t.viol = Marks.empty) old new
      (old.state = .attack → tick 0x20000000#32 s.attackRate .decay) ∧
      (old.state = .decay → tick s.sustainLevel s.decayRate .sustain) ∧
      (old.state = .release → tick 0 s.releaseRate .release) ∧
      (old.state = .sustain → new.env = old.env ∧ new.state = .sustain)

/-- R371, R374: one tick of a voice in `ATTACK` under R373's condition: within `EPS` of `ONE` it snaps and enters
`DECAY`, else its envelope rises strictly and it stays in `ATTACK`. -/
def Obligations.AttackRisesThenSnaps : Prop :=
  ∀ (s : State) (k : Nat) (old : Voice), s.voices[k]? = some old → old.state = .attack → InUnit old.env →
    0 < s.attackRate.toInt → s.attackRate.toInt ≤ 2 ^ 29 →
    2 ^ 29 ≤ (s.params.eps.toInt + 1) * s.attackRate.toInt →
    ∃ t new, exec .synth s = .next t ∧ t.voices[k]? = some new ∧
      (2 ^ 29 - old.env.toInt ≤ s.params.eps.toInt → new.env.toInt = 2 ^ 29 ∧ new.state = .decay) ∧
      (s.params.eps.toInt < 2 ^ 29 - old.env.toInt →
        old.env.toInt < new.env.toInt ∧ new.env.toInt ≤ 2 ^ 29 ∧ new.state = .attack)

/-- R372: a voice in `RELEASE` with a non-negative envelope and a rate in `(0, ONE]` falls strictly at each `SYNTH`
until its envelope is exactly 0, within as many `SYNTH` commands as the envelope has units, and then stays at 0
in `RELEASE`, that is, free. With rate 0 an envelope above `EPS` stays. -/
def Obligations.ReleasedVoiceBecomesFree : Prop :=
  ∀ (s : State) (k : Nat) (old : Voice), s.voices[k]? = some old → old.state = .release → 0 ≤ old.env.toInt →
    0 ≤ s.params.eps.toInt →
    (∃ t new, exec .synth s = .next t ∧ t.voices[k]? = some new ∧ new.state = .release ∧
      (0 < s.releaseRate.toInt → s.releaseRate.toInt ≤ 2 ^ 29 → 0 < old.env.toInt →
        0 ≤ new.env.toInt ∧ new.env.toInt < old.env.toInt) ∧
      (old.env = 0 → new.env = 0) ∧
      (s.releaseRate = 0 → s.params.eps.toInt < old.env.toInt → new.env = old.env)) ∧
    (0 < s.releaseRate.toInt → s.releaseRate.toInt ≤ 2 ^ 29 →
      ∃ m ≤ old.env.toNat, ∀ n, m ≤ n → ∃ t new, execAll (List.replicate n .synth) s = .next t ∧
        t.voices[k]? = some new ∧ new.env = 0 ∧ new.state = .release)

/-- R370, R371, R389: with rates and sustain level in `[0, ONE]` every envelope stays in `[0, ONE]`, and the state
of a voice goes only `ATTACK` to `DECAY` to `SUSTAIN`, `RELEASE` staying. -/
def Obligations.EnvelopesStayInUnitRange : Prop :=
  ∀ s : State, InUnit s.attackRate → InUnit s.decayRate → InUnit s.sustainLevel → InUnit s.releaseRate →
    (∀ v ∈ s.voices, InUnit v.env) → ∃ t, exec .synth s = .next t ∧
      ∀ (k : Nat) (old new : Voice), s.voices[k]? = some old → t.voices[k]? = some new → InUnit new.env ∧
        (new.state = old.state ∨ (old.state = .attack ∧ new.state = .decay) ∨
          (old.state = .decay ∧ new.state = .sustain))

/-! ## SAMPLE -/

/-- R413: `SAMPLE` is `SYNTH`, then `VOCODE` with the carrier `SYN_OUT`, but for `CAR_IN`, which it leaves; and
as the host sees it, the actions `SYNTH`, `wr CAR_IN, SYN_OUT`, `VOCODE` leave the state that `SAMPLE` leaves,
but for `CAR_IN` and `CMD`. -/
def Obligations.SampleIsSynthThenVocode : Prop :=
  decode 0x18000000#32 = .ok .sample ∧ IllegalRange 0x18000001 0x1BFFFFFF ∧
  ∀ s : State,
    (∃ t u, exec .synth s = .next t ∧ exec .vocode { t with carIn := t.synOut } = .next u ∧
      exec .sample s = .next { u with carIn := s.carIn }) ∧
    (s.faulted = false → ∃ t u,
      step (s.loadActions [.wr 0x0000#16 0x10000000#32]) = .next t ∧
      hostRun s [.wr 0x0000#16 0x10000000#32, .wr 0x0019#16 t.synOut, .wr 0x0000#16 0x14000000#32] = .next u ∧
      hostRun s [.wr 0x0000#16 0x18000000#32] = .next { u with carIn := s.carIn, cmd := 0x18000000#32 })
end

