-- ==== Sys2Proof/Laws/State.lean ====
section
/-! SUPPORT. One lemma per field per update of State, true by rfl. -/

namespace Sys2Proof.Machine

open Sys2Proof

/-! `State.addMarks` -/

@[simp] theorem State.addMarks_params (s : State) (m : Marks) : (s.addMarks m).params = s.params := rfl
@[simp] theorem State.addMarks_pending (s : State) (m : Marks) : (s.addMarks m).pending = s.pending := rfl
@[simp] theorem State.addMarks_observed (s : State) (m : Marks) : (s.addMarks m).observed = s.observed := rfl
@[simp] theorem State.addMarks_cmd (s : State) (m : Marks) : (s.addMarks m).cmd = s.cmd := rfl
@[simp] theorem State.addMarks_status (s : State) (m : Marks) : (s.addMarks m).status = s.status := rfl
@[simp] theorem State.addMarks_faultCode (s : State) (m : Marks) : (s.addMarks m).faultCode = s.faultCode := rfl
@[simp] theorem State.addMarks_faultInfo (s : State) (m : Marks) : (s.addMarks m).faultInfo = s.faultInfo := rfl
@[simp] theorem State.addMarks_ctrl (s : State) (m : Marks) : (s.addMarks m).ctrl = s.ctrl := rfl
@[simp] theorem State.addMarks_ageCnt (s : State) (m : Marks) : (s.addMarks m).ageCnt = s.ageCnt := rfl
@[simp] theorem State.addMarks_a (s : State) (m : Marks) : (s.addMarks m).a = s.a := rfl
@[simp] theorem State.addMarks_b (s : State) (m : Marks) : (s.addMarks m).b = s.b := rfl
@[simp] theorem State.addMarks_y (s : State) (m : Marks) : (s.addMarks m).y = s.y := rfl
@[simp] theorem State.addMarks_acc (s : State) (m : Marks) : (s.addMarks m).acc = s.acc := rfl
@[simp] theorem State.addMarks_f (s : State) (m : Marks) : (s.addMarks m).f = s.f := rfl
@[simp] theorem State.addMarks_g (s : State) (m : Marks) : (s.addMarks m).g = s.g := rfl
@[simp] theorem State.addMarks_modIn (s : State) (m : Marks) : (s.addMarks m).modIn = s.modIn := rfl
@[simp] theorem State.addMarks_carIn (s : State) (m : Marks) : (s.addMarks m).carIn = s.carIn := rfl
@[simp] theorem State.addMarks_synOut (s : State) (m : Marks) : (s.addMarks m).synOut = s.synOut := rfl
@[simp] theorem State.addMarks_vocOut (s : State) (m : Marks) : (s.addMarks m).vocOut = s.vocOut := rfl
@[simp] theorem State.addMarks_attackRate (s : State) (m : Marks) : (s.addMarks m).attackRate = s.attackRate := rfl
@[simp] theorem State.addMarks_decayRate (s : State) (m : Marks) : (s.addMarks m).decayRate = s.decayRate := rfl
@[simp] theorem State.addMarks_sustainLevel (s : State) (m : Marks) : (s.addMarks m).sustainLevel = s.sustainLevel := rfl
@[simp] theorem State.addMarks_releaseRate (s : State) (m : Marks) : (s.addMarks m).releaseRate = s.releaseRate := rfl
@[simp] theorem State.addMarks_outputGain (s : State) (m : Marks) : (s.addMarks m).outputGain = s.outputGain := rfl
@[simp] theorem State.addMarks_noiseGain (s : State) (m : Marks) : (s.addMarks m).noiseGain = s.noiseGain := rfl
@[simp] theorem State.addMarks_tuning (s : State) (m : Marks) : (s.addMarks m).tuning = s.tuning := rfl
@[simp] theorem State.addMarks_shape (s : State) (m : Marks) : (s.addMarks m).shape = s.shape := rfl
@[simp] theorem State.addMarks_fTop (s : State) (m : Marks) : (s.addMarks m).fTop = s.fTop := rfl
@[simp] theorem State.addMarks_modS (s : State) (m : Marks) : (s.addMarks m).modS = s.modS := rfl
@[simp] theorem State.addMarks_carS (s : State) (m : Marks) : (s.addMarks m).carS = s.carS := rfl
@[simp] theorem State.addMarks_gm (s : State) (m : Marks) : (s.addMarks m).gm = s.gm := rfl
@[simp] theorem State.addMarks_go (s : State) (m : Marks) : (s.addMarks m).go = s.go := rfl
@[simp] theorem State.addMarks_bands (s : State) (m : Marks) : (s.addMarks m).bands = s.bands := rfl
@[simp] theorem State.addMarks_voices (s : State) (m : Marks) : (s.addMarks m).voices = s.voices := rfl
@[simp] theorem State.addMarks_viol (s : State) (m : Marks) : (s.addMarks m).viol = s.viol.union m := rfl

/-! `State.writeY` -/

@[simp] theorem State.writeY_params (s : State) (r : Marked Word) : (s.writeY r).params = s.params := rfl
@[simp] theorem State.writeY_pending (s : State) (r : Marked Word) : (s.writeY r).pending = s.pending := rfl
@[simp] theorem State.writeY_observed (s : State) (r : Marked Word) : (s.writeY r).observed = s.observed := rfl
@[simp] theorem State.writeY_cmd (s : State) (r : Marked Word) : (s.writeY r).cmd = s.cmd := rfl
@[simp] theorem State.writeY_status (s : State) (r : Marked Word) : (s.writeY r).status = s.status := rfl
@[simp] theorem State.writeY_faultCode (s : State) (r : Marked Word) : (s.writeY r).faultCode = s.faultCode := rfl
@[simp] theorem State.writeY_faultInfo (s : State) (r : Marked Word) : (s.writeY r).faultInfo = s.faultInfo := rfl
@[simp] theorem State.writeY_ctrl (s : State) (r : Marked Word) : (s.writeY r).ctrl = s.ctrl := rfl
@[simp] theorem State.writeY_ageCnt (s : State) (r : Marked Word) : (s.writeY r).ageCnt = s.ageCnt := rfl
@[simp] theorem State.writeY_a (s : State) (r : Marked Word) : (s.writeY r).a = s.a := rfl
@[simp] theorem State.writeY_b (s : State) (r : Marked Word) : (s.writeY r).b = s.b := rfl
@[simp] theorem State.writeY_y (s : State) (r : Marked Word) : (s.writeY r).y = r.val := rfl
@[simp] theorem State.writeY_acc (s : State) (r : Marked Word) : (s.writeY r).acc = s.acc := rfl
@[simp] theorem State.writeY_f (s : State) (r : Marked Word) : (s.writeY r).f = s.f := rfl
@[simp] theorem State.writeY_g (s : State) (r : Marked Word) : (s.writeY r).g = s.g := rfl
@[simp] theorem State.writeY_modIn (s : State) (r : Marked Word) : (s.writeY r).modIn = s.modIn := rfl
@[simp] theorem State.writeY_carIn (s : State) (r : Marked Word) : (s.writeY r).carIn = s.carIn := rfl
@[simp] theorem State.writeY_synOut (s : State) (r : Marked Word) : (s.writeY r).synOut = s.synOut := rfl
@[simp] theorem State.writeY_vocOut (s : State) (r : Marked Word) : (s.writeY r).vocOut = s.vocOut := rfl
@[simp] theorem State.writeY_attackRate (s : State) (r : Marked Word) : (s.writeY r).attackRate = s.attackRate := rfl
@[simp] theorem State.writeY_decayRate (s : State) (r : Marked Word) : (s.writeY r).decayRate = s.decayRate := rfl
@[simp] theorem State.writeY_sustainLevel (s : State) (r : Marked Word) : (s.writeY r).sustainLevel = s.sustainLevel := rfl
@[simp] theorem State.writeY_releaseRate (s : State) (r : Marked Word) : (s.writeY r).releaseRate = s.releaseRate := rfl
@[simp] theorem State.writeY_outputGain (s : State) (r : Marked Word) : (s.writeY r).outputGain = s.outputGain := rfl
@[simp] theorem State.writeY_noiseGain (s : State) (r : Marked Word) : (s.writeY r).noiseGain = s.noiseGain := rfl
@[simp] theorem State.writeY_tuning (s : State) (r : Marked Word) : (s.writeY r).tuning = s.tuning := rfl
@[simp] theorem State.writeY_shape (s : State) (r : Marked Word) : (s.writeY r).shape = s.shape := rfl
@[simp] theorem State.writeY_fTop (s : State) (r : Marked Word) : (s.writeY r).fTop = s.fTop := rfl
@[simp] theorem State.writeY_modS (s : State) (r : Marked Word) : (s.writeY r).modS = s.modS := rfl
@[simp] theorem State.writeY_carS (s : State) (r : Marked Word) : (s.writeY r).carS = s.carS := rfl
@[simp] theorem State.writeY_gm (s : State) (r : Marked Word) : (s.writeY r).gm = s.gm := rfl
@[simp] theorem State.writeY_go (s : State) (r : Marked Word) : (s.writeY r).go = s.go := rfl
@[simp] theorem State.writeY_bands (s : State) (r : Marked Word) : (s.writeY r).bands = s.bands := rfl
@[simp] theorem State.writeY_voices (s : State) (r : Marked Word) : (s.writeY r).voices = s.voices := rfl
@[simp] theorem State.writeY_viol (s : State) (r : Marked Word) : (s.writeY r).viol = s.viol.union r.marks := rfl

/-! `State.writeAcc` -/

@[simp] theorem State.writeAcc_params (s : State) (r : Marked Wide) : (s.writeAcc r).params = s.params := rfl
@[simp] theorem State.writeAcc_pending (s : State) (r : Marked Wide) : (s.writeAcc r).pending = s.pending := rfl
@[simp] theorem State.writeAcc_observed (s : State) (r : Marked Wide) : (s.writeAcc r).observed = s.observed := rfl
@[simp] theorem State.writeAcc_cmd (s : State) (r : Marked Wide) : (s.writeAcc r).cmd = s.cmd := rfl
@[simp] theorem State.writeAcc_status (s : State) (r : Marked Wide) : (s.writeAcc r).status = s.status := rfl
@[simp] theorem State.writeAcc_faultCode (s : State) (r : Marked Wide) : (s.writeAcc r).faultCode = s.faultCode := rfl
@[simp] theorem State.writeAcc_faultInfo (s : State) (r : Marked Wide) : (s.writeAcc r).faultInfo = s.faultInfo := rfl
@[simp] theorem State.writeAcc_ctrl (s : State) (r : Marked Wide) : (s.writeAcc r).ctrl = s.ctrl := rfl
@[simp] theorem State.writeAcc_ageCnt (s : State) (r : Marked Wide) : (s.writeAcc r).ageCnt = s.ageCnt := rfl
@[simp] theorem State.writeAcc_a (s : State) (r : Marked Wide) : (s.writeAcc r).a = s.a := rfl
@[simp] theorem State.writeAcc_b (s : State) (r : Marked Wide) : (s.writeAcc r).b = s.b := rfl
@[simp] theorem State.writeAcc_y (s : State) (r : Marked Wide) : (s.writeAcc r).y = s.y := rfl
@[simp] theorem State.writeAcc_acc (s : State) (r : Marked Wide) : (s.writeAcc r).acc = r.val := rfl
@[simp] theorem State.writeAcc_f (s : State) (r : Marked Wide) : (s.writeAcc r).f = s.f := rfl
@[simp] theorem State.writeAcc_g (s : State) (r : Marked Wide) : (s.writeAcc r).g = s.g := rfl
@[simp] theorem State.writeAcc_modIn (s : State) (r : Marked Wide) : (s.writeAcc r).modIn = s.modIn := rfl
@[simp] theorem State.writeAcc_carIn (s : State) (r : Marked Wide) : (s.writeAcc r).carIn = s.carIn := rfl
@[simp] theorem State.writeAcc_synOut (s : State) (r : Marked Wide) : (s.writeAcc r).synOut = s.synOut := rfl
@[simp] theorem State.writeAcc_vocOut (s : State) (r : Marked Wide) : (s.writeAcc r).vocOut = s.vocOut := rfl
@[simp] theorem State.writeAcc_attackRate (s : State) (r : Marked Wide) : (s.writeAcc r).attackRate = s.attackRate := rfl
@[simp] theorem State.writeAcc_decayRate (s : State) (r : Marked Wide) : (s.writeAcc r).decayRate = s.decayRate := rfl
@[simp] theorem State.writeAcc_sustainLevel (s : State) (r : Marked Wide) : (s.writeAcc r).sustainLevel = s.sustainLevel := rfl
@[simp] theorem State.writeAcc_releaseRate (s : State) (r : Marked Wide) : (s.writeAcc r).releaseRate = s.releaseRate := rfl
@[simp] theorem State.writeAcc_outputGain (s : State) (r : Marked Wide) : (s.writeAcc r).outputGain = s.outputGain := rfl
@[simp] theorem State.writeAcc_noiseGain (s : State) (r : Marked Wide) : (s.writeAcc r).noiseGain = s.noiseGain := rfl
@[simp] theorem State.writeAcc_tuning (s : State) (r : Marked Wide) : (s.writeAcc r).tuning = s.tuning := rfl
@[simp] theorem State.writeAcc_shape (s : State) (r : Marked Wide) : (s.writeAcc r).shape = s.shape := rfl
@[simp] theorem State.writeAcc_fTop (s : State) (r : Marked Wide) : (s.writeAcc r).fTop = s.fTop := rfl
@[simp] theorem State.writeAcc_modS (s : State) (r : Marked Wide) : (s.writeAcc r).modS = s.modS := rfl
@[simp] theorem State.writeAcc_carS (s : State) (r : Marked Wide) : (s.writeAcc r).carS = s.carS := rfl
@[simp] theorem State.writeAcc_gm (s : State) (r : Marked Wide) : (s.writeAcc r).gm = s.gm := rfl
@[simp] theorem State.writeAcc_go (s : State) (r : Marked Wide) : (s.writeAcc r).go = s.go := rfl
@[simp] theorem State.writeAcc_bands (s : State) (r : Marked Wide) : (s.writeAcc r).bands = s.bands := rfl
@[simp] theorem State.writeAcc_voices (s : State) (r : Marked Wide) : (s.writeAcc r).voices = s.voices := rfl
@[simp] theorem State.writeAcc_viol (s : State) (r : Marked Wide) : (s.writeAcc r).viol = s.viol.union r.marks := rfl

/-! `State.modifyBand` -/

@[simp] theorem State.modifyBand_params (s : State) (n : Nat) (k : Band → Band) : (s.modifyBand n k).params = s.params := rfl
@[simp] theorem State.modifyBand_pending (s : State) (n : Nat) (k : Band → Band) : (s.modifyBand n k).pending = s.pending := rfl
@[simp] theorem State.modifyBand_observed (s : State) (n : Nat) (k : Band → Band) : (s.modifyBand n k).observed = s.observed := rfl
@[simp] theorem State.modifyBand_cmd (s : State) (n : Nat) (k : Band → Band) : (s.modifyBand n k).cmd = s.cmd := rfl
@[simp] theorem State.modifyBand_status (s : State) (n : Nat) (k : Band → Band) : (s.modifyBand n k).status = s.status := rfl
@[simp] theorem State.modifyBand_faultCode (s : State) (n : Nat) (k : Band → Band) : (s.modifyBand n k).faultCode = s.faultCode := rfl
@[simp] theorem State.modifyBand_faultInfo (s : State) (n : Nat) (k : Band → Band) : (s.modifyBand n k).faultInfo = s.faultInfo := rfl
@[simp] theorem State.modifyBand_ctrl (s : State) (n : Nat) (k : Band → Band) : (s.modifyBand n k).ctrl = s.ctrl := rfl
@[simp] theorem State.modifyBand_ageCnt (s : State) (n : Nat) (k : Band → Band) : (s.modifyBand n k).ageCnt = s.ageCnt := rfl
@[simp] theorem State.modifyBand_a (s : State) (n : Nat) (k : Band → Band) : (s.modifyBand n k).a = s.a := rfl
@[simp] theorem State.modifyBand_b (s : State) (n : Nat) (k : Band → Band) : (s.modifyBand n k).b = s.b := rfl
@[simp] theorem State.modifyBand_y (s : State) (n : Nat) (k : Band → Band) : (s.modifyBand n k).y = s.y := rfl
@[simp] theorem State.modifyBand_acc (s : State) (n : Nat) (k : Band → Band) : (s.modifyBand n k).acc = s.acc := rfl
@[simp] theorem State.modifyBand_f (s : State) (n : Nat) (k : Band → Band) : (s.modifyBand n k).f = s.f := rfl
@[simp] theorem State.modifyBand_g (s : State) (n : Nat) (k : Band → Band) : (s.modifyBand n k).g = s.g := rfl
@[simp] theorem State.modifyBand_modIn (s : State) (n : Nat) (k : Band → Band) : (s.modifyBand n k).modIn = s.modIn := rfl
@[simp] theorem State.modifyBand_carIn (s : State) (n : Nat) (k : Band → Band) : (s.modifyBand n k).carIn = s.carIn := rfl
@[simp] theorem State.modifyBand_synOut (s : State) (n : Nat) (k : Band → Band) : (s.modifyBand n k).synOut = s.synOut := rfl
@[simp] theorem State.modifyBand_vocOut (s : State) (n : Nat) (k : Band → Band) : (s.modifyBand n k).vocOut = s.vocOut := rfl
@[simp] theorem State.modifyBand_attackRate (s : State) (n : Nat) (k : Band → Band) : (s.modifyBand n k).attackRate = s.attackRate := rfl
@[simp] theorem State.modifyBand_decayRate (s : State) (n : Nat) (k : Band → Band) : (s.modifyBand n k).decayRate = s.decayRate := rfl
@[simp] theorem State.modifyBand_sustainLevel (s : State) (n : Nat) (k : Band → Band) : (s.modifyBand n k).sustainLevel = s.sustainLevel := rfl
@[simp] theorem State.modifyBand_releaseRate (s : State) (n : Nat) (k : Band → Band) : (s.modifyBand n k).releaseRate = s.releaseRate := rfl
@[simp] theorem State.modifyBand_outputGain (s : State) (n : Nat) (k : Band → Band) : (s.modifyBand n k).outputGain = s.outputGain := rfl
@[simp] theorem State.modifyBand_noiseGain (s : State) (n : Nat) (k : Band → Band) : (s.modifyBand n k).noiseGain = s.noiseGain := rfl
@[simp] theorem State.modifyBand_tuning (s : State) (n : Nat) (k : Band → Band) : (s.modifyBand n k).tuning = s.tuning := rfl
@[simp] theorem State.modifyBand_shape (s : State) (n : Nat) (k : Band → Band) : (s.modifyBand n k).shape = s.shape := rfl
@[simp] theorem State.modifyBand_fTop (s : State) (n : Nat) (k : Band → Band) : (s.modifyBand n k).fTop = s.fTop := rfl
@[simp] theorem State.modifyBand_modS (s : State) (n : Nat) (k : Band → Band) : (s.modifyBand n k).modS = s.modS := rfl
@[simp] theorem State.modifyBand_carS (s : State) (n : Nat) (k : Band → Band) : (s.modifyBand n k).carS = s.carS := rfl
@[simp] theorem State.modifyBand_gm (s : State) (n : Nat) (k : Band → Band) : (s.modifyBand n k).gm = s.gm := rfl
@[simp] theorem State.modifyBand_go (s : State) (n : Nat) (k : Band → Band) : (s.modifyBand n k).go = s.go := rfl
@[simp] theorem State.modifyBand_bands (s : State) (n : Nat) (k : Band → Band) : (s.modifyBand n k).bands = s.bands.modify n k := rfl
@[simp] theorem State.modifyBand_voices (s : State) (n : Nat) (k : Band → Band) : (s.modifyBand n k).voices = s.voices := rfl
@[simp] theorem State.modifyBand_viol (s : State) (n : Nat) (k : Band → Band) : (s.modifyBand n k).viol = s.viol := rfl

/-! `State.writeVoc` -/

@[simp] theorem State.writeVoc_params (s : State) (r : Marked VocOut) : (s.writeVoc r).params = s.params := rfl
@[simp] theorem State.writeVoc_pending (s : State) (r : Marked VocOut) : (s.writeVoc r).pending = s.pending := rfl
@[simp] theorem State.writeVoc_observed (s : State) (r : Marked VocOut) : (s.writeVoc r).observed = s.observed := rfl
@[simp] theorem State.writeVoc_cmd (s : State) (r : Marked VocOut) : (s.writeVoc r).cmd = s.cmd := rfl
@[simp] theorem State.writeVoc_status (s : State) (r : Marked VocOut) : (s.writeVoc r).status = s.status := rfl
@[simp] theorem State.writeVoc_faultCode (s : State) (r : Marked VocOut) : (s.writeVoc r).faultCode = s.faultCode := rfl
@[simp] theorem State.writeVoc_faultInfo (s : State) (r : Marked VocOut) : (s.writeVoc r).faultInfo = s.faultInfo := rfl
@[simp] theorem State.writeVoc_ctrl (s : State) (r : Marked VocOut) : (s.writeVoc r).ctrl = s.ctrl := rfl
@[simp] theorem State.writeVoc_ageCnt (s : State) (r : Marked VocOut) : (s.writeVoc r).ageCnt = s.ageCnt := rfl
@[simp] theorem State.writeVoc_a (s : State) (r : Marked VocOut) : (s.writeVoc r).a = s.a := rfl
@[simp] theorem State.writeVoc_b (s : State) (r : Marked VocOut) : (s.writeVoc r).b = s.b := rfl
@[simp] theorem State.writeVoc_y (s : State) (r : Marked VocOut) : (s.writeVoc r).y = s.y := rfl
@[simp] theorem State.writeVoc_acc (s : State) (r : Marked VocOut) : (s.writeVoc r).acc = s.acc := rfl
@[simp] theorem State.writeVoc_f (s : State) (r : Marked VocOut) : (s.writeVoc r).f = s.f := rfl
@[simp] theorem State.writeVoc_g (s : State) (r : Marked VocOut) : (s.writeVoc r).g = s.g := rfl
@[simp] theorem State.writeVoc_modIn (s : State) (r : Marked VocOut) : (s.writeVoc r).modIn = s.modIn := rfl
@[simp] theorem State.writeVoc_carIn (s : State) (r : Marked VocOut) : (s.writeVoc r).carIn = s.carIn := rfl
@[simp] theorem State.writeVoc_synOut (s : State) (r : Marked VocOut) : (s.writeVoc r).synOut = s.synOut := rfl
@[simp] theorem State.writeVoc_vocOut (s : State) (r : Marked VocOut) : (s.writeVoc r).vocOut = r.val.out := rfl
@[simp] theorem State.writeVoc_attackRate (s : State) (r : Marked VocOut) : (s.writeVoc r).attackRate = s.attackRate := rfl
@[simp] theorem State.writeVoc_decayRate (s : State) (r : Marked VocOut) : (s.writeVoc r).decayRate = s.decayRate := rfl
@[simp] theorem State.writeVoc_sustainLevel (s : State) (r : Marked VocOut) : (s.writeVoc r).sustainLevel = s.sustainLevel := rfl
@[simp] theorem State.writeVoc_releaseRate (s : State) (r : Marked VocOut) : (s.writeVoc r).releaseRate = s.releaseRate := rfl
@[simp] theorem State.writeVoc_outputGain (s : State) (r : Marked VocOut) : (s.writeVoc r).outputGain = s.outputGain := rfl
@[simp] theorem State.writeVoc_noiseGain (s : State) (r : Marked VocOut) : (s.writeVoc r).noiseGain = s.noiseGain := rfl
@[simp] theorem State.writeVoc_tuning (s : State) (r : Marked VocOut) : (s.writeVoc r).tuning = s.tuning := rfl
@[simp] theorem State.writeVoc_shape (s : State) (r : Marked VocOut) : (s.writeVoc r).shape = s.shape := rfl
@[simp] theorem State.writeVoc_fTop (s : State) (r : Marked VocOut) : (s.writeVoc r).fTop = s.fTop := rfl
@[simp] theorem State.writeVoc_modS (s : State) (r : Marked VocOut) : (s.writeVoc r).modS = r.val.modS := rfl
@[simp] theorem State.writeVoc_carS (s : State) (r : Marked VocOut) : (s.writeVoc r).carS = r.val.carS := rfl
@[simp] theorem State.writeVoc_gm (s : State) (r : Marked VocOut) : (s.writeVoc r).gm = r.val.gm := rfl
@[simp] theorem State.writeVoc_go (s : State) (r : Marked VocOut) : (s.writeVoc r).go = r.val.go := rfl
@[simp] theorem State.writeVoc_bands (s : State) (r : Marked VocOut) : (s.writeVoc r).bands = r.val.bands := rfl
@[simp] theorem State.writeVoc_voices (s : State) (r : Marked VocOut) : (s.writeVoc r).voices = s.voices := rfl
@[simp] theorem State.writeVoc_viol (s : State) (r : Marked VocOut) : (s.writeVoc r).viol = s.viol.union r.marks := rfl

/-! `State.writeSyn` -/

@[simp] theorem State.writeSyn_params (s : State) (r : Marked SynOut) : (s.writeSyn r).params = s.params := rfl
@[simp] theorem State.writeSyn_pending (s : State) (r : Marked SynOut) : (s.writeSyn r).pending = s.pending := rfl
@[simp] theorem State.writeSyn_observed (s : State) (r : Marked SynOut) : (s.writeSyn r).observed = s.observed := rfl
@[simp] theorem State.writeSyn_cmd (s : State) (r : Marked SynOut) : (s.writeSyn r).cmd = s.cmd := rfl
@[simp] theorem State.writeSyn_status (s : State) (r : Marked SynOut) : (s.writeSyn r).status = s.status := rfl
@[simp] theorem State.writeSyn_faultCode (s : State) (r : Marked SynOut) : (s.writeSyn r).faultCode = s.faultCode := rfl
@[simp] theorem State.writeSyn_faultInfo (s : State) (r : Marked SynOut) : (s.writeSyn r).faultInfo = s.faultInfo := rfl
@[simp] theorem State.writeSyn_ctrl (s : State) (r : Marked SynOut) : (s.writeSyn r).ctrl = s.ctrl := rfl
@[simp] theorem State.writeSyn_ageCnt (s : State) (r : Marked SynOut) : (s.writeSyn r).ageCnt = s.ageCnt := rfl
@[simp] theorem State.writeSyn_a (s : State) (r : Marked SynOut) : (s.writeSyn r).a = s.a := rfl
@[simp] theorem State.writeSyn_b (s : State) (r : Marked SynOut) : (s.writeSyn r).b = s.b := rfl
@[simp] theorem State.writeSyn_y (s : State) (r : Marked SynOut) : (s.writeSyn r).y = s.y := rfl
@[simp] theorem State.writeSyn_acc (s : State) (r : Marked SynOut) : (s.writeSyn r).acc = s.acc := rfl
@[simp] theorem State.writeSyn_f (s : State) (r : Marked SynOut) : (s.writeSyn r).f = s.f := rfl
@[simp] theorem State.writeSyn_g (s : State) (r : Marked SynOut) : (s.writeSyn r).g = s.g := rfl
@[simp] theorem State.writeSyn_modIn (s : State) (r : Marked SynOut) : (s.writeSyn r).modIn = s.modIn := rfl
@[simp] theorem State.writeSyn_carIn (s : State) (r : Marked SynOut) : (s.writeSyn r).carIn = s.carIn := rfl
@[simp] theorem State.writeSyn_synOut (s : State) (r : Marked SynOut) : (s.writeSyn r).synOut = r.val.out := rfl
@[simp] theorem State.writeSyn_vocOut (s : State) (r : Marked SynOut) : (s.writeSyn r).vocOut = s.vocOut := rfl
@[simp] theorem State.writeSyn_attackRate (s : State) (r : Marked SynOut) : (s.writeSyn r).attackRate = s.attackRate := rfl
@[simp] theorem State.writeSyn_decayRate (s : State) (r : Marked SynOut) : (s.writeSyn r).decayRate = s.decayRate := rfl
@[simp] theorem State.writeSyn_sustainLevel (s : State) (r : Marked SynOut) : (s.writeSyn r).sustainLevel = s.sustainLevel := rfl
@[simp] theorem State.writeSyn_releaseRate (s : State) (r : Marked SynOut) : (s.writeSyn r).releaseRate = s.releaseRate := rfl
@[simp] theorem State.writeSyn_outputGain (s : State) (r : Marked SynOut) : (s.writeSyn r).outputGain = s.outputGain := rfl
@[simp] theorem State.writeSyn_noiseGain (s : State) (r : Marked SynOut) : (s.writeSyn r).noiseGain = s.noiseGain := rfl
@[simp] theorem State.writeSyn_tuning (s : State) (r : Marked SynOut) : (s.writeSyn r).tuning = s.tuning := rfl
@[simp] theorem State.writeSyn_shape (s : State) (r : Marked SynOut) : (s.writeSyn r).shape = s.shape := rfl
@[simp] theorem State.writeSyn_fTop (s : State) (r : Marked SynOut) : (s.writeSyn r).fTop = s.fTop := rfl
@[simp] theorem State.writeSyn_modS (s : State) (r : Marked SynOut) : (s.writeSyn r).modS = s.modS := rfl
@[simp] theorem State.writeSyn_carS (s : State) (r : Marked SynOut) : (s.writeSyn r).carS = s.carS := rfl
@[simp] theorem State.writeSyn_gm (s : State) (r : Marked SynOut) : (s.writeSyn r).gm = s.gm := rfl
@[simp] theorem State.writeSyn_go (s : State) (r : Marked SynOut) : (s.writeSyn r).go = s.go := rfl
@[simp] theorem State.writeSyn_bands (s : State) (r : Marked SynOut) : (s.writeSyn r).bands = s.bands := rfl
@[simp] theorem State.writeSyn_voices (s : State) (r : Marked SynOut) : (s.writeSyn r).voices = r.val.voices := rfl
@[simp] theorem State.writeSyn_viol (s : State) (r : Marked SynOut) : (s.writeSyn r).viol = s.viol.union r.marks := rfl

/-! `State.doReset` -/

@[simp] theorem State.doReset_params (s : State) : (s.doReset).params = s.params := rfl
@[simp] theorem State.doReset_pending (s : State) : (s.doReset).pending = s.pending := rfl
@[simp] theorem State.doReset_observed (s : State) : (s.doReset).observed = s.observed := rfl
@[simp] theorem State.doReset_cmd (s : State) : (s.doReset).cmd = (State.resetWith s.params).cmd := rfl
@[simp] theorem State.doReset_status (s : State) : (s.doReset).status = (State.resetWith s.params).status := rfl
@[simp] theorem State.doReset_faultCode (s : State) : (s.doReset).faultCode = (State.resetWith s.params).faultCode := rfl
@[simp] theorem State.doReset_faultInfo (s : State) : (s.doReset).faultInfo = (State.resetWith s.params).faultInfo := rfl
@[simp] theorem State.doReset_ctrl (s : State) : (s.doReset).ctrl = (State.resetWith s.params).ctrl := rfl
@[simp] theorem State.doReset_ageCnt (s : State) : (s.doReset).ageCnt = (State.resetWith s.params).ageCnt := rfl
@[simp] theorem State.doReset_a (s : State) : (s.doReset).a = (State.resetWith s.params).a := rfl
@[simp] theorem State.doReset_b (s : State) : (s.doReset).b = (State.resetWith s.params).b := rfl
@[simp] theorem State.doReset_y (s : State) : (s.doReset).y = (State.resetWith s.params).y := rfl
@[simp] theorem State.doReset_acc (s : State) : (s.doReset).acc = (State.resetWith s.params).acc := rfl
@[simp] theorem State.doReset_f (s : State) : (s.doReset).f = (State.resetWith s.params).f := rfl
@[simp] theorem State.doReset_g (s : State) : (s.doReset).g = (State.resetWith s.params).g := rfl
@[simp] theorem State.doReset_modIn (s : State) : (s.doReset).modIn = (State.resetWith s.params).modIn := rfl
@[simp] theorem State.doReset_carIn (s : State) : (s.doReset).carIn = (State.resetWith s.params).carIn := rfl
@[simp] theorem State.doReset_synOut (s : State) : (s.doReset).synOut = (State.resetWith s.params).synOut := rfl
@[simp] theorem State.doReset_vocOut (s : State) : (s.doReset).vocOut = (State.resetWith s.params).vocOut := rfl
@[simp] theorem State.doReset_attackRate (s : State) : (s.doReset).attackRate = (State.resetWith s.params).attackRate := rfl
@[simp] theorem State.doReset_decayRate (s : State) : (s.doReset).decayRate = (State.resetWith s.params).decayRate := rfl
@[simp] theorem State.doReset_sustainLevel (s : State) : (s.doReset).sustainLevel = (State.resetWith s.params).sustainLevel := rfl
@[simp] theorem State.doReset_releaseRate (s : State) : (s.doReset).releaseRate = (State.resetWith s.params).releaseRate := rfl
@[simp] theorem State.doReset_outputGain (s : State) : (s.doReset).outputGain = (State.resetWith s.params).outputGain := rfl
@[simp] theorem State.doReset_noiseGain (s : State) : (s.doReset).noiseGain = (State.resetWith s.params).noiseGain := rfl
@[simp] theorem State.doReset_tuning (s : State) : (s.doReset).tuning = (State.resetWith s.params).tuning := rfl
@[simp] theorem State.doReset_shape (s : State) : (s.doReset).shape = (State.resetWith s.params).shape := rfl
@[simp] theorem State.doReset_fTop (s : State) : (s.doReset).fTop = (State.resetWith s.params).fTop := rfl
@[simp] theorem State.doReset_modS (s : State) : (s.doReset).modS = (State.resetWith s.params).modS := rfl
@[simp] theorem State.doReset_carS (s : State) : (s.doReset).carS = (State.resetWith s.params).carS := rfl
@[simp] theorem State.doReset_gm (s : State) : (s.doReset).gm = (State.resetWith s.params).gm := rfl
@[simp] theorem State.doReset_go (s : State) : (s.doReset).go = (State.resetWith s.params).go := rfl
@[simp] theorem State.doReset_bands (s : State) : (s.doReset).bands = (State.resetWith s.params).bands := rfl
@[simp] theorem State.doReset_voices (s : State) : (s.doReset).voices = (State.resetWith s.params).voices := rfl
@[simp] theorem State.doReset_viol (s : State) : (s.doReset).viol = s.viol := rfl

/-! `State.placeCommand` -/

@[simp] theorem State.placeCommand_params (s : State) (w : Word) : (s.placeCommand w).params = s.params := rfl
@[simp] theorem State.placeCommand_pending (s : State) (w : Word) : (s.placeCommand w).pending = .wr cmdAddr w :: s.pending := rfl
@[simp] theorem State.placeCommand_observed (s : State) (w : Word) : (s.placeCommand w).observed = s.observed := rfl
@[simp] theorem State.placeCommand_cmd (s : State) (w : Word) : (s.placeCommand w).cmd = s.cmd := rfl
@[simp] theorem State.placeCommand_status (s : State) (w : Word) : (s.placeCommand w).status = s.status := rfl
@[simp] theorem State.placeCommand_faultCode (s : State) (w : Word) : (s.placeCommand w).faultCode = s.faultCode := rfl
@[simp] theorem State.placeCommand_faultInfo (s : State) (w : Word) : (s.placeCommand w).faultInfo = s.faultInfo := rfl
@[simp] theorem State.placeCommand_ctrl (s : State) (w : Word) : (s.placeCommand w).ctrl = s.ctrl := rfl
@[simp] theorem State.placeCommand_ageCnt (s : State) (w : Word) : (s.placeCommand w).ageCnt = s.ageCnt := rfl
@[simp] theorem State.placeCommand_a (s : State) (w : Word) : (s.placeCommand w).a = s.a := rfl
@[simp] theorem State.placeCommand_b (s : State) (w : Word) : (s.placeCommand w).b = s.b := rfl
@[simp] theorem State.placeCommand_y (s : State) (w : Word) : (s.placeCommand w).y = s.y := rfl
@[simp] theorem State.placeCommand_acc (s : State) (w : Word) : (s.placeCommand w).acc = s.acc := rfl
@[simp] theorem State.placeCommand_f (s : State) (w : Word) : (s.placeCommand w).f = s.f := rfl
@[simp] theorem State.placeCommand_g (s : State) (w : Word) : (s.placeCommand w).g = s.g := rfl
@[simp] theorem State.placeCommand_modIn (s : State) (w : Word) : (s.placeCommand w).modIn = s.modIn := rfl
@[simp] theorem State.placeCommand_carIn (s : State) (w : Word) : (s.placeCommand w).carIn = s.carIn := rfl
@[simp] theorem State.placeCommand_synOut (s : State) (w : Word) : (s.placeCommand w).synOut = s.synOut := rfl
@[simp] theorem State.placeCommand_vocOut (s : State) (w : Word) : (s.placeCommand w).vocOut = s.vocOut := rfl
@[simp] theorem State.placeCommand_attackRate (s : State) (w : Word) : (s.placeCommand w).attackRate = s.attackRate := rfl
@[simp] theorem State.placeCommand_decayRate (s : State) (w : Word) : (s.placeCommand w).decayRate = s.decayRate := rfl
@[simp] theorem State.placeCommand_sustainLevel (s : State) (w : Word) : (s.placeCommand w).sustainLevel = s.sustainLevel := rfl
@[simp] theorem State.placeCommand_releaseRate (s : State) (w : Word) : (s.placeCommand w).releaseRate = s.releaseRate := rfl
@[simp] theorem State.placeCommand_outputGain (s : State) (w : Word) : (s.placeCommand w).outputGain = s.outputGain := rfl
@[simp] theorem State.placeCommand_noiseGain (s : State) (w : Word) : (s.placeCommand w).noiseGain = s.noiseGain := rfl
@[simp] theorem State.placeCommand_tuning (s : State) (w : Word) : (s.placeCommand w).tuning = s.tuning := rfl
@[simp] theorem State.placeCommand_shape (s : State) (w : Word) : (s.placeCommand w).shape = s.shape := rfl
@[simp] theorem State.placeCommand_fTop (s : State) (w : Word) : (s.placeCommand w).fTop = s.fTop := rfl
@[simp] theorem State.placeCommand_modS (s : State) (w : Word) : (s.placeCommand w).modS = s.modS := rfl
@[simp] theorem State.placeCommand_carS (s : State) (w : Word) : (s.placeCommand w).carS = s.carS := rfl
@[simp] theorem State.placeCommand_gm (s : State) (w : Word) : (s.placeCommand w).gm = s.gm := rfl
@[simp] theorem State.placeCommand_go (s : State) (w : Word) : (s.placeCommand w).go = s.go := rfl
@[simp] theorem State.placeCommand_bands (s : State) (w : Word) : (s.placeCommand w).bands = s.bands := rfl
@[simp] theorem State.placeCommand_voices (s : State) (w : Word) : (s.placeCommand w).voices = s.voices := rfl
@[simp] theorem State.placeCommand_viol (s : State) (w : Word) : (s.placeCommand w).viol = s.viol := rfl

/-! `State.loadActions` -/

@[simp] theorem State.loadActions_params (s : State) (acts : List HostAction) : (s.loadActions acts).params = s.params := rfl
@[simp] theorem State.loadActions_pending (s : State) (acts : List HostAction) : (s.loadActions acts).pending = acts := rfl
@[simp] theorem State.loadActions_observed (s : State) (acts : List HostAction) : (s.loadActions acts).observed = s.observed := rfl
@[simp] theorem State.loadActions_cmd (s : State) (acts : List HostAction) : (s.loadActions acts).cmd = s.cmd := rfl
@[simp] theorem State.loadActions_status (s : State) (acts : List HostAction) : (s.loadActions acts).status = s.status := rfl
@[simp] theorem State.loadActions_faultCode (s : State) (acts : List HostAction) : (s.loadActions acts).faultCode = s.faultCode := rfl
@[simp] theorem State.loadActions_faultInfo (s : State) (acts : List HostAction) : (s.loadActions acts).faultInfo = s.faultInfo := rfl
@[simp] theorem State.loadActions_ctrl (s : State) (acts : List HostAction) : (s.loadActions acts).ctrl = s.ctrl := rfl
@[simp] theorem State.loadActions_ageCnt (s : State) (acts : List HostAction) : (s.loadActions acts).ageCnt = s.ageCnt := rfl
@[simp] theorem State.loadActions_a (s : State) (acts : List HostAction) : (s.loadActions acts).a = s.a := rfl
@[simp] theorem State.loadActions_b (s : State) (acts : List HostAction) : (s.loadActions acts).b = s.b := rfl
@[simp] theorem State.loadActions_y (s : State) (acts : List HostAction) : (s.loadActions acts).y = s.y := rfl
@[simp] theorem State.loadActions_acc (s : State) (acts : List HostAction) : (s.loadActions acts).acc = s.acc := rfl
@[simp] theorem State.loadActions_f (s : State) (acts : List HostAction) : (s.loadActions acts).f = s.f := rfl
@[simp] theorem State.loadActions_g (s : State) (acts : List HostAction) : (s.loadActions acts).g = s.g := rfl
@[simp] theorem State.loadActions_modIn (s : State) (acts : List HostAction) : (s.loadActions acts).modIn = s.modIn := rfl
@[simp] theorem State.loadActions_carIn (s : State) (acts : List HostAction) : (s.loadActions acts).carIn = s.carIn := rfl
@[simp] theorem State.loadActions_synOut (s : State) (acts : List HostAction) : (s.loadActions acts).synOut = s.synOut := rfl
@[simp] theorem State.loadActions_vocOut (s : State) (acts : List HostAction) : (s.loadActions acts).vocOut = s.vocOut := rfl
@[simp] theorem State.loadActions_attackRate (s : State) (acts : List HostAction) : (s.loadActions acts).attackRate = s.attackRate := rfl
@[simp] theorem State.loadActions_decayRate (s : State) (acts : List HostAction) : (s.loadActions acts).decayRate = s.decayRate := rfl
@[simp] theorem State.loadActions_sustainLevel (s : State) (acts : List HostAction) : (s.loadActions acts).sustainLevel = s.sustainLevel := rfl
@[simp] theorem State.loadActions_releaseRate (s : State) (acts : List HostAction) : (s.loadActions acts).releaseRate = s.releaseRate := rfl
@[simp] theorem State.loadActions_outputGain (s : State) (acts : List HostAction) : (s.loadActions acts).outputGain = s.outputGain := rfl
@[simp] theorem State.loadActions_noiseGain (s : State) (acts : List HostAction) : (s.loadActions acts).noiseGain = s.noiseGain := rfl
@[simp] theorem State.loadActions_tuning (s : State) (acts : List HostAction) : (s.loadActions acts).tuning = s.tuning := rfl
@[simp] theorem State.loadActions_shape (s : State) (acts : List HostAction) : (s.loadActions acts).shape = s.shape := rfl
@[simp] theorem State.loadActions_fTop (s : State) (acts : List HostAction) : (s.loadActions acts).fTop = s.fTop := rfl
@[simp] theorem State.loadActions_modS (s : State) (acts : List HostAction) : (s.loadActions acts).modS = s.modS := rfl
@[simp] theorem State.loadActions_carS (s : State) (acts : List HostAction) : (s.loadActions acts).carS = s.carS := rfl
@[simp] theorem State.loadActions_gm (s : State) (acts : List HostAction) : (s.loadActions acts).gm = s.gm := rfl
@[simp] theorem State.loadActions_go (s : State) (acts : List HostAction) : (s.loadActions acts).go = s.go := rfl
@[simp] theorem State.loadActions_bands (s : State) (acts : List HostAction) : (s.loadActions acts).bands = s.bands := rfl
@[simp] theorem State.loadActions_voices (s : State) (acts : List HostAction) : (s.loadActions acts).voices = s.voices := rfl
@[simp] theorem State.loadActions_viol (s : State) (acts : List HostAction) : (s.loadActions acts).viol = s.viol := rfl

end Sys2Proof.Machine
end

