-- ==== Sys2Proof/Laws/Flags.lean ====
section
/-! SUPPORT. Laws of the violation marks and of marked values. -/

namespace Sys2Proof.Machine

open Sys2Proof

@[simp] theorem Marks.union_empty (m : Marks) : m.union Marks.empty = m := by
  cases m; simp [Marks.union, Marks.empty]

@[simp] theorem Marks.empty_union (m : Marks) : Marks.empty.union m = m := by
  cases m; simp [Marks.union, Marks.empty]

theorem Marks.union_assoc (m n k : Marks) : (m.union n).union k = m.union (n.union k) := by
  simp [Marks.union, Bool.or_assoc]

/-- A union is empty exactly when both parts are. -/
@[simp] theorem Marks.union_eq_empty (m n : Marks) :
    m.union n = Marks.empty ↔ m = Marks.empty ∧ n = Marks.empty := by
  rcases m with ⟨a, b, c, d⟩; rcases n with ⟨e, f, g, h⟩
  simp [Marks.union, Marks.empty]; tauto

@[simp] theorem Marks.union_range (m n : Marks) : (m.union n).range = (m.range || n.range) := rfl
@[simp] theorem Marks.union_acc (m n : Marks) : (m.union n).acc = (m.acc || n.acc) := rfl
@[simp] theorem Marks.union_doublePress (m n : Marks) :
    (m.union n).doublePress = (m.doublePress || n.doublePress) := rfl
@[simp] theorem Marks.union_ageWrap (m n : Marks) : (m.union n).ageWrap = (m.ageWrap || n.ageWrap) := rfl

@[simp] theorem Marks.ofRange_eq_empty (c : Bool) : Marks.ofRange c = Marks.empty ↔ c = false := by
  simp [Marks.ofRange, Marks.empty]

@[simp] theorem Marks.ofAcc_eq_empty (c : Bool) : Marks.ofAcc c = Marks.empty ↔ c = false := by
  simp [Marks.ofAcc, Marks.empty]

@[simp] theorem Marked.pure_val {α : Type} (x : α) : (Marked.pure x).val = x := rfl
@[simp] theorem Marked.pure_marks {α : Type} (x : α) : (Marked.pure x).marks = Marks.empty := rfl

@[simp] theorem Marked.bind_val {α β : Type} (x : Marked α) (k : α → Marked β) :
    (x.bind k).val = (k x.val).val := rfl

@[simp] theorem Marked.bind_marks {α β : Type} (x : Marked α) (k : α → Marked β) :
    (x.bind k).marks = x.marks.union (k x.val).marks := rfl

@[simp] theorem Marked.map_val {α β : Type} (g : α → β) (x : Marked α) : (x.map g).val = g x.val := rfl
@[simp] theorem Marked.map_marks {α β : Type} (g : α → β) (x : Marked α) : (x.map g).marks = x.marks := rfl

theorem Marked.ext_val {α : Type} {x y : Marked α} (h : x.val = y.val) (k : x.marks = y.marks) : x = y := by
  cases x; cases y; simp_all

/-- No mark of a press: the marks of an arithmetic computation are `V_RANGE` and `V_ACC` only (R510). -/
def Marks.PressFree (m : Marks) : Prop := m.doublePress = false ∧ m.ageWrap = false

theorem Marked.pure_pressFree {α : Type} (x : α) : (Marked.pure x).marks.PressFree := ⟨rfl, rfl⟩

theorem Marked.bind_pressFree {α β : Type} {x : Marked α} {k : α → Marked β} (h : x.marks.PressFree)
    (g : ∀ a, (k a).marks.PressFree) : (x.bind k).marks.PressFree := by
  simp [Marks.PressFree, h.1, h.2, (g x.val).1, (g x.val).2]

/-- Press-free marks leave the press marks of `VIOL` as they are. -/
theorem Marks.union_pressFree (m : Marks) {n : Marks} (h : n.PressFree) :
    (m.union n).doublePress = m.doublePress ∧ (m.union n).ageWrap = m.ageWrap := by
  simp [h.1, h.2]

/-- Setting `FAULT` sets bit 0 and keeps bit 1 (R502). -/
theorem statusSetFault_bits (st : Word) :
    (statusSetFault st).getLsbD 0 = true ∧ (statusSetFault st).getLsbD 1 = st.getLsbD 1 := by
  constructor <;> simp [statusSetFault]

/-- Setting `CFG_DONE` sets bit 1 and keeps bit 0 (R276). -/
theorem statusSetCfgDone_bits (st : Word) :
    (statusSetCfgDone st).getLsbD 1 = true ∧ (statusSetCfgDone st).getLsbD 0 = st.getLsbD 0 := by
  constructor <;> simp [statusSetCfgDone]

end Sys2Proof.Machine
end

