-- ==== Sys2Proof/Laws/FixedPoint.lean ====
section
/-! SUPPORT. Laws of the fixed-point functions: what narrowing and widening answer, and the value of each
`fx_*` when it marks nothing. -/

namespace Sys2Proof.Machine

open Sys2Proof

theorem fitsSigned_word (v : Int) : fitsSigned wordWidth v = true ↔ -2 ^ 31 ≤ v ∧ v < 2 ^ 31 := by
  simp only [fitsSigned, wordWidth, Bool.and_eq_true, decide_eq_true_eq]; omega

theorem fitsSigned_acc (v : Int) : fitsSigned accWidth v = true ↔ -2 ^ 63 ≤ v ∧ v < 2 ^ 63 := by
  simp only [fitsSigned, accWidth, Bool.and_eq_true, decide_eq_true_eq]; omega

theorem word_toInt_range (x : Word) : -2 ^ 31 ≤ x.toInt ∧ x.toInt < 2 ^ 31 := by
  have h := x.isLt; rw [BitVec.toInt_eq_toNat_cond]; split <;> omega

theorem wide_toInt_range (x : Wide) : -2 ^ 63 ≤ x.toInt ∧ x.toInt < 2 ^ 63 := by
  have h := x.isLt; rw [BitVec.toInt_eq_toNat_cond]; split <;> omega

/-- An integer in range is the value of the word made of it. -/
theorem toInt_ofInt_word {v : Int} (h : -2 ^ 31 ≤ v ∧ v < 2 ^ 31) : (BitVec.ofInt 32 v).toInt = v := by
  rw [BitVec.toInt_ofInt]; exact Int.bmod_eq_of_le (by omega) (by omega)

theorem toInt_ofInt_wide {v : Int} (h : -2 ^ 63 ≤ v ∧ v < 2 ^ 63) : (BitVec.ofInt 64 v).toInt = v := by
  rw [BitVec.toInt_ofInt]; exact Int.bmod_eq_of_le (by omega) (by omega)

/-- A word made of an integer is congruent to it. -/
theorem toInt_ofInt_word_congr (v : Int) : ∃ k : Int, (BitVec.ofInt 32 v).toInt = v + k * 2 ^ 32 := by
  obtain ⟨k, hk⟩ := Int.dvd_bmod_sub_self (x := v) (m := 2 ^ 32)
  exact ⟨k, by rw [BitVec.toInt_ofInt]; push_cast at hk; linarith⟩

theorem toInt_ofInt_wide_congr (v : Int) : ∃ k : Int, (BitVec.ofInt 64 v).toInt = v + k * 2 ^ 64 := by
  obtain ⟨k, hk⟩ := Int.dvd_bmod_sub_self (x := v) (m := 2 ^ 64)
  exact ⟨k, by rw [BitVec.toInt_ofInt]; push_cast at hk; linarith⟩

/-- Everything `narrow` can do (R202). -/
theorem narrow_spec (v : Int) :
    (-2 ^ 31 ≤ v ∧ v < 2 ^ 31 ∧ (narrow v).val.toInt = v ∧ (narrow v).marks = Marks.empty) ∨
    (¬(-2 ^ 31 ≤ v ∧ v < 2 ^ 31) ∧ (narrow v).marks = Marks.ofRange true) := by
  by_cases h : -2 ^ 31 ≤ v ∧ v < 2 ^ 31
  · refine .inl ⟨h.1, h.2, toInt_ofInt_word h, ?_⟩
    simp [narrow, (fitsSigned_word v).2 h, Marks.ofRange, Marks.empty]
  · refine .inr ⟨h, ?_⟩
    have : fitsSigned wordWidth v = false := by
      rw [← Bool.not_eq_true, fitsSigned_word]; exact h
    simp [narrow, this]

theorem narrow_clean {v : Int} (h : (narrow v).marks = Marks.empty) :
    (narrow v).val.toInt = v ∧ -2 ^ 31 ≤ v ∧ v < 2 ^ 31 := by
  rcases narrow_spec v with ⟨a, b, c, _⟩ | ⟨_, k⟩
  · exact ⟨c, a, b⟩
  · rw [k] at h; simp at h

theorem narrow_of_fits {v : Int} (a : -2 ^ 31 ≤ v) (b : v < 2 ^ 31) :
    (narrow v).val.toInt = v ∧ (narrow v).marks = Marks.empty := by
  rcases narrow_spec v with ⟨_, _, c, d⟩ | ⟨k, _⟩
  · exact ⟨c, d⟩
  · exact absurd ⟨a, b⟩ k

theorem widen_clean {u : Int} (h : (widen u).marks = Marks.empty) :
    (widen u).val.toInt = u ∧ -2 ^ 63 ≤ u ∧ u < 2 ^ 63 := by
  have f : fitsSigned accWidth u = true := by simpa [widen] using h
  have r := (fitsSigned_acc u).1 f
  exact ⟨toInt_ofInt_wide r, r⟩

theorem widen_of_fits {u : Int} (a : -2 ^ 63 ≤ u) (b : u < 2 ^ 63) :
    (widen u).val.toInt = u ∧ (widen u).marks = Marks.empty := by
  refine ⟨toInt_ofInt_wide ⟨a, b⟩, ?_⟩
  simp [widen, (fitsSigned_acc u).2 ⟨a, b⟩]

theorem narrow_pressFree (v : Int) : (narrow v).marks.PressFree := ⟨rfl, rfl⟩

theorem widen_pressFree (u : Int) : (widen u).marks.PressFree := ⟨rfl, rfl⟩

theorem fxLerp_pressFree (s x k : Word) : (fxLerp s x k).marks.PressFree :=
  Marked.bind_pressFree (narrow_pressFree _) fun _ =>
    Marked.bind_pressFree (narrow_pressFree _) fun _ => narrow_pressFree _

/-- The arithmetic shift is the floor of the quotient (R204). -/
theorem asr_floor (v : Int) (k : Nat) : asr v k * 2 ^ k ≤ v ∧ v < (asr v k + 1) * 2 ^ k := by
  have hp : (0 : Int) < 2 ^ k := by positivity
  have h := Int.mul_ediv_add_emod v (2 ^ k)
  have h0 := Int.emod_nonneg v (ne_of_gt hp)
  have h1 := Int.emod_lt_of_pos v hp
  unfold asr
  constructor <;> nlinarith

/-- The product of two words fits the accumulator (R205). -/
theorem product_range (a b : Word) :
    -2 ^ 62 + 2 ^ 31 ≤ a.toInt * b.toInt ∧ a.toInt * b.toInt ≤ 2 ^ 62 := by
  have ha := word_toInt_range a
  have hb := word_toInt_range b
  constructor <;> nlinarith

/-- `fx_mulw` is exact (R214). -/
theorem fxMulw_toInt (a b : Word) : (fxMulw a b).toInt = a.toInt * b.toInt := by
  have h := product_range a b
  exact toInt_ofInt_wide ⟨by omega, by omega⟩

/-- A product by a factor in `[0, ONE]`, floored, lies between 0 and the other factor (R226, R227). -/
theorem asr_unit_between (e k : Int) (h0 : 0 ≤ k) (h1 : k ≤ 2 ^ 29) :
    (0 ≤ e → 0 ≤ asr (e * k) 29 ∧ asr (e * k) 29 ≤ e) ∧ (e ≤ 0 → e ≤ asr (e * k) 29 ∧ asr (e * k) 29 ≤ 0) := by
  have f := asr_floor (e * k) 29
  constructor
  · intro he
    have := mul_nonneg he h0
    have : e * k ≤ e * 2 ^ 29 := mul_le_mul_of_nonneg_left h1 he
    constructor <;> omega
  · intro he
    have a : e * k ≤ 0 := mul_nonpos_of_nonpos_of_nonneg he h0
    have b : e * 2 ^ 29 ≤ e * k := mul_le_mul_of_nonpos_left h1 he
    constructor <;> omega

/-- The low `P` bits are below `ONE` (R379). -/
theorem modOne_lt (x : Word) : (modOne x).toNat < 2 ^ 29 := by
  have : x.toNat % 2 ^ 29 < 2 ^ 29 := Nat.mod_lt _ (by norm_num)
  simp only [modOne, pointPos, BitVec.toNat_ofNat]; omega

theorem modOne_toNat (x : Word) : (modOne x).toNat = x.toNat % 2 ^ 29 := by
  simp only [modOne, pointPos, BitVec.toNat_ofNat]; omega

end Sys2Proof.Machine
end

