-- ==== Sys2Proof/Laws/Exec.lean ====
section
/-! SUPPORT. Laws of the fault entry, of the host accesses and of `exec`: everything each can answer. -/

namespace Sys2Proof.Machine

open Sys2Proof

/-- Everything `raise` can do (R502, R505). -/
theorem State.raise_cases (s : State) (c : FaultCode) (info : Word) :
    (s.faulted = true ∧ s.raise c info = s) ∨
    (s.faulted = false ∧ s.raise c info =
      { s with status := statusSetFault s.status, faultCode := c.toWord, faultInfo := info }) := by
  unfold State.raise
  cases h : s.faulted <;> simp

theorem State.raise_of_live {s : State} (h : s.faulted = false) (c : FaultCode) (info : Word) :
    s.raise c info =
      { s with status := statusSetFault s.status, faultCode := c.toWord, faultInfo := info } := by
  simp [State.raise, h]

theorem State.raise_of_faulted {s : State} (h : s.faulted = true) (c : FaultCode) (info : Word) :
    s.raise c info = s := by simp [State.raise, h]

/-- The codes of R500 are 1 to 9. -/
theorem FaultCode.toWord_range (c : FaultCode) : 1 ≤ c.toWord.toNat ∧ c.toWord.toNat ≤ 9 := by
  cases c <;> decide

/-- What a command that raises no fault and is not `SRESET` leaves alone: the host's side, the parameters,
the registers only the host writes, the fault record; marks are kept, and `STATUS` may gain `CFG_DONE`. -/
structure State.Keeps (s t : State) : Prop where
  params : t.params = s.params
  pending : t.pending = s.pending
  observed : t.observed = s.observed
  cmd : t.cmd = s.cmd
  status : t.status = s.status ∨ t.status = statusSetCfgDone s.status
  faultCode : t.faultCode = s.faultCode
  faultInfo : t.faultInfo = s.faultInfo
  ctrl : t.ctrl = s.ctrl
  a : t.a = s.a
  b : t.b = s.b
  g : t.g = s.g
  modIn : t.modIn = s.modIn
  carIn : t.carIn = s.carIn
  attackRate : t.attackRate = s.attackRate
  decayRate : t.decayRate = s.decayRate
  sustainLevel : t.sustainLevel = s.sustainLevel
  releaseRate : t.releaseRate = s.releaseRate
  outputGain : t.outputGain = s.outputGain
  noiseGain : t.noiseGain = s.noiseGain
  tuning : t.tuning = s.tuning
  shape : t.shape = s.shape
  fTop : t.fTop = s.fTop
  viol : ∃ m, t.viol = s.viol.union m

theorem State.Keeps.refl (s : State) : s.Keeps s := by
  constructor <;> first | rfl | exact .inl rfl | exact ⟨Marks.empty, (Marks.union_empty _).symm⟩

theorem State.keeps_writeY (s : State) (r : Marked Word) : s.Keeps (s.writeY r) := by
  constructor <;> first | rfl | exact .inl rfl | exact ⟨r.marks, rfl⟩

theorem State.keeps_writeAcc (s : State) (r : Marked Wide) : s.Keeps (s.writeAcc r) := by
  constructor <;> first | rfl | exact .inl rfl | exact ⟨r.marks, rfl⟩

theorem State.keeps_modifyBand (s : State) (n : Nat) (g : Band → Band) : s.Keeps (s.modifyBand n g) := by
  constructor <;> first | rfl | exact .inl rfl | exact ⟨Marks.empty, (Marks.union_empty _).symm⟩

theorem State.keeps_voices (s : State) (v : List Voice) : s.Keeps { s with voices := v } := by
  constructor <;> first | rfl | exact .inl rfl | exact ⟨Marks.empty, (Marks.union_empty _).symm⟩

theorem pressNote_cases (note : BitVec 16) (s : State) :
    pressNote note s = s.raiseCmd .badNote ∨ s.Keeps (pressNote note s) := by
  unfold pressNote
  split
  · right; constructor <;> first | rfl | exact .inl rfl | exact ⟨_, rfl⟩
  · exact .inl rfl

theorem cstep_cases (r : Role) (n : Nat) (s : State) :
    cstep r n s = s.raiseCmd .badBand ∨ s.Keeps (cstep r n s) := by
  unfold cstep
  split
  · right; constructor <;> first | rfl | exact .inl rfl | exact ⟨_, rfl⟩
  · exact .inl rfl

theorem designBand_cases (L : Libm) (store : Coef → Band → Band) (n : Nat) (s : State) :
    (∃ c, designBand L store n s = s.raiseCmd c) ∨ s.Keeps (designBand L store n s) := by
  unfold designBand
  split
  · split
    · exact .inl ⟨_, rfl⟩
    · exact .inr (s.keeps_modifyBand _ _)
  · exact .inl ⟨_, rfl⟩

theorem vinit_cases (L : Libm) (s : State) : (∃ c, vinit L s = s.raiseCmd c) ∨ s.Keeps (vinit L s) := by
  unfold vinit
  split
  · exact .inl ⟨_, rfl⟩
  · right; constructor <;> first | rfl | exact .inr rfl | exact ⟨Marks.empty, (Marks.union_empty _).symm⟩

theorem State.keeps_writeSyn (s : State) (r : Marked SynOut) : s.Keeps (s.writeSyn r) := by
  constructor <;> first | rfl | exact .inl rfl | exact ⟨r.marks, rfl⟩

theorem State.keeps_writeVoc (s : State) (r : Marked VocOut) : s.Keeps (s.writeVoc r) := by
  constructor <;> first | rfl | exact .inl rfl | exact ⟨r.marks, rfl⟩

/-- Two updates of which the first leaves `STATUS` as it is. -/
theorem State.Keeps.trans {s t u : State} (h : s.Keeps t) (hs : t.status = s.status) (k : t.Keeps u) : s.Keeps u where
  params := k.params.trans h.params
  pending := k.pending.trans h.pending
  observed := k.observed.trans h.observed
  cmd := k.cmd.trans h.cmd
  status := hs ▸ k.status
  faultCode := k.faultCode.trans h.faultCode
  faultInfo := k.faultInfo.trans h.faultInfo
  ctrl := k.ctrl.trans h.ctrl
  a := k.a.trans h.a
  b := k.b.trans h.b
  g := k.g.trans h.g
  modIn := k.modIn.trans h.modIn
  carIn := k.carIn.trans h.carIn
  attackRate := k.attackRate.trans h.attackRate
  decayRate := k.decayRate.trans h.decayRate
  sustainLevel := k.sustainLevel.trans h.sustainLevel
  releaseRate := k.releaseRate.trans h.releaseRate
  outputGain := k.outputGain.trans h.outputGain
  noiseGain := k.noiseGain.trans h.noiseGain
  tuning := k.tuning.trans h.tuning
  shape := k.shape.trans h.shape
  fTop := k.fTop.trans h.fTop
  viol := by
    obtain ⟨m, hm⟩ := h.viol
    obtain ⟨n, hn⟩ := k.viol
    exact ⟨m.union n, by rw [hn, hm, Marks.union_assoc]⟩

theorem keeps_sampleOnce (sn : Snap) (s : State) : s.Keeps (sampleOnce sn s) :=
  (s.keeps_writeSyn _).trans (s.writeSyn_status _) (State.keeps_writeVoc _ _)

/-- Everything executing a command can answer: a fault record and nothing else, the reset, or a next state
that keeps what no command writes. -/
theorem exec_cases (i : Instr) (s : State) :
    (∃ c, exec i s = .next (s.raiseCmd c)) ∨ (i = .sreset ∧ exec i s = .next s.doReset) ∨
    ∃ t, exec i s = .next t ∧ s.Keeps t := by
  have join : ∀ t : State, exec i s = .next t → ((∃ c, t = s.raiseCmd c) ∨ s.Keeps t) →
      (∃ c, exec i s = .next (s.raiseCmd c)) ∨ (i = .sreset ∧ exec i s = .next s.doReset) ∨
      ∃ t, exec i s = .next t ∧ s.Keeps t := by
    rintro t h (⟨c, rfl⟩ | k)
    · exact .inl ⟨c, h⟩
    · exact .inr (.inr ⟨t, h, k⟩)
  cases i with
  | nop => exact join _ rfl (.inr (.refl s))
  | aluDiv =>
    simp only [exec, execAluDiv]; split
    · exact .inl ⟨_, rfl⟩
    · exact .inr (.inr ⟨_, rfl, s.keeps_writeY _⟩)
  | aluFromf =>
    simp only [exec, execAluFromf]; split
    · exact .inl ⟨_, rfl⟩
    · exact .inr (.inr ⟨_, rfl, s.keeps_writeY _⟩)
  | aluShl k | aluShr k =>
    refine join _ rfl ?_
    split
    · exact .inr (s.keeps_writeY _)
    · exact .inl ⟨_, rfl⟩
  | aluAdd | aluSub | aluMul | aluCompact | aluAbs => exact join _ rfl (.inr (s.keeps_writeY _))
  | aluMulw | aluMacw | aluMsuw | aluAddw => exact join _ rfl (.inr (s.keeps_writeAcc _))
  | aluTof | synth | vocode =>
    refine join _ rfl (.inr ?_)
    constructor <;> first | rfl | exact .inl rfl | exact ⟨_, rfl⟩ | exact ⟨Marks.empty, (Marks.union_empty _).symm⟩
  | sample => exact join (sampleOnce s.snapshot s) rfl (.inr (keeps_sampleOnce _ s))
  | press n => exact join (pressNote n s) rfl ((pressNote_cases n s).imp_left fun h => ⟨_, h⟩)
  | release n =>
    refine join _ rfl ?_
    split
    · exact .inr (s.keeps_voices _)
    · exact .inl ⟨_, rfl⟩
  | cstepMod n => exact join (cstep .modulator n.toNat s) rfl ((cstep_cases _ _ s).imp_left fun h => ⟨_, h⟩)
  | cstepCar n => exact join (cstep .carrier n.toNat s) rfl ((cstep_cases _ _ s).imp_left fun h => ⟨_, h⟩)
  | designMod n | designCar n | designBoth n => exact join _ rfl (designBand_cases _ _ _ s)
  | vinit => exact join _ rfl (vinit_cases _ s)
  | sreset => exact .inr (.inl ⟨rfl, rfl⟩)

/-- Everything the write of a command word can answer (R411). -/
theorem issueCommand_cases (w : Word) (s : State) :
    (s.faulted = true ∧ w ≠ sresetWord ∧ issueCommand w s = .next { s with cmd := w }) ∨
    (s.faulted = true ∧ w = sresetWord ∧ issueCommand w s = .next { s with cmd := w }.doReset) ∨
    (s.faulted = false ∧ (∃ e, decode w = .error e) ∧
      issueCommand w s = .next ({ s with cmd := w }.raise .illegalCmd w)) ∨
    (s.faulted = false ∧ ∃ i, decode w = .ok i ∧ issueCommand w s = exec i { s with cmd := w }) := by
  have hf : ({ s with cmd := w } : State).faulted = s.faulted := rfl
  unfold issueCommand
  simp only [hf]
  cases h : s.faulted
  · cases hd : decode w with
    | error e => exact .inr (.inr (.inl ⟨rfl, ⟨e, rfl⟩, by simp⟩))
    | ok i => exact .inr (.inr (.inr ⟨rfl, i, rfl, by simp⟩))
  · by_cases hw : w = sresetWord
    · exact .inr (.inl ⟨rfl, hw, by simp [hw, exec, execSreset]⟩)
    · exact .inl ⟨rfl, hw, by simp [hw]⟩

/-- The only address of `CMD` is `0x0000` (R81). -/
theorem slotOf_eq_cmd (p : Params) (addr : Addr) : slotOf p addr = .reg .cmd ↔ addr = 0x0000#16 := by
  constructor
  · intro h
    apply BitVec.eq_of_toNat_eq
    simp only [slotOf] at h
    split at h
    · split at h
      · rename_i r hr
        obtain rfl : r = .cmd := by simpa using h
        unfold regAt at hr
        split at hr <;> simp_all
      · cases h
    · repeat' first | (split at h) | (simp only [coefSlot, histSlot] at h)
      all_goals cases h
  · rintro rfl; rfl

/-- Everything one host action can answer (R82, R411, R417, R418), by what it does. -/
theorem performAction_cases (act : HostAction) (s : State) :
    (∃ w, act = .wr 0x0000#16 w ∧ performAction act s = issueCommand w s) ∨
    (∃ addr v, act = .wr addr v ∧ addr ≠ 0x0000#16 ∧ (slotOf s.params addr).writable = true ∧
      performAction act s = .next (writeSlot s v (slotOf s.params addr))) ∨
    (∃ addr v, act = .wr addr v ∧ addr ≠ 0x0000#16 ∧ (slotOf s.params addr).writable = false ∧
      performAction act s = .next (s.raise .badAddress (addrWord addr))) ∨
    (∃ addr, act = .rd addr ∧ slotOf s.params addr ≠ .unmapped ∧
      performAction act s = .next { s with observed := s.observed ++ [peek s addr] }) ∨
    (∃ addr, act = .rd addr ∧ slotOf s.params addr = .unmapped ∧
      performAction act s = .next ({ s with observed := s.observed ++ [0] }.raise .badAddress (addrWord addr))) := by
  cases act with
  | wr addr v =>
    by_cases h : addr = 0x0000#16
    · subst h
      exact .inl ⟨v, rfl, by simp [performAction, hostWrite, (slotOf_eq_cmd s.params _).2]⟩
    · have hs : slotOf s.params addr ≠ .reg .cmd := fun e => h ((slotOf_eq_cmd _ _).1 e)
      cases hw : (slotOf s.params addr).writable
      · exact .inr (.inr (.inl ⟨addr, v, rfl, h, hw, by simp [performAction, hostWrite, hs, hw]⟩))
      · exact .inr (.inl ⟨addr, v, rfl, h, hw, by simp [performAction, hostWrite, hs, hw]⟩)
  | rd addr =>
    by_cases h : slotOf s.params addr = .unmapped
    · exact .inr (.inr (.inr (.inr ⟨addr, rfl, h, by simp [performAction, hostRead, h, peek, readSlot]⟩)))
    · exact .inr (.inr (.inr (.inl ⟨addr, rfl, h, by simp [performAction, hostRead, h]⟩)))

/-- A step takes the first host action, or idles (R418, R526). -/
theorem step_cases (s : State) :
    (s.pending = [] ∧ step s = .next s) ∨
    ∃ act rest, s.pending = act :: rest ∧ step s = performAction act { s with pending := rest } := by
  unfold step nextAction
  cases h : s.pending with
  | nil => exact .inl ⟨rfl, rfl⟩
  | cons act rest => exact .inr ⟨act, rest, rfl, rfl⟩

end Sys2Proof.Machine
end

