-- ==== Sys2Proof/Laws/Cascade.lean ====
section
/-! SUPPORT. Laws of the cascade: lengths, the window of each stage, and the exact value of a stage. -/

namespace Sys2Proof.Machine

open Sys2Proof

/-- The window a stage reads: `x` for the first of the list, else the window before it (R301). -/
def windowBefore (x : Win) (ys : List Win) (k : Nat) : Win := if k = 0 then x else ys.getD (k - 1) Win.zero

theorem windowBefore_succ (x y : Win) (ys : List Win) (k : Nat) :
    windowBefore x (y :: ys) (k + 1) = windowBefore y ys k := by
  cases k <;> simp [windowBefore]

@[simp] theorem runStages_length (scale : Word) (stage : Nat) (x : Win) (cs : List StageCoef) (ys : List Win) :
    (runStages scale stage x cs ys).val.length = ys.length := by
  induction cs generalizing stage x ys with
  | nil => cases ys <;> rfl
  | cons c cs ih => cases ys with
    | nil => rfl
    | cons y ys => simp [runStages, ih]

/-- Everything a run of stages writes: each stage ages its window and adds `stage_out` on the window before
(R302, R303). -/
theorem runStages_get (scale : Word) (stage : Nat) (x : Win) (cs : List StageCoef) (ys : List Win) (k : Nat)
    (hc : k < cs.length) (hy : k < ys.length) :
    (runStages scale stage x cs ys).val.getD k Win.zero =
      ⟨(stageOut (stage + k) (windowBefore x (runStages scale stage x cs ys).val k)
          (ys.getD k Win.zero).w0 (ys.getD k Win.zero).w1 scale (cs.getD k ⟨0, 0⟩)).val,
        (ys.getD k Win.zero).w0, (ys.getD k Win.zero).w1⟩ := by
  induction cs generalizing stage x ys k with
  | nil => simp at hc
  | cons c cs ih => cases ys with
    | nil => simp at hy
    | cons y ys =>
      cases k with
      | zero => simp [runStages, windowBefore]
      | succ k =>
        have h := ih (stage + 1) ⟨(stageOut stage x y.w0 y.w1 scale c).val, y.w0, y.w1⟩ ys k
          (by simpa using hc) (by simpa using hy)
        simp only [runStages, Marked.bind_val, Marked.map_val, windowBefore_succ, List.getD_cons_succ]
        rw [h, show stage + (k + 1) = stage + 1 + k by omega]

theorem cascadeStep_xin (c : Coef) (h : Hist) (u : Word) :
    (cascadeStep c h u).val.1.xin = ⟨u, h.xin.w0, h.xin.w1⟩ := rfl

@[simp] theorem cascadeStep_length (c : Coef) (h : Hist) (u : Word) :
    (cascadeStep c h u).val.1.yh.length = h.yh.length := by simp [cascadeStep]

theorem cascadeStep_out (c : Coef) (h : Hist) (u : Word) :
    (cascadeStep c h u).val.2 = ((cascadeStep c h u).val.1.yh.getLastD Win.zero).w0 := rfl

/-- The window of stage `k` after a cascade step (R302). -/
theorem cascadeStep_get (c : Coef) (h : Hist) (u : Word) (k : Nat) (hc : k < c.stages.length)
    (hy : k < h.yh.length) :
    (cascadeStep c h u).val.1.yh.getD k Win.zero =
      ⟨(stageOut k (windowBefore (cascadeStep c h u).val.1.xin (cascadeStep c h u).val.1.yh k)
          (h.yh.getD k Win.zero).w0 (h.yh.getD k Win.zero).w1 c.scale (c.stages.getD k ⟨0, 0⟩)).val,
        (h.yh.getD k Win.zero).w0, (h.yh.getD k Win.zero).w1⟩ := by
  have := runStages_get c.scale 0 ⟨u, h.xin.w0, h.xin.w1⟩ c.stages h.yh k hc hy
  rw [Nat.zero_add] at this
  exact this

theorem stageOut_pressFree (stage : Nat) (x : Win) (y1 y2 scale : Word) (c : StageCoef) :
    (stageOut stage x y1 y2 scale c).marks.PressFree := by
  unfold stageOut
  refine Marked.bind_pressFree ?_ fun _ => Marked.bind_pressFree (widen_pressFree _) fun _ =>
    Marked.bind_pressFree (widen_pressFree _) fun _ => narrow_pressFree _
  split
  · exact Marked.bind_pressFree (widen_pressFree _) fun _ => widen_pressFree _
  · exact Marked.bind_pressFree (widen_pressFree _) fun _ =>
      Marked.bind_pressFree (widen_pressFree _) fun _ => widen_pressFree _

theorem runStages_pressFree (scale : Word) (stage : Nat) (x : Win) (cs : List StageCoef) (ys : List Win) :
    (runStages scale stage x cs ys).marks.PressFree := by
  induction cs generalizing stage x ys with
  | nil => cases ys <;> exact Marked.pure_pressFree _
  | cons c cs ih => cases ys with
    | nil => exact Marked.pure_pressFree _
    | cons y ys => exact Marked.bind_pressFree (stageOut_pressFree _ _ _ _ _ _) fun _ => ih _ _ _

theorem cascadeStep_pressFree (c : Coef) (h : Hist) (u : Word) : (cascadeStep c h u).marks.PressFree :=
  runStages_pressFree _ _ _ _ _

/-- A run of stages sets a mark exactly when one of its stages does; `mark` is any of the four (R52). -/
theorem runStages_marks (mark : Marks → Bool) (hu : ∀ m n : Marks, mark (m.union n) = (mark m || mark n))
    (he : mark Marks.empty = false) (scale : Word) (stage : Nat) (x : Win) (cs : List StageCoef) (ys : List Win)
    (hl : cs.length = ys.length) :
    mark (runStages scale stage x cs ys).marks = true ↔ ∃ k < cs.length,
      mark (stageOut (stage + k) (windowBefore x (runStages scale stage x cs ys).val k)
        (ys.getD k Win.zero).w0 (ys.getD k Win.zero).w1 scale (cs.getD k ⟨0, 0⟩)).marks = true := by
  induction cs generalizing stage x ys with
  | nil => cases ys <;> simp [runStages, he]
  | cons c cs ih => cases ys with
    | nil => simp at hl
    | cons y ys =>
      have h := ih (stage + 1) ⟨(stageOut stage x y.w0 y.w1 scale c).val, y.w0, y.w1⟩ ys (by simpa using hl)
      simp only [runStages, Marked.bind_marks, Marked.map_marks, hu, Bool.or_eq_true, h, Marked.bind_val,
        Marked.map_val]
      constructor
      · rintro (h | ⟨k, hk, h⟩)
        · exact ⟨0, by simp, by simpa [windowBefore] using h⟩
        · refine ⟨k + 1, by simpa using hk, ?_⟩
          rw [windowBefore_succ, show stage + (k + 1) = stage + 1 + k by omega]; exact h
      · rintro ⟨k, hk, h⟩
        cases k with
        | zero => left; simpa [windowBefore] using h
        | succ k =>
          rw [windowBefore_succ, show stage + (k + 1) = stage + 1 + k by omega] at h
          exact .inr ⟨k, by simpa using hk, h⟩

/-- `CSTEP` on a band of the bank (R307). -/
theorem cstep_of_lt (s : State) (r : Role) (n : Nat) (h : n < s.params.bands) :
    cstep r n s =
      (s.modifyBand n fun bd =>
        bd.setHist r (cascadeStep ((s.band n).coef r) ((s.band n).hist r) s.a).val.1).writeY
      ⟨(cascadeStep ((s.band n).coef r) ((s.band n).hist r) s.a).val.2,
        (cascadeStep ((s.band n).coef r) ((s.band n).hist r) s.a).marks⟩ := by
  unfold cstep; rw [if_pos h]

theorem modify_eq_set {α : Type} (l : List α) (n : Nat) (g : α → α) (d : α) (h : n < l.length) :
    l.modify n g = l.set n (g (l.getD n d)) := by
  apply List.ext_getElem?
  intro i
  rw [List.getElem?_modify, List.getElem?_set, List.getD_eq_getElem?_getD]
  split
  · rename_i e
    subst e
    rw [List.getElem?_eq_getElem h]
    simp
  · simp

/-- Changing a band of the bank replaces it by the changed one. -/
theorem modifyBand_eq_set (s : State) (n : Nat) (g : Band → Band) (h : n < s.bands.length) :
    s.modifyBand n g = { s with bands := s.bands.set n (g (s.band n)) } := by
  unfold State.modifyBand State.band
  rw [modify_eq_set _ _ _ (Band.zero s.params.ns) h]

/-- The wide sum of stage 0's scaled taps, when nothing overflows (R303). -/
theorem scaledTaps_clean {stage : Nat} {x : Win} {scale : Word} (h : (scaledTaps stage x scale).marks = Marks.empty) :
    (scaledTaps stage x scale).val.toInt =
      scale.toInt * (x.w0.toInt + stageSign stage * 2 * x.w1.toInt + x.w2.toInt) := by
  simp only [scaledTaps, Marked.bind_marks, Marks.union_eq_empty] at h
  have h1 := widen_clean h.1
  have h2 := widen_clean h.2
  simp only [scaledTaps, Marked.bind_val, fxMacw]
  rw [h2.1, h1.1, fxMulw_toInt, fxMulw_toInt]
  ring

/-- The wide sum of a later stage's taps, when nothing overflows (R303). -/
theorem plainTaps_clean {stage : Nat} {x : Win} (h : (plainTaps stage x).marks = Marks.empty) :
    (plainTaps stage x).val.toInt =
      (x.w0.toInt + stageSign stage * 2 * x.w1.toInt + x.w2.toInt) * 2 ^ 29 := by
  simp only [plainTaps, Marked.bind_marks, Marks.union_eq_empty] at h
  have h1 := widen_clean h.1
  have h2 := widen_clean h.2.1
  have h3 := widen_clean h.2.2
  simp only [plainTaps, Marked.bind_val, fxAddw] at *
  rw [h3.1, h2.1, h1.1]
  rw [show (0 : Wide).toInt = 0 from rfl]
  simp only [shl, pointPos]
  ring

end Sys2Proof.Machine
end

