-- ==== Sys2Proof/Laws/Config.lean ====
section
/-! SUPPORT. The parameters of the machine behind `State.reset` are legal (R13 to R19), whatever the open
choices are. -/

namespace Sys2Proof

theorem small_toInt {n m : Nat} (h : n < m) (hm : m ≤ 2 ^ 31) :
    0 ≤ (BitVec.ofNat 32 n).toInt ∧ (BitVec.ofNat 32 n).toInt < m := by
  rw [BitVec.toInt_eq_toNat_cond, BitVec.toNat_ofNat, Nat.mod_eq_of_lt (by omega)]
  split <;> omega

theorem rate_small (n : Nat) : rateInRange (BitVec.ofNat 32 (n % (2 ^ pointPos + 1))) := by
  have h : n % (2 ^ pointPos + 1) < 2 ^ pointPos + 1 := Nat.mod_lt _ (by positivity)
  obtain ⟨h1, h2⟩ := small_toInt h (by norm_num)
  exact ⟨h1, by push_cast at h2; exact Int.lt_add_one_iff.mp h2⟩

theorem Config.params_valid : Config.params.Valid where
  ns_even := by simp [Config.params]
  ns_low := by simp only [Config.params]; omega
  ns_high := by simp only [Config.params]; omega
  bands_low := by simp [Config.params]
  bands_high := by simp only [Config.params]; omega
  voices_low := by simp [Config.params]
  voices_high := by simp only [Config.params]; omega
  notes_low := by simp [Config.params, Params.numNotes]
  notes_high := by simp [Config.params, Params.numNotes]
  taps_low := by simp [Config.params]
  eps_nonneg := (small_toInt (Nat.mod_lt _ (by norm_num)) (le_refl _)).1
  kPre_range := rate_small _
  kEnv_range := rate_small _
  kAg_range := rate_small _

end Sys2Proof
end

