-- ==== Sys2Proof/Laws/Decode.lean ====
section
/-! SUPPORT. Laws of the command words: fields of a sum of fields, and the two masks of the opcode table that
leave an operand free, in arithmetic. -/

namespace Sys2Proof

/-- The mask of formats V and B keeps the upper half of the word (R121). -/
theorem and_upperHalf (w : Word) : w &&& 0xFFFF0000#32 = BitVec.ofNat 32 (w.toNat / 2 ^ 16 * 2 ^ 16) := by
  have h : w &&& 0xFFFF0000#32 = (w >>> 16) <<< 16 := by
    ext i hi; interval_cases i <;> simp
  rw [h]
  apply BitVec.eq_of_toNat_eq
  simp [Nat.shiftLeft_eq, Nat.shiftRight_eq_div_pow]

/-- The mask of `SHL` and `SHR` leaves bits 19 to 15 free (R121, R125). -/
theorem and_shiftMask (w : Word) :
    w &&& 0xFFF07FFF#32 = BitVec.ofNat 32 (w.toNat / 2 ^ 20 * 2 ^ 20 + w.toNat % 2 ^ 15) := by
  have h : w &&& 0xFFF07FFF#32 = ((w >>> 20) <<< 20) ||| ((w <<< 17) >>> 17) := by
    ext i hi; interval_cases i <;> simp
  have k : ((w >>> 20) <<< 20) ||| ((w <<< 17) >>> 17) = ((w >>> 20) <<< 20) + ((w <<< 17) >>> 17) := by
    rw [BitVec.add_eq_or_of_and_eq_zero]
    ext i hi; interval_cases i <;> simp
  rw [h, k]
  apply BitVec.eq_of_toNat_eq
  have := w.isLt
  simp [Nat.shiftLeft_eq, Nat.shiftRight_eq_div_pow]
  omega

theorem and_allOnes (w : Word) : w &&& 0xFFFFFFFF#32 = w := by
  ext i hi; interval_cases i <;> simp

/-- The value of a format V word (R121). -/
theorem encodeV_toNat (opc : Nat) (note : BitVec 16) (h : opc < 64) :
    (encodeV opc note).toNat = opc * 2 ^ 26 + note.toNat := by
  have := note.isLt
  simp only [encodeV, BitVec.toNat_ofNat]
  omega

/-- The value of a format B word (R121). -/
theorem encodeB_toNat (opc rm : Nat) (band : BitVec 16) (h : opc < 64) (k : rm < 4) :
    (encodeB opc rm band).toNat = opc * 2 ^ 26 + rm * 2 ^ 24 + band.toNat := by
  have := band.isLt
  simp only [encodeB, BitVec.toNat_ofNat]
  omega

end Sys2Proof
end

