-- ==== Sys2Proof/Laws/Designer.lean ====
section
/-! SUPPORT. Laws of the designer: the shape of a record, the centre check, and the band plan. -/

namespace Sys2Proof.Machine

open Sys2Proof

theorem stagePoles_length (L : Libm) (bw o0sq : F64) (n : Nat) : (stagePoles L bw o0sq n).length = n / 2 * 2 := by
  simp [stagePoles, List.length_flatMap, pairPoles]

theorem expandStages_length {ps : List (Cplx × Cplx)} {as : List (F64 × F64)} (h : expandStages ps = .ok as) :
    as.length = ps.length := by
  induction ps generalizing as with
  | nil => cases h; rfl
  | cons p ps ih =>
    simp only [expandStages] at h
    repeat' split at h
    all_goals first | (cases h; done) | (cases h; simp [ih ‹_›])

theorem expandStages_error {ps : List (Cplx × Cplx)} {e : FaultCode} (h : expandStages ps = .error e) :
    e = .cfgRootPair := by
  induction ps with
  | nil => cases h
  | cons p ps ih =>
    simp only [expandStages] at h
    repeat' split at h
    all_goals first | (cases h; rfl) | (cases h; exact ih ‹_›) | cases h

theorem convertCoef_error {x : F64} {e : FaultCode} (h : convertCoef x = .error e) : e = .cfgCoefRange := by
  unfold convertCoef at h
  split at h
  · split at h <;> cases h
    rfl
  · cases h; rfl

theorem convertStages_length {as : List (F64 × F64)} {cs : List StageCoef} (h : convertStages as = .ok cs) :
    cs.length = as.length := by
  induction as generalizing cs with
  | nil => cases h; rfl
  | cons a as ih =>
    simp only [convertStages] at h
    split at h <;> cases h
    simp [ih ‹_›]

theorem convertStages_error {as : List (F64 × F64)} {e : FaultCode} (h : convertStages as = .error e) :
    e = .cfgCoefRange := by
  induction as with
  | nil => cases h
  | cons a as ih =>
    simp only [convertStages] at h
    split at h <;> cases h
    · exact ih ‹_›
    · exact convertCoef_error ‹_›
    · exact convertCoef_error ‹_›

/-- Everything `design` can answer (R251, R260, R270): the centre fault when the check fails and only then, a
fault of the later steps, or a record of `n` stages. -/
theorem design_cases (L : Libm) (fc fw : F64) (n : Nat) :
    (fcInRange fc = false ∧ design L fc fw n = .error .cfgFcRange) ∨
    (fcInRange fc = true ∧ (design L fc fw n = .error .cfgRootPair ∨ design L fc fw n = .error .cfgCoefRange)) ∨
    (fcInRange fc = true ∧ ∃ c, design L fc fw n = .ok c ∧ c.stages.length = n / 2 * 2) := by
  cases hc : fcInRange fc
  · exact .inl ⟨rfl, by simp [design, hc]⟩
  · right
    simp only [design, hc, if_true]
    cases he : expandStages (stagePoles L (warpBand L fc fw).1 (warpBand L fc fw).2 n) with
    | error e => left; simp [expandStages_error he]
    | ok as =>
      cases hs : convertStages as with
      | error e => left; simp [hs, convertStages_error hs]
      | ok cs =>
        cases hk : convertCoef (scaleFactor L (warpBand L fc fw).2 as) with
        | error e => left; simp [hs, hk, convertCoef_error hk]
        | ok sc =>
          right
          refine ⟨trivial, ⟨sc, cs⟩, by simp [hs, hk], ?_⟩
          rw [convertStages_length hs, expandStages_length he, stagePoles_length]

/-- A record has `n` stages, for an even order (R250). -/
theorem design_length {L : Libm} {fc fw : F64} {n : Nat} {c : Coef} (he : n % 2 = 0)
    (h : design L fc fw n = .ok c) : c.stages.length = n := by
  rcases design_cases L fc fw n with ⟨_, k⟩ | ⟨_, k | k⟩ | ⟨_, d, k, hl⟩ <;> rw [h] at k <;> cases k
  rw [hl]; omega

/-- Everything the designs of a row of bands can answer (R276, R504): all of them, or the first fault. -/
theorem designAll_cases (dsgn : Nat → Except FaultCode Coef) (b count : Nat) :
    (∃ cs, designAll dsgn b count = .ok cs ∧ cs.length = count ∧
      ∀ (k : Nat) (c : Coef), cs[k]? = some c → dsgn (b + k) = .ok c) ∨
    ∃ k < count, ∃ e, designAll dsgn b count = .error e ∧ dsgn (b + k) = .error e ∧
      ∀ j < k, ∃ c, dsgn (b + j) = .ok c := by
  induction count generalizing b with
  | zero => exact .inl ⟨[], rfl, rfl, by simp⟩
  | succ count ih =>
    simp only [designAll]
    cases hd : dsgn b with
    | error e => exact .inr ⟨0, by omega, e, rfl, hd, by simp⟩
    | ok c =>
      rcases ih (b + 1) with ⟨cs, h, hl, hg⟩ | ⟨k, hk, e, h, he, hj⟩
      · left
        refine ⟨c :: cs, by simp [h], by simp [hl], ?_⟩
        intro k c' hc
        cases k with
        | zero => simp at hc; rw [← hc]; exact hd
        | succ k =>
          rw [List.getElem?_cons_succ] at hc
          rw [show b + (k + 1) = b + 1 + k by omega]; exact hg k c' hc
      · right
        refine ⟨k + 1, by omega, e, by simp [h], ?_, ?_⟩
        · rw [show b + (k + 1) = b + 1 + k by omega]; exact he
        · intro j hjk
          cases j with
          | zero => exact ⟨c, hd⟩
          | succ j => rw [show b + (j + 1) = b + 1 + j by omega]; exact hj j (by omega)

end Sys2Proof.Machine
end

