-- ==== Sys2Proof/Laws/PerInstr.lean ====
section
/-! SUPPORT. What holds of each command as syntax: its encoding belongs to its row of spec/opcode_table.json. -/

namespace Sys2Proof.Laws.EncodeRow

open Sys2Proof

/-- The encoding of a well-formed instruction meets the mask and match of its own row (R126). -/
def Statement (i : Instr) : Prop :=
  i.wellFormed = true → encode i &&& (rowOf i).mask = (rowOf i).pattern

theorem nop : Statement .nop := by unfold Statement; decide

theorem aluAdd : Statement .aluAdd := by unfold Statement; decide

theorem aluSub : Statement .aluSub := by unfold Statement; decide

theorem aluMul : Statement .aluMul := by unfold Statement; decide

theorem aluDiv : Statement .aluDiv := by unfold Statement; decide

theorem aluMulw : Statement .aluMulw := by unfold Statement; decide

theorem aluMacw : Statement .aluMacw := by unfold Statement; decide

theorem aluMsuw : Statement .aluMsuw := by unfold Statement; decide

theorem aluAddw : Statement .aluAddw := by unfold Statement; decide

theorem aluCompact : Statement .aluCompact := by unfold Statement; decide

theorem aluAbs : Statement .aluAbs := by unfold Statement; decide

theorem aluShl (k : BitVec 6) : Statement (.aluShl k) := by
  unfold Statement; revert k; decide

theorem aluShr (k : BitVec 6) : Statement (.aluShr k) := by
  unfold Statement; revert k; decide

theorem aluFromf : Statement .aluFromf := by unfold Statement; decide

theorem aluTof : Statement .aluTof := by unfold Statement; decide

theorem press (note : BitVec 16) : Statement (.press note) := by
  intro _
  have := note.isLt
  simp only [encode, rowOf]
  rw [and_upperHalf, encodeV_toNat _ _ (by omega)]
  apply BitVec.eq_of_toNat_eq
  simp only [BitVec.toNat_ofNat]
  omega

theorem release (note : BitVec 16) : Statement (.release note) := by
  intro _
  have := note.isLt
  simp only [encode, rowOf]
  rw [and_upperHalf, encodeV_toNat _ _ (by omega)]
  apply BitVec.eq_of_toNat_eq
  simp only [BitVec.toNat_ofNat]
  omega

theorem synth : Statement .synth := by unfold Statement; decide

theorem vocode : Statement .vocode := by unfold Statement; decide

theorem sample : Statement .sample := by unfold Statement; decide

theorem cstepMod (band : BitVec 16) : Statement (.cstepMod band) := by
  intro _
  have := band.isLt
  simp only [encode, rowOf]
  rw [and_upperHalf, encodeB_toNat _ _ _ (by omega) (by omega)]
  apply BitVec.eq_of_toNat_eq
  simp only [BitVec.toNat_ofNat]
  omega

theorem cstepCar (band : BitVec 16) : Statement (.cstepCar band) := by
  intro _
  have := band.isLt
  simp only [encode, rowOf]
  rw [and_upperHalf, encodeB_toNat _ _ _ (by omega) (by omega)]
  apply BitVec.eq_of_toNat_eq
  simp only [BitVec.toNat_ofNat]
  omega

theorem designMod (band : BitVec 16) : Statement (.designMod band) := by
  intro _
  have := band.isLt
  simp only [encode, rowOf]
  rw [and_upperHalf, encodeB_toNat _ _ _ (by omega) (by omega)]
  apply BitVec.eq_of_toNat_eq
  simp only [BitVec.toNat_ofNat]
  omega

theorem designCar (band : BitVec 16) : Statement (.designCar band) := by
  intro _
  have := band.isLt
  simp only [encode, rowOf]
  rw [and_upperHalf, encodeB_toNat _ _ _ (by omega) (by omega)]
  apply BitVec.eq_of_toNat_eq
  simp only [BitVec.toNat_ofNat]
  omega

theorem designBoth (band : BitVec 16) : Statement (.designBoth band) := by
  intro _
  have := band.isLt
  simp only [encode, rowOf]
  rw [and_upperHalf, encodeB_toNat _ _ _ (by omega) (by omega)]
  apply BitVec.eq_of_toNat_eq
  simp only [BitVec.toNat_ofNat]
  omega

theorem vinit : Statement .vinit := by unfold Statement; decide

theorem sreset : Statement .sreset := by unfold Statement; decide

end Sys2Proof.Laws.EncodeRow
end

