-- ==== Sys2Proof/Laws/RegSpace.lean ====
section
/-! SUPPORT. Laws of the register space: what a host write leaves alone, one lemma a field. -/

namespace Sys2Proof.Machine

open Sys2Proof

/-! `writeReg` and `writeSlot`. -/

@[simp] theorem writeReg_params (s : State) (v : Word) (r : Reg) : (writeReg s v r).params = s.params := by
  cases r <;> rfl
@[simp] theorem writeReg_pending (s : State) (v : Word) (r : Reg) : (writeReg s v r).pending = s.pending := by
  cases r <;> rfl
@[simp] theorem writeReg_observed (s : State) (v : Word) (r : Reg) : (writeReg s v r).observed = s.observed := by
  cases r <;> rfl
@[simp] theorem writeReg_cmd (s : State) (v : Word) (r : Reg) : (writeReg s v r).cmd = s.cmd := by
  cases r <;> rfl
@[simp] theorem writeReg_status (s : State) (v : Word) (r : Reg) : (writeReg s v r).status = s.status := by
  cases r <;> rfl
@[simp] theorem writeReg_faultCode (s : State) (v : Word) (r : Reg) : (writeReg s v r).faultCode = s.faultCode := by
  cases r <;> rfl
@[simp] theorem writeReg_faultInfo (s : State) (v : Word) (r : Reg) : (writeReg s v r).faultInfo = s.faultInfo := by
  cases r <;> rfl
@[simp] theorem writeReg_ageCnt (s : State) (v : Word) (r : Reg) : (writeReg s v r).ageCnt = s.ageCnt := by
  cases r <;> rfl
@[simp] theorem writeReg_y (s : State) (v : Word) (r : Reg) : (writeReg s v r).y = s.y := by
  cases r <;> rfl
@[simp] theorem writeReg_synOut (s : State) (v : Word) (r : Reg) : (writeReg s v r).synOut = s.synOut := by
  cases r <;> rfl
@[simp] theorem writeReg_vocOut (s : State) (v : Word) (r : Reg) : (writeReg s v r).vocOut = s.vocOut := by
  cases r <;> rfl
@[simp] theorem writeReg_modS (s : State) (v : Word) (r : Reg) : (writeReg s v r).modS = s.modS := by
  cases r <;> rfl
@[simp] theorem writeReg_carS (s : State) (v : Word) (r : Reg) : (writeReg s v r).carS = s.carS := by
  cases r <;> rfl
@[simp] theorem writeReg_gm (s : State) (v : Word) (r : Reg) : (writeReg s v r).gm = s.gm := by
  cases r <;> rfl
@[simp] theorem writeReg_go (s : State) (v : Word) (r : Reg) : (writeReg s v r).go = s.go := by
  cases r <;> rfl
@[simp] theorem writeReg_voices (s : State) (v : Word) (r : Reg) : (writeReg s v r).voices = s.voices := by
  cases r <;> rfl
@[simp] theorem writeReg_viol (s : State) (v : Word) (r : Reg) : (writeReg s v r).viol = s.viol := by
  cases r <;> rfl
@[simp] theorem writeReg_bands (s : State) (v : Word) (r : Reg) : (writeReg s v r).bands = s.bands := by
  cases r <;> rfl
@[simp] theorem writeSlot_params (s : State) (v : Word) (sl : Slot) : (writeSlot s v sl).params = s.params := by
  cases sl <;> simp only [writeSlot, writeReg_params, State.modifyBand_params]
@[simp] theorem writeSlot_pending (s : State) (v : Word) (sl : Slot) : (writeSlot s v sl).pending = s.pending := by
  cases sl <;> simp only [writeSlot, writeReg_pending, State.modifyBand_pending]
@[simp] theorem writeSlot_observed (s : State) (v : Word) (sl : Slot) : (writeSlot s v sl).observed = s.observed := by
  cases sl <;> simp only [writeSlot, writeReg_observed, State.modifyBand_observed]
@[simp] theorem writeSlot_cmd (s : State) (v : Word) (sl : Slot) : (writeSlot s v sl).cmd = s.cmd := by
  cases sl <;> simp only [writeSlot, writeReg_cmd, State.modifyBand_cmd]
@[simp] theorem writeSlot_status (s : State) (v : Word) (sl : Slot) : (writeSlot s v sl).status = s.status := by
  cases sl <;> simp only [writeSlot, writeReg_status, State.modifyBand_status]
@[simp] theorem writeSlot_faultCode (s : State) (v : Word) (sl : Slot) : (writeSlot s v sl).faultCode = s.faultCode := by
  cases sl <;> simp only [writeSlot, writeReg_faultCode, State.modifyBand_faultCode]
@[simp] theorem writeSlot_faultInfo (s : State) (v : Word) (sl : Slot) : (writeSlot s v sl).faultInfo = s.faultInfo := by
  cases sl <;> simp only [writeSlot, writeReg_faultInfo, State.modifyBand_faultInfo]
@[simp] theorem writeSlot_ageCnt (s : State) (v : Word) (sl : Slot) : (writeSlot s v sl).ageCnt = s.ageCnt := by
  cases sl <;> simp only [writeSlot, writeReg_ageCnt, State.modifyBand_ageCnt]
@[simp] theorem writeSlot_y (s : State) (v : Word) (sl : Slot) : (writeSlot s v sl).y = s.y := by
  cases sl <;> simp only [writeSlot, writeReg_y, State.modifyBand_y]
@[simp] theorem writeSlot_synOut (s : State) (v : Word) (sl : Slot) : (writeSlot s v sl).synOut = s.synOut := by
  cases sl <;> simp only [writeSlot, writeReg_synOut, State.modifyBand_synOut]
@[simp] theorem writeSlot_vocOut (s : State) (v : Word) (sl : Slot) : (writeSlot s v sl).vocOut = s.vocOut := by
  cases sl <;> simp only [writeSlot, writeReg_vocOut, State.modifyBand_vocOut]
@[simp] theorem writeSlot_modS (s : State) (v : Word) (sl : Slot) : (writeSlot s v sl).modS = s.modS := by
  cases sl <;> simp only [writeSlot, writeReg_modS, State.modifyBand_modS]
@[simp] theorem writeSlot_carS (s : State) (v : Word) (sl : Slot) : (writeSlot s v sl).carS = s.carS := by
  cases sl <;> simp only [writeSlot, writeReg_carS, State.modifyBand_carS]
@[simp] theorem writeSlot_gm (s : State) (v : Word) (sl : Slot) : (writeSlot s v sl).gm = s.gm := by
  cases sl <;> simp only [writeSlot, writeReg_gm, State.modifyBand_gm]
@[simp] theorem writeSlot_go (s : State) (v : Word) (sl : Slot) : (writeSlot s v sl).go = s.go := by
  cases sl <;> simp only [writeSlot, writeReg_go, State.modifyBand_go]
@[simp] theorem writeSlot_voices (s : State) (v : Word) (sl : Slot) : (writeSlot s v sl).voices = s.voices := by
  cases sl <;> simp only [writeSlot, writeReg_voices, State.modifyBand_voices]
@[simp] theorem writeSlot_viol (s : State) (v : Word) (sl : Slot) : (writeSlot s v sl).viol = s.viol := by
  cases sl <;> simp only [writeSlot, writeReg_viol, State.modifyBand_viol]

/-- `FAULT` is a bit of `STATUS` (R39). -/
theorem faulted_of_status {s t : State} (h : t.status = s.status) : t.faulted = s.faulted := by
  unfold State.faulted; rw [h]

@[simp] theorem writeSlot_faulted (s : State) (v : Word) (sl : Slot) : (writeSlot s v sl).faulted = s.faulted :=
  faulted_of_status (writeSlot_status s v sl)

@[simp] theorem raise_params (s : State) (c : FaultCode) (i : Word) : (s.raise c i).params = s.params := by
  unfold State.raise; split <;> rfl
@[simp] theorem raise_viol (s : State) (c : FaultCode) (i : Word) : (s.raise c i).viol = s.viol := by
  unfold State.raise; split <;> rfl

/-- A reset block is not faulted (R601). -/
@[simp] theorem resetWith_faulted (p : Params) : (State.resetWith p).faulted = false := by
  simp [State.faulted, State.resetWith]

@[simp] theorem doReset_faulted (s : State) : s.doReset.faulted = false :=
  (faulted_of_status (s.doReset_status)).trans (resetWith_faulted s.params)

/-- A command that raises nothing leaves `FAULT` as it is. -/
theorem State.Keeps.faulted {s t : State} (h : s.Keeps t) : t.faulted = s.faulted := by
  unfold State.faulted
  rcases h.status with e | e
  · rw [e]
  · rw [e]; exact (statusSetCfgDone_bits _).2

theorem append_getLsbD (h l : Word) (i : Nat) :
    (h ++ l : BitVec 64).getLsbD i = if i < 32 then l.getLsbD i else h.getLsbD (i - 32) :=
  (BitVec.getLsbD_append (x := h) (y := l) (i := i)).trans (by by_cases hi : i < 32 <;> simp [hi])

theorem loWord_append (h l : Word) : loWord (h ++ l : BitVec 64) = l := by
  apply BitVec.eq_of_getLsbD_eq; intro i hi
  rw [loWord, BitVec.getLsbD_extractLsb', append_getLsbD]; simp [hi]

theorem hiWord_append (h l : Word) : hiWord (h ++ l : BitVec 64) = h := by
  apply BitVec.eq_of_getLsbD_eq; intro i hi
  rw [hiWord, BitVec.getLsbD_extractLsb', append_getLsbD]; simp [hi]

/-- A written half is read back, and the other half is kept (R34, R87). -/
@[simp] theorem loWord_withLo (x : BitVec 64) (v : Word) : loWord (withLo x v) = v := loWord_append _ _
@[simp] theorem hiWord_withLo (x : BitVec 64) (v : Word) : hiWord (withLo x v) = hiWord x := hiWord_append _ _
@[simp] theorem hiWord_withHi (x : BitVec 64) (v : Word) : hiWord (withHi x v) = v := hiWord_append _ _
@[simp] theorem loWord_withHi (x : BitVec 64) (v : Word) : loWord (withHi x v) = loWord x := loWord_append _ _

/-- The two words of a register, joined (R83). -/
theorem hiWord_append_loWord (x : BitVec 64) : (hiWord x ++ loWord x : BitVec 64) = x := by
  apply BitVec.eq_of_getLsbD_eq; intro i hi
  rw [append_getLsbD, hiWord, loWord, BitVec.getLsbD_extractLsb', BitVec.getLsbD_extractLsb']
  by_cases h : i < 32
  · simp [h]
  · simp [h, show i - 32 < 32 by omega, show 32 + (i - 32) = i by omega]

end Sys2Proof.Machine
end

