-- ==== Sys2Proof/Laws/Synth.lean ====
section
/-! SUPPORT. Laws of the voice pool: what a tick leaves, what the voice loop writes, and its sum. -/

namespace Sys2Proof.Machine

open Sys2Proof

/-- The envelope tick writes the envelope and the state only (R371). -/
theorem adsrTick_frame (eps : Word) (sn : Snap) (v : Voice) :
    (adsrTick eps sn v).val = { v with env := (adsrTick eps sn v).val.env, state := (adsrTick eps sn v).val.state } := by
  unfold adsrTick
  split
  · rfl
  · simp only [Marked.bind_val]; split <;> rfl

/-- What one sample leaves alone in a voice, and its phase and noise (R22, R378, R379, R384, R388). -/
theorem voiceTick_fields (p : Params) (sn : Snap) (v : Voice) :
    (voiceTick p sn v).val.note = v.note ∧ (voiceTick p sn v).val.age = v.age ∧
    (voiceTick p sn v).val.inc = v.inc ∧
    (voiceTick p sn v).val.env = (adsrTick p.eps sn v).val.env ∧
    (voiceTick p sn v).val.state = (adsrTick p.eps sn v).val.state ∧
    (voiceTick p sn v).val.noise = (noiseNext p.noiseGen v.noise).1 ∧
    (voiceTick p sn v).val.phase = modOne (fxAdd v.phase (fxMul v.inc sn.tuning).val).val := by
  have h := adsrTick_frame p.eps sn v
  generalize hw : (adsrTick p.eps sn v).val = w at h
  have t : (voiceTick p sn v).val = { w with
      phase := modOne (fxAdd w.phase (fxMul w.inc sn.tuning).val).val
      noise := (noiseNext p.noiseGen w.noise).1
      last := (voiceTick p sn v).val.last } := by rw [← hw]; rfl
  rw [t, h]
  exact ⟨rfl, rfl, rfl, rfl, rfl, rfl, rfl⟩

/-- The noise step of the two kinds of generator (R22, R384). -/
@[simp] theorem noiseNext_lcg (n : BitVec 32) : noiseNext .lcg n = (lcgNext n, lcgWord (lcgNext n)) := rfl
@[simp] theorem noiseNext_other (n : BitVec 32) : noiseNext .other n = Config.otherNoise n := rfl

/-- The default generator in arithmetic (R384). -/
theorem lcgNext_toNat (n : BitVec 32) : (lcgNext n).toNat = (1664525 * n.toNat + 1013904223) % 2 ^ 32 := by
  unfold lcgNext
  rw [BitVec.toNat_add, BitVec.toNat_mul]
  generalize n.toNat = m
  rw [show (1664525#32).toNat = 1664525 by decide, show (1013904223#32).toNat = 1013904223 by decide]
  omega

/-- Every voice is ticked, on its own (R387). -/
theorem runVoices_voices (p : Params) (sn : Snap) (acc : Wide) (vs : List Voice) :
    (runVoices p sn acc vs).val.2 = vs.map fun v => (voiceTick p sn v).val := by
  induction vs generalizing acc with
  | nil => rfl
  | cons v vs ih => simp only [runVoices, Marked.bind_val, Marked.map_val, ih, List.map_cons]

/-- The voice sum, when nothing overflows (R387). -/
theorem runVoices_clean {p : Params} {sn : Snap} {acc : Wide} {vs : List Voice}
    (h : (runVoices p sn acc vs).marks = Marks.empty) :
    (runVoices p sn acc vs).val.1.toInt = acc.toInt +
      ((vs.map fun v => (voiceTick p sn v).val).map fun v => v.last.toInt * v.env.toInt).sum := by
  induction vs generalizing acc with
  | nil => simp [runVoices]
  | cons v vs ih =>
    simp only [runVoices, Marked.bind_marks, Marked.map_marks, Marks.union_eq_empty] at h
    have h1 := ih h.2.2
    have h2 := (widen_clean h.2.1).1
    simp only [runVoices, Marked.bind_val, Marked.map_val, List.map_cons, List.sum_cons]
    rw [h1, fxMacw, h2]
    ring

/-- A voice loop without a mark ticks every voice without one. -/
theorem runVoices_ticks_clean {p : Params} {sn : Snap} {acc : Wide} {vs : List Voice}
    (h : (runVoices p sn acc vs).marks = Marks.empty) : ∀ v ∈ vs, (voiceTick p sn v).marks = Marks.empty := by
  induction vs generalizing acc with
  | nil => simp
  | cons v vs ih =>
    simp only [runVoices, Marked.bind_marks, Marked.map_marks, Marks.union_eq_empty] at h
    simp only [List.mem_cons, forall_eq_or_imp]
    exact ⟨h.1, ih h.2.2⟩

theorem naive_pressFree (ph shape : Word) : (naive ph shape).marks.PressFree :=
  Marked.bind_pressFree (narrow_pressFree _) fun _ => Marked.bind_pressFree (narrow_pressFree _) fun _ =>
    Marked.bind_pressFree (narrow_pressFree _) fun _ => Marked.bind_pressFree (narrow_pressFree _) fun _ =>
      narrow_pressFree _

theorem runTaps_pressFree (phase step shape : Word) (acc : Wide) (ts : List Tap) :
    (runTaps phase step shape acc ts).marks.PressFree := by
  induction ts generalizing acc with
  | nil => exact Marked.pure_pressFree _
  | cons t ts ih =>
    exact Marked.bind_pressFree (narrow_pressFree _) fun _ => Marked.bind_pressFree (narrow_pressFree _) fun _ =>
      Marked.bind_pressFree (naive_pressFree _ _) fun _ => Marked.bind_pressFree (widen_pressFree _) fun _ => ih _

theorem adsrTick_pressFree (eps : Word) (sn : Snap) (v : Voice) : (adsrTick eps sn v).marks.PressFree := by
  unfold adsrTick
  split
  · exact Marked.pure_pressFree _
  · refine Marked.bind_pressFree (narrow_pressFree _) fun _ => Marked.bind_pressFree (narrow_pressFree _) fun _ => ?_
    split
    · exact Marked.pure_pressFree _
    · exact Marked.bind_pressFree (narrow_pressFree _) fun _ => narrow_pressFree _

theorem mixNoise_pressFree (osc noise gain : Word) : (mixNoise osc noise gain).marks.PressFree :=
  Marked.bind_pressFree (narrow_pressFree _) fun _ => Marked.bind_pressFree (narrow_pressFree _) fun _ =>
    narrow_pressFree _

theorem voiceTick_pressFree (p : Params) (sn : Snap) (v : Voice) : (voiceTick p sn v).marks.PressFree :=
  Marked.bind_pressFree (adsrTick_pressFree _ _ _) fun _ => Marked.bind_pressFree (narrow_pressFree _) fun _ =>
    Marked.bind_pressFree (narrow_pressFree _) fun _ =>
      Marked.bind_pressFree (Marked.bind_pressFree (runTaps_pressFree _ _ _ _ _) fun _ => narrow_pressFree _) fun _ =>
        mixNoise_pressFree _ _ _

theorem runVoices_pressFree (p : Params) (sn : Snap) (acc : Wide) (vs : List Voice) :
    (runVoices p sn acc vs).marks.PressFree := by
  induction vs generalizing acc with
  | nil => exact Marked.pure_pressFree _
  | cons v vs ih =>
    exact Marked.bind_pressFree (voiceTick_pressFree _ _ _) fun _ =>
      Marked.bind_pressFree (widen_pressFree _) fun _ => ih _

/-- A synthesizer sample sets no mark of a press (R388). -/
theorem synthProcess_pressFree (sn : Snap) (s : State) : (synthProcess sn s).marks.PressFree :=
  Marked.bind_pressFree (runVoices_pressFree _ _ _ _) fun _ => narrow_pressFree _

/-- The pool after `SYNTH` (R387, R388). -/
theorem synthProcess_voices (sn : Snap) (s : State) :
    (synthProcess sn s).val.voices = s.voices.map fun v => (voiceTick s.params sn v).val :=
  runVoices_voices _ _ _ _

/-- Everything a tick of the envelope can do (R370, R371): nothing in `SUSTAIN`; else a snap to the target
with the next state, or a move with the state kept. -/
theorem adsrTick_cases (eps : Word) (sn : Snap) (v : Voice) :
    (v.state = .sustain ∧ adsrTick eps sn v = Marked.pure v) ∨
    ∃ tgt rate nxt, adsrRow sn v.state = some (tgt, rate, nxt) ∧
      (((fxAbs (fxSub tgt v.env).val).val.toInt ≤ eps.toInt ∧
          (adsrTick eps sn v).val = { v with env := tgt, state := nxt }) ∨
        (eps.toInt < (fxAbs (fxSub tgt v.env).val).val.toInt ∧
          (adsrTick eps sn v).val = { v with env := (fxLerp v.env tgt rate).val })) := by
  cases hs : v.state
  case sustain => left; exact ⟨rfl, by simp [adsrTick, hs, adsrRow]⟩
  all_goals
    right
    simp only [adsrRow]
    refine ⟨_, _, _, rfl, ?_⟩
    simp only [adsrTick, hs, adsrRow, Marked.bind_val]
    split
    · exact .inl ⟨‹_›, rfl⟩
    · exact .inr ⟨by omega, by simp [fxLerp]⟩

/-- A word below `ONE` as an integer (R379). -/
theorem modOne_toInt (x : Word) : (modOne x).toInt = x.toNat % 2 ^ 29 ∧ 0 ≤ (modOne x).toInt ∧ (modOne x).toInt < 2 ^ 29 := by
  have h := modOne_lt x
  have e := modOne_toNat x
  have k : (modOne x).toInt = (modOne x).toNat := by
    rw [BitVec.toInt_eq_toNat_cond]; split <;> omega
  rw [k, e]
  have : x.toNat % 2 ^ 29 < 2 ^ 29 := Nat.mod_lt _ (by norm_num)
  refine ⟨by push_cast; rfl, by positivity, by exact_mod_cast this⟩

end Sys2Proof.Machine
end

