-- ==== Sys2Proof/Laws/Vocoder.lean ====
section
/-! SUPPORT. Laws of the vocoder: what the band loop writes, and its sum. -/

namespace Sys2Proof.Machine

open Sys2Proof

/-- The band after one sample (R332); the accumulator has no part in it. -/
def bandAfter (kEnv modS carS : Word) (bd : Band) : Band :=
  { bd with
    histMod := (cascadeStep bd.coefMod bd.histMod modS).val.1
    histCar := (cascadeStep bd.coefCar bd.histCar carS).val.1
    env := (fxLerp bd.env (fxAbs (cascadeStep bd.coefMod bd.histMod modS).val.2).val kEnv).val }

theorem bandStep_band (kEnv modS carS : Word) (acc : Wide) (bd : Band) :
    (bandStep kEnv modS carS acc bd).val.2 = bandAfter kEnv modS carS bd := rfl

/-- The accumulator after one band (R332). -/
theorem bandStep_acc (kEnv modS carS : Word) (acc : Wide) (bd : Band) :
    (bandStep kEnv modS carS acc bd).val.1 =
      (fxMacw acc (cascadeStep bd.coefCar bd.histCar carS).val.2 (bandAfter kEnv modS carS bd).env).val := rfl

/-- Every band is stepped, on its own (R332). -/
theorem runBands_bands (kEnv modS carS : Word) (acc : Wide) (bds : List Band) :
    (runBands kEnv modS carS acc bds).val.2 = bds.map (bandAfter kEnv modS carS) := by
  induction bds generalizing acc with
  | nil => rfl
  | cons bd bds ih => simp only [runBands, Marked.bind_val, Marked.map_val, ih, bandStep_band, List.map_cons]

/-- The band sum, when nothing overflows (R332, R333). -/
theorem runBands_clean {kEnv modS carS : Word} {acc : Wide} {bds : List Band}
    (h : (runBands kEnv modS carS acc bds).marks = Marks.empty) :
    (runBands kEnv modS carS acc bds).val.1.toInt = acc.toInt +
      ((bds.map (bandAfter kEnv modS carS)).map fun bd =>
        (bd.histCar.yh.getLastD Win.zero).w0.toInt * bd.env.toInt).sum := by
  induction bds generalizing acc with
  | nil => simp [runBands]
  | cons bd bds ih =>
    simp only [runBands, Marked.bind_marks, Marked.map_marks, Marks.union_eq_empty] at h
    have h1 := ih h.2
    have h2 : (fxMacw acc (cascadeStep bd.coefCar bd.histCar carS).val.2
        (bandAfter kEnv modS carS bd).env).marks = Marks.empty := by
      have := h.1
      simp only [bandStep, Marked.bind_marks, Marked.map_marks, Marks.union_eq_empty] at this
      exact this.2.2.2.2
    have h3 := (widen_clean h2).1
    simp only [runBands, Marked.bind_val, Marked.map_val, List.map_cons, List.sum_cons]
    rw [h1, bandStep_acc, fxMacw, h3, cascadeStep_out]
    simp only [bandAfter]
    ring

theorem vocoderProcess_bands (sn : Snap) (m c : Word) (s : State) :
    (vocoderProcess sn m c s).val.bands =
      s.bands.map (bandAfter s.params.kEnv (vocoderProcess sn m c s).val.modS (vocoderProcess sn m c s).val.carS) :=
  runBands_bands _ _ _ _ _

theorem vocoderProcess_modS (sn : Snap) (m c : Word) (s : State) :
    (vocoderProcess sn m c s).val.modS = (fxLerp s.modS m s.params.kPre).val := rfl

theorem vocoderProcess_carS (sn : Snap) (m c : Word) (s : State) :
    (vocoderProcess sn m c s).val.carS = (fxLerp s.carS c s.params.kPre).val := rfl

theorem bandStep_pressFree (kEnv modS carS : Word) (acc : Wide) (bd : Band) :
    (bandStep kEnv modS carS acc bd).marks.PressFree :=
  Marked.bind_pressFree (cascadeStep_pressFree _ _ _) fun _ => Marked.bind_pressFree (narrow_pressFree _) fun _ =>
    Marked.bind_pressFree (fxLerp_pressFree _ _ _) fun _ =>
      Marked.bind_pressFree (cascadeStep_pressFree _ _ _) fun _ => widen_pressFree _

theorem runBands_pressFree (kEnv modS carS : Word) (acc : Wide) (bds : List Band) :
    (runBands kEnv modS carS acc bds).marks.PressFree := by
  induction bds generalizing acc with
  | nil => exact Marked.pure_pressFree _
  | cons bd bds ih => exact Marked.bind_pressFree (bandStep_pressFree _ _ _ _ _) fun _ => ih _

theorem fxDiv_pressFree {a b : Word} {r : Marked Word} (h : fxDiv a b = some r) : r.marks.PressFree := by
  unfold fxDiv at h
  split at h
  · cases h
  · cases h; exact narrow_pressFree _

theorem autoGain_pressFree (e : Bool) (k m : Word) (g : Gain) : (autoGain e k m g).marks.PressFree := by
  unfold autoGain
  split
  · refine Marked.bind_pressFree (narrow_pressFree _) fun _ => Marked.bind_pressFree (fxLerp_pressFree _ _ _) fun _ =>
      Marked.bind_pressFree (narrow_pressFree _) fun _ => Marked.bind_pressFree (fxLerp_pressFree _ _ _) fun _ => ?_
    split
    · exact Marked.pure_pressFree _
    · exact Marked.bind_pressFree (fxDiv_pressFree ‹_›) fun _ => narrow_pressFree _
  · exact Marked.pure_pressFree _

/-- A vocoder sample sets no mark of a press (R337). -/
theorem vocoderProcess_pressFree (sn : Snap) (m c : Word) (s : State) : (vocoderProcess sn m c s).marks.PressFree :=
  Marked.bind_pressFree (fxLerp_pressFree _ _ _) fun _ => Marked.bind_pressFree (fxLerp_pressFree _ _ _) fun _ =>
    Marked.bind_pressFree (runBands_pressFree _ _ _ _ _) fun _ => Marked.bind_pressFree (narrow_pressFree _) fun _ =>
      Marked.bind_pressFree (autoGain_pressFree _ _ _ _) fun _ => narrow_pressFree _

/-- With auto-gain off the step passes its input on (R338). -/
@[simp] theorem autoGain_off (k m : Word) (g : Gain) : autoGain false k m g = Marked.pure g := rfl

end Sys2Proof.Machine
end

