-- ==== Sys2Proof/Tests/Slice0.lean ====
section
/-! SUPPORT. Tests of the model. Expected values come from spec/95_test_vectors.md (the vector is named in
each docstring) or from the worked words of spec/30_encoding.md, never from the model. -/

namespace Sys2Proof.Tests

set_option Elab.async false

open Sys2Proof Sys2Proof.Machine

/-! ## Well-formedness and decoding -/

theorem test_wellFormed_refuses_shl_32 : (Instr.aluShl 32).wellFormed = false := by decide

theorem test_wellFormed_refuses_shr_63 : (Instr.aluShr 63).wellFormed = false := by decide

/-- Format N words of R123. -/
theorem test_decode_formatN :
    [0x00000000#32, 0x10000000#32, 0x14000000#32, 0x18000000#32, 0x24000000#32, 0xFC000000#32].map
      (fun w => (decode w).toOption) =
    [some .nop, some .synth, some .vocode, some .sample, some .vinit, some .sreset] := by decide

/-- The words of R210 to R213, R218, R219, R222, R223. -/
theorem test_decode_alu_narrow :
    [0x04000000#32, 0x04200000#32, 0x04400000#32, 0x04600000#32, 0x05000000#32, 0x05200000#32,
      0x05800000#32, 0x05A00000#32].map (fun w => (decode w).toOption) =
    [some .aluAdd, some .aluSub, some .aluMul, some .aluDiv, some .aluCompact, some .aluAbs,
      some .aluFromf, some .aluTof] := by decide

/-- The words of R214 to R217. -/
theorem test_decode_alu_wide :
    [0x04800000#32, 0x04A00000#32, 0x04C00000#32, 0x04E00000#32].map (fun w => (decode w).toOption) =
    [some .aluMulw, some .aluMacw, some .aluMsuw, some .aluAddw] := by decide

/-- T16 X-5 and X-6. -/
theorem test_decode_shifts :
    (decode 0x05408000#32).toOption = some (.aluShl 1) ∧
    (decode 0x056F8000#32).toOption = some (.aluShr 31) := by decide

/-- T16 X-10, X-13. -/
theorem test_decode_voice :
    (decode 0x08000003#32).toOption = some (.press 3) ∧
    (decode 0x0C000002#32).toOption = some (.release 2) := by decide

/-- T16 X-14, X-15, X-19 and the rows of DESIGN (R272). -/
theorem test_decode_band :
    [0x1D000000#32, 0x1E000000#32, 0x21000002#32, 0x22000002#32, 0x23000001#32].map
      (fun w => (decode w).toOption) =
    [some (.cstepMod 0), some (.cstepCar 0), some (.designMod 2), some (.designCar 2),
      some (.designBoth 1)] := by decide

/-- T16 X-2, X-4, X-7 to X-9, X-11, X-16 to X-18, X-20, X-22, X-23, X-25: illegal words. -/
theorem test_decode_illegal :
    [0x00000001#32, 0x04008000#32, 0x05500000#32, 0x05C00000#32, 0x04000001#32, 0x08010000#32,
      0x1F000000#32, 0x1C000000#32, 0x20000000#32, 0x21800000#32, 0x28000000#32, 0xF8000000#32,
      0xFC000001#32].map (fun w => (decode w).toOption) = List.replicate 13 none := by decide

/-! ## Configurations of T2 -/

/-- Configuration S with `BANDS = 1`, `NS = 2` and the rates of program 5 (T2, T38). -/
def paramsS : Params where
  ns := 2
  bands := 1
  voices := 2
  noteInc := [0x0051BBF7#32, 0x00A377EE#32, 0x0028DDFB#32, 0x00146EFD#32]
  taps := [⟨0xF0000000#32, 0x08000000#32⟩, ⟨0, 0x10000000#32⟩, ⟨0x10000000#32, 0x08000000#32⟩]
  eps := 0x00020000#32
  kPre := oneWord
  kEnv := 0x02000000#32
  kAg := 0x02000000#32
  rstAttack := 0x02000000#32
  rstDecay := 0x00200000#32
  rstSustain := 0x10000000#32
  rstRelease := 0x00200000#32
  noiseGen := .lcg

def resetS : State := State.resetWith paramsS

/-- The state an outcome goes on from; the given state when it stops. -/
def after (s : State) : Host.Outcome State Fault Refusal → State
  | .next t => t
  | .fault _ => s
  | .refused _ => s

/-- Runs one command on a state. -/
def run (i : Instr) (s : State) : State := after s (exec i s)

def aluState (a b : Word) : State := { resetS with a := a, b := b }

def accState (acc : Wide) (a b : Word) : State := { resetS with acc := acc, a := a, b := b }

/-- `Y` and `V_RANGE` after a narrow operation. -/
def narrowOut (i : Instr) (a b : Word) : Word × Bool :=
  ((run i (aluState a b)).y, (run i (aluState a b)).viol.range)

/-- `ACC` and `V_ACC` after a wide operation. -/
def wideOut (i : Instr) (acc : Wide) (a b : Word) : Wide × Bool :=
  ((run i (accState acc a b)).acc, (run i (accState acc a b)).viol.acc)

/-! ## The arithmetic unit -/

/-- T12 A-1, A-4. -/
theorem test_add : narrowOut .aluAdd 0x30000000#32 0x40000000#32 = (0x70000000#32, false) ∧
    narrowOut .aluAdd 0x7FFFFFFF#32 1 = (0x80000000#32, true) := by decide +kernel

/-- T12 A-5, A-7. -/
theorem test_sub : narrowOut .aluSub 0x08000000#32 0x20000000#32 = (0xE8000000#32, false) ∧
    narrowOut .aluSub 0 0x80000000#32 = (0x80000000#32, true) := by decide +kernel

/-- T12 A-9, A-11, A-16. -/
theorem test_mul : narrowOut .aluMul 1 0xF0000000#32 = (0xFFFFFFFF#32, false) ∧
    narrowOut .aluMul 0x60000000#32 0x40000000#32 = (0xC0000000#32, true) ∧
    narrowOut .aluMul 0x7FFFFFFF#32 0x7FFFFFFF#32 = (0xFFFFFFF8#32, true) := by decide +kernel

/-- T12 A-19, A-20, A-22. -/
theorem test_div : narrowOut .aluDiv 0xE0000000#32 0x60000000#32 = (0xF5555556#32, false) ∧
    narrowOut .aluDiv 0x20000000#32 0xA0000000#32 = (0xF5555556#32, false) ∧
    narrowOut .aluDiv 0x40000000#32 0x08000000#32 = (0, true) := by decide +kernel

/-- T13 W-1, W-3. -/
theorem test_mulw : wideOut .aluMulw 7 0x30000000#32 0xF0000000#32 = (0xFD00000000000000#64, false) ∧
    wideOut .aluMulw 0 0x7FFFFFFF#32 0x80000000#32 = (0xC000000080000000#64, false) := by decide +kernel

/-- T13 W-4, W-5. -/
theorem test_macw :
    wideOut .aluMacw 0xFD00000000000000#64 0x10000000#32 0x10000000#32 = (0xFE00000000000000#64, false) ∧
    wideOut .aluMacw 0x7FFFFFFFFFFFFFFF#64 1 1 = (0x8000000000000000#64, true) := by decide +kernel

/-- T13 W-6, W-7. -/
theorem test_msuw : wideOut .aluMsuw 0 0x10000000#32 0x10000000#32 = (0xFF00000000000000#64, false) ∧
    wideOut .aluMsuw 0x8000000000000000#64 1 1 = (0x7FFFFFFFFFFFFFFF#64, true) := by decide +kernel

/-- T13 W-9, W-10. -/
theorem test_addw : wideOut .aluAddw 0 0xFFFFFFFF#32 5 = (0xFFFFFFFFE0000000#64, false) ∧
    wideOut .aluAddw 0x7FFFFFFFFFFFFFFF#64 1 5 = (0x800000001FFFFFFF#64, true) := by decide +kernel

/-- T13 W-12, W-14. -/
theorem test_compact : (run .aluCompact (accState 0xFFFFFFFFFFFFFFFF#64 0 0)).y = 0xFFFFFFFF#32 ∧
    (run .aluCompact (accState 0x4000000000000000#64 0 0)).y = 0 ∧
    (run .aluCompact (accState 0x4000000000000000#64 0 0)).viol.range = true := by decide +kernel

/-- T12 A-28, A-29. -/
theorem test_abs : narrowOut .aluAbs 0xB0000000#32 0 = (0x50000000#32, false) ∧
    narrowOut .aluAbs 0x80000000#32 0 = (0x80000000#32, true) := by decide +kernel

/-- T12 A-33, A-34. -/
theorem test_shl : narrowOut (.aluShl 2) 0x20000000#32 0 = (0x80000000#32, true) ∧
    narrowOut (.aluShl 31) 0xFFFFFFFF#32 0 = (0x80000000#32, false) := by decide +kernel

/-- T12 A-37, A-40. -/
theorem test_shr : narrowOut (.aluShr 31) 0xFFFFFFFF#32 0 = (0xFFFFFFFF#32, false) ∧
    narrowOut (.aluShr 1) 0xFFFFFFFB#32 0 = (0xFFFFFFFD#32, false) := by decide +kernel

/-- T14 F-1, F-2, F-3, F-6, F-10, F-11. -/
theorem test_fromf :
    [0x3FB999999999999A#64, 0xBFB999999999999A#64, 0xC010000000000000#64, 0x8000000000000000#64,
      0xC010000000100000#64, 0x3FF0000000000000#64].map (fun x => (run .aluFromf { resetS with f := x }).y) =
    [0x03333333#32, 0xFCCCCCCD#32, 0x80000000#32, 0, 0x80000000#32, 0x20000000#32] := by decide +kernel

/-- T14 F-4, F-7, F-8, F-9 and T33 E-9: `FLOAT_RANGE`, code 9. -/
theorem test_fromf_faults :
    [0x4010000000000000#64, 0x7FF8000000000000#64, 0x7FF0000000000000#64, 0xC010000000200000#64].map
      (fun x => (run .aluFromf { resetS with f := x }).faultCode) = [9, 9, 9, 9] := by decide +kernel

/-- T14 F-12 to F-16. -/
theorem test_tof :
    [0x03333333#32, 0x00000000#32, 0x80000000#32, 0x00000001#32, 0x7FFFFFFF#32].map
      (fun x => (run .aluTof (aluState x 0)).f) =
    [0x3FB9999998000000#64, 0x0000000000000000#64, 0xC010000000000000#64, 0x3E20000000000000#64,
      0x400FFFFFFFC00000#64] := by decide +kernel

/-! ## Faults -/

/-- T33 E-1: the fault record of a division by zero, through a step. -/
theorem test_step_div_zero :
    (fun t => (t.status, t.faultCode, t.faultInfo, t.y, t.cmd))
      (after resetS (step ((aluState 0x20000000#32 0).withFetchWord 32 0x04600000))) =
    (1#32, 1#32, 0x04600000#32, 0#32, 0x04600000#32) := by decide +kernel

/-- T33 E-5 and the priority of R504 (`CSTEP` with `RM = 11` is illegal, not a bad band). -/
theorem test_step_illegal :
    (fun t => (t.status, t.faultCode, t.faultInfo))
      (after resetS (step (resetS.withFetchWord 32 0x1F000001))) = (1#32, 5#32, 0x1F000001#32) := by
  decide +kernel

/-- T37 actions 6 and 8: while faulted `alu.add` is ignored and `sreset` resets. -/
theorem test_step_faulted :
    (after resetS (step ({ aluState 3 4 with status := 1, faultCode := 1 }.withFetchWord 32 0x04000000))).y = 0 ∧
    (after resetS (step ({ aluState 3 4 with status := 1, faultCode := 1 }.withFetchWord 32 0xFC000000))) =
      resetS := by decide +kernel

/-- T17: the fixed mapping of `BANDS = 1`, `NS = 2`, `V = 2`, and its holes. -/
theorem test_slots :
    [0x0006#16, 0x0011#16, 0x0034#16, 0x1005#16, 0x1080#16, 0x4001#16, 0x5009#16, 0x8010#16].map
      (slotOf paramsS) = List.replicate 8 Slot.unmapped ∧
    [0x1004#16, 0x1041#16, 0x5008#16, 0x5042#16, 0x4000#16, 0x800F#16].map (slotOf paramsS) =
      [.a2 .modulator 0 1, .a1 .carrier 0 0, .yh .modulator 0 1 2, .xin .carrier 0 2, .env 0,
        .voice 1 .last] := by decide +kernel

/-- T33 E-8: a read of an unmapped address returns 0 and faults. -/
theorem test_read_unmapped :
    (fun t => (t.status, t.faultCode, t.faultInfo, t.observed))
      (after resetS (step (resetS.loadActions [.rd 0x0006#16]))) = (1#32, 8#32, 6#32, [0#32]) := by
  decide +kernel

/-- T17: `CTRL` keeps bit 0 alone; a write of `STATUS` faults. -/
theorem test_host_writes :
    (after resetS (step (resetS.loadActions [.wr 0x0004#16 0xFFFFFFFF#32]))).ctrl = 1 ∧
    (after resetS (step (resetS.loadActions [.wr 0x0001#16 0x12345678#32]))).faultInfo = 1 := by
  decide +kernel

/-- T17: `ACC_LO` alone, then `alu.compact`. -/
theorem test_half_written_acc :
    (run .aluCompact (after resetS (step (resetS.loadActions [.wr 0x000B#16 0xFFFFFFFF#32])))).y = 7 := by
  decide +kernel

/-! ## The cascade, the designer and the vocoder -/

/-- The D4 coefficients (T18 D-4). -/
def coefD4 : Coef :=
  ⟨0x095F6199#32, [⟨0xE2DFCEC8#32, 0x0D413CCC#32⟩, ⟨0x1D203138#32, 0x0D413CCC#32⟩]⟩

/-- A band that holds D4 in both roles, at rest. -/
def bandD4 : Band := ⟨coefD4, coefD4, Hist.zero 2, Hist.zero 2, 0⟩

/-- T36 actions 5 and 7: D4's impulse response begins 0x095F6199, 0xFFFFFFFF. -/
theorem test_cstepMod :
    (run (.cstepMod 0) { resetS with bands := [bandD4], a := oneWord }).y = 0x095F6199#32 ∧
    (run (.cstepMod 0) { run (.cstepMod 0) { resetS with bands := [bandD4], a := oneWord } with a := 0 }).y =
      0xFFFFFFFF#32 := by decide +kernel

/-- T21 B6: the carrier's history alone moves. -/
theorem test_cstepCar :
    (fun bd : Band => (bd.histMod, bd.histCar.xin))
      ((run (.cstepCar 0) { resetS with bands := [bandD4], a := oneWord }).band 0) =
    (Hist.zero 2, (⟨oneWord, 0, 0⟩ : Win)) := by decide +kernel

/-- T21 B5: `BAD_BAND`, code 7. -/
theorem test_cstep_badBand : (run (.cstepMod 1) resetS).faultCode = 7 := by decide +kernel

/-- The libm of T1 on the arguments that D4 meets, with the usual complex product and the scaled complex
quotient. -/
def libmD4 : Libm where
  tan x := if x = 0x3FD921FB54442D18#64 then 0x3FDA827999FCEF32#64 else 0x4003504F333F9DE6#64
  atan _ := 0x3FE921FB54442D18#64
  cos x := if x = 0x4002D97C7F3321D2#64 then 0xBFE6A09E667F3BCC#64 else 0x3C91A62633145C07#64
  sin x := if x = 0x4002D97C7F3321D2#64 then 0x3FE6A09E667F3BCD#64 else 0x3FF0000000000000#64
  csqrt z := ⟨0x3FDD203138F6C828#64, if f64Sign z.im then 0xBFF19435CAFFA9F9#64 else 0x3FF19435CAFFA9F9#64⟩
  cabs z := z.re
  cmul x y := ⟨f64Sub (f64Mul x.re y.re) (f64Mul x.im y.im), f64Add (f64Mul x.re y.im) (f64Mul x.im y.re)⟩
  cdiv x y :=
    if f64Lt (f64Pack false (f64Mag y.re)) (f64Pack false (f64Mag y.im)) then
      let k := f64Div y.re y.im
      let d := f64Add (f64Mul y.re k) y.im
      ⟨f64Div (f64Add (f64Mul x.re k) x.im) d, f64Div (f64Sub (f64Mul x.im k) x.re) d⟩
    else
      let k := f64Div y.im y.re
      let d := f64Add y.re (f64Mul y.im k)
      ⟨f64Div (f64Add x.re (f64Mul x.im k)) d, f64Div (f64Sub x.im (f64Mul x.re k)) d⟩

/-- T18 D-4: the design `(0.25, 0.25, 2)`. -/
theorem test_design_D4 :
    (design libmD4 0x3FD0000000000000#64 0x3FD0000000000000#64 2).toOption = some coefD4 := by decide +kernel

/-- R259, R500: 4.0, `-4.0 - 2^-30` (which `FROMF` accepts, T14 F-10), NaN and an infinity are refused; -4.0 and
the largest word's value are converted (T14 F-3, F-16). -/
theorem test_convertCoef :
    [0x4010000000000000#64, 0xC010000000100000#64, 0x7FF8000000000000#64, 0xFFF0000000000000#64,
      0xC010000000000000#64, 0x400FFFFFFFC00000#64].map (fun x => (convertCoef x).toOption) =
    [none, none, none, none, some 0x80000000#32, some 0x7FFFFFFF#32] := by decide +kernel

/-- T19 D-6, D-7, D-9 and T33 E-2: `CFG_FC_RANGE`, code 2, whatever the libm. -/
theorem test_design_fcRange :
    [0x0000000000000000#64, 0x3FE0000000000000#64, 0x7FF8000000000000#64].map
      (fun x => (run (.designBoth 0) { resetS with f := x }).faultCode) = [2, 2, 2] := by decide +kernel

/-- T20 VI-2 and T33 E-10: `VINIT` with `F_TOP = +0.0`. -/
theorem test_vinit_reset :
    (fun t => (t.status, t.faultCode, t.faultInfo))
      (after resetS (step (resetS.withFetchWord 32 0x24000000))) = (1#32, 2#32, 0x24000000#32) := by
  decide +kernel

/-- T23 V2, sample 1: `K_PRE = K_ENV = ONE`. -/
theorem test_vocode :
    (fun t => (t.vocOut, (t.band 0).env, t.modS, t.carS, t.viol))
      (run .vocode { resetS with
        params := { paramsS with kEnv := oneWord }, bands := [bandD4], modIn := oneWord,
        carIn := 0x10000000#32 }) =
    (0x015F6199#32, 0x095F6199#32, 0x20000000#32, 0x10000000#32, Marks.empty) := by decide +kernel

/-- T24 V3: auto-gain in the clean case. -/
theorem test_vocode_autoGain :
    (fun t => (t.vocOut, t.gm, t.go, t.viol))
      (run .vocode { resetS with
        params := { paramsS with kEnv := oneWord, kAg := oneWord }, bands := [bandD4], ctrl := 1,
        modIn := oneWord, carIn := 0x70000000#32 }) =
    (0x1FFFFFFF#32, 0x20000000#32, 0x099BAB31#32, Marks.empty) := by decide +kernel

/-! ## The synthesizer -/

/-- T29 P2: the third press of two voices steals voice 0. -/
theorem test_press :
    (fun t => (t.ageCnt, t.voices.map fun v => (v.note, v.age, v.state, v.inc, v.noise)))
      (run (.press 2) (run (.press 1) (run (.press 0) resetS))) =
    (3#32, [(2#16, 3#32, .attack, 0x0028DDFB#32, 1#32), (1#16, 2#32, .attack, 0x00A377EE#32, 2#32)]) := by
  decide +kernel

/-- T29 P4 and P6: a double press marks and takes the next free voice; note 4 is `BAD_NOTE`, code 6. -/
theorem test_press_double_and_bad :
    (fun t => (t.viol.doublePress, t.voices.map Voice.note)) (run (.press 0) (run (.press 0) resetS)) =
      (true, [0#16, 0#16]) ∧
    (run (.press 4) resetS).faultCode = 6 := by decide +kernel

/-- T29 P3 and P3b. -/
theorem test_release :
    (run (.release 0) (run (.press 0) resetS)).voices.map Voice.state = [.release, .release] ∧
    (run (.release 2) (run (.press 2) (run (.press 1) (run (.press 0) resetS)))).voices.map Voice.state =
      [.release, .attack] := by decide +kernel

/-- T30 S3, tick 1. -/
theorem test_synth :
    (fun t => (t.synOut, t.voices.map fun v => (v.env, v.phase, v.last, v.noise)))
      (run .synth (run (.press 0) resetS)) =
    (0xFE0A377E#32, [(0x02000000#32, 0x0051BBF7#32, 0xE0A377ED#32, 0x3C88596C#32),
      (0#32, 0#32, 0xE0000000#32, 0x3CA1BF79#32)]) := by decide +kernel

/-- T31 S4, tick 1 (noise), and S5 with `TUNING = -1.0` (the phase wraps downward). -/
theorem test_synth_noise_tuning :
    (run .synth (run (.press 0) { resetS with attackRate := oneWord, noiseGain := 0x10000000#32 })).synOut =
      0xD93913EB#32 ∧
    ((run .synth (run (.press 0) { resetS with tuning := 0xE0000000#32 })).voices.map Voice.phase).head? =
      some 0x1FAE4409#32 := by decide +kernel

/-- T32 M1: `SAMPLE` from reset. -/
theorem test_sample :
    (fun t => (t.synOut, t.vocOut, t.voices.map fun v => (v.noise, v.last)))
      (run .sample resetS) =
    (0#32, 0#32, [(0x3C88596C#32, 0xE0000000#32), (0x3CA1BF79#32, 0xE0000000#32)]) := by decide +kernel

/-- T38 action 8: the first sample of program 5, with the D4 coefficients that its `VINIT` designs. -/
theorem test_sample_program5 :
    (fun t => (t.synOut, t.vocOut, (t.band 0).env, t.modS, t.carS))
      (run .sample { run (.press 0) resetS with bands := [bandD4], modIn := 0x10000000#32 }) =
    (0xFE0A377E#32, 0xFFFEA7A1#32, 0x004AFB0C#32, 0x10000000#32, 0xFE0A377E#32) := by decide +kernel

/-- T32 M2: `SRESET` after a press and a write. -/
theorem test_sreset :
    run .sreset (run (.press 0) { resetS with a := 5, cmd := 0xFC000000#32 }) = resetS := by decide +kernel

/-- R412. -/
theorem test_nop : run .nop (aluState 3 4) = aluState 3 4 := by decide +kernel

/-! ## Witnesses: for each statement with hypotheses, a state and operands that meet them together -/

section Witness

open Sys2Proof.Spec

/-- A faulted block (`DIV_ZERO`). -/
def faultS : State := run .aluDiv { resetS with cmd := 0x04600000#32 }

theorem paramsS_valid : paramsS.Valid := by
  constructor <;> first | decide | (constructor <;> decide)

theorem resetS_inv : resetS.Inv where
  params := paramsS_valid
  bandCount := rfl
  bandShape := by
    intro bd h
    obtain rfl := List.eq_of_mem_replicate h
    constructor <;> rfl
  voiceCount := rfl
  voiceShape := by
    intro v h
    simp only [resetS, State.resetWith, List.mem_map] at h
    obtain ⟨n, _, rfl⟩ := h
    exact ⟨by simp [Voice.reset], .inl ⟨rfl, rfl⟩⟩
  status := by decide
  ctrl := by decide
  record := .inl ⟨by decide, rfl, rfl⟩

theorem test_witness_DecodeOfEncode :
    (Instr.aluShl 31).wellFormed = true ∧ (Instr.aluShr 0).wellFormed = true ∧
    (Instr.press 0xFFFF).wellFormed = true ∧ (Instr.designBoth 95).wellFormed = true := by decide

theorem test_witness_EncodeOfDecode : (decode 0x056F8000#32).toOption = some (.aluShr 31) ∧
    (decode 0x0800FFFF#32).toOption = some (.press 0xFFFF) := by decide

theorem test_witness_LegalWordsAreTheTableRows : (decode 0x054F8000#32).toOption = some (.aluShl 31) ∧
    rowOf (.aluShl 31) ∈ opcodeRows ∧
    0x054F8000#32 &&& (rowOf (.aluShl 31)).mask = (rowOf (.aluShl 31)).pattern := by decide +kernel

theorem test_witness_StepRunsTheDecodedCommand : ∃ rest,
    (resetS.withFetchWord 32 0x04000000).pending = .wr 0x0000#16 0x04000000#32 :: rest ∧
    (resetS.withFetchWord 32 0x04000000).faulted = false ∧
    (decode 0x04000000#32).toOption = some .aluAdd := ⟨[], by decide +kernel⟩

theorem test_witness_IllegalWordFaults : ∃ rest,
    (resetS.withFetchWord 32 1).pending = .wr 0x0000#16 1#32 :: rest ∧
    (resetS.withFetchWord 32 1).faulted = false ∧ (decode 1#32).toOption = none := ⟨[], by decide +kernel⟩

/-- Both clauses: a word other than `SRESET`'s, and `SRESET`'s. -/
theorem test_witness_FaultedBlockTakesOnlySreset : faultS.faulted = true ∧
    (faultS.withFetchWord 32 0).pending = [.wr 0x0000#16 0#32] ∧
    (faultS.withFetchWord 32 0xFC000000).pending = [.wr 0x0000#16 0xFC000000#32] := by decide +kernel

theorem test_witness_EveryStepAnswersNext : resetS.pending = [] ∧ faultS.pending = [] := by decide +kernel

theorem test_witness_FaultingCommandWritesOnlyTheRecord : ∃ t,
    (resetS.withFetchWord 32 0x04600000).pending = [.wr 0x0000#16 0x04600000#32] ∧
    (resetS.withFetchWord 32 0x04600000).faulted = false ∧
    step (resetS.withFetchWord 32 0x04600000) = .next t ∧ t.faulted = true :=
  ⟨_, by decide +kernel, by decide +kernel, rfl, by decide +kernel⟩

/-- Both outcomes: a fault that stays, and one that `SRESET` ends. -/
theorem test_witness_FirstFaultIsKeptUntilSreset : ∃ t u, faultS.faulted = true ∧
    step (faultS.withFetchWord 32 0) = .next t ∧ t.faulted = true ∧
    step (faultS.withFetchWord 32 0xFC000000) = .next u ∧ u.faulted = false :=
  ⟨_, _, by decide +kernel, rfl, by decide +kernel, rfl, by decide +kernel⟩

theorem test_witness_ResetValues : paramsS.Valid ∧ (∃ u, (State.resetWith paramsS).voices[1]? = some u) ∧
    ∃ bd, bd ∈ (State.resetWith paramsS).bands := ⟨paramsS_valid, ⟨_, rfl⟩, ⟨_, List.mem_cons_self ..⟩⟩

/-- The ends of every range of illegal words that a statement names, written to a live block (`IllegalRange`). -/
theorem test_witness_IllegalRange :
    ∀ n ∈ [0x00000001, 0x03FFFFFF, 0x08010000, 0x0BFFFFFF, 0x0C010000, 0x0FFFFFFF, 0x10000001, 0x13FFFFFF,
      0x14000001, 0x17FFFFFF, 0x18000001, 0x1BFFFFFF,
      0x1C000000, 0x1CFFFFFF, 0x1D010000, 0x1DFFFFFF, 0x1E010000, 0x1EFFFFFF, 0x1F000000, 0x1FFFFFFF,
      0x20000000, 0x20FFFFFF, 0x21010000, 0x21FFFFFF, 0x22010000, 0x22FFFFFF, 0x23010000, 0x23FFFFFF,
      0x24000001, 0x27FFFFFF, 0xFC000001, 0xFFFFFFFF],
      (resetS.withFetchWord 32 n).pending = [.wr 0x0000#16 (BitVec.ofNat 32 n)] ∧
      (BitVec.ofNat 32 n).toNat = n ∧ (resetS.withFetchWord 32 n).faulted = false := by decide +kernel

theorem test_witness_NopKeepsAndSresetResetsEverything :
    (resetS.withFetchWord 32 1).pending = [.wr 0x0000#16 1#32] ∧ 1 ≤ (1#32).toNat ∧
    (1#32).toNat ≤ 0x03FFFFFF ∧ (resetS.withFetchWord 32 1).faulted = false := by decide +kernel

theorem test_witness_ResetMeetsTheInvariant : paramsS.Valid := paramsS_valid

theorem test_witness_StepKeepsTheInvariant : ∃ t, resetS.Inv ∧ step resetS = .next t := ⟨_, resetS_inv, rfl⟩

theorem test_witness_MarksAndParametersPersist : ∃ t, step (resetS.withFetchWord 32 0) = .next t := ⟨_, rfl⟩

theorem test_witness_CommandsLeaveHostRegisters : ∃ t, exec .aluAdd resetS = .next t ∧ Instr.aluAdd ≠ .sreset :=
  ⟨_, rfl, by decide⟩

/-- `NOP` meets the hypotheses of every clause. -/
theorem test_witness_ResultRegistersHaveTheirWriters : (∃ t, exec .nop resetS = .next t) ∧ Instr.nop ≠ .sreset ∧
    Instr.nop ∉ [Instr.aluAdd, .aluSub, .aluMul, .aluDiv, .aluCompact, .aluAbs, .aluFromf] ∧
    (∀ k, Instr.nop ≠ .aluShl k ∧ Instr.nop ≠ .aluShr k) ∧
    (∀ b, Instr.nop ≠ .cstepMod b ∧ Instr.nop ≠ .cstepCar b) ∧
    Instr.nop ∉ [Instr.aluMulw, .aluMacw, .aluMsuw, .aluAddw] ∧ Instr.nop ≠ .aluTof ∧
    (∀ n, Instr.nop ≠ .press n) ∧ Instr.nop ≠ .vinit ∧
    ∀ b, Instr.nop ≠ .designMod b ∧ Instr.nop ≠ .designCar b ∧ Instr.nop ≠ .designBoth b :=
  ⟨⟨_, rfl⟩, by simp⟩

theorem test_witness_MappedReadOnlyReturns : slotOf resetS.params 0x0033#16 ≠ .unmapped ∧
    slotOf resetS.params 0x800F#16 ≠ .unmapped ∧
    ({ resetS with pending := [.rd 0x0033#16] } : State).pending = [.rd 0x0033#16] := by decide +kernel

/-- A failing read and a failing write, on a live and on a faulted block. -/
theorem test_witness_FailingAccesses : slotOf resetS.params 0x0034#16 = .unmapped ∧
    (slotOf resetS.params 0x0001#16).writable = false ∧ (slotOf resetS.params 0x8010#16).writable = false ∧
    resetS.faulted = false ∧ faultS.faulted = true ∧ faultS.params = resetS.params := by decide +kernel

/-- `A`, `CTRL` and the last coefficient word. -/
theorem test_witness_WriteThenRead : resetS.Inv ∧ (slotOf resetS.params 0x0008#16).writable = true ∧
    (slotOf resetS.params 0x0004#16).writable = true ∧ (slotOf resetS.params 0x1044#16).writable = true ∧
    0x0009#16 ≠ 0x0008#16 := ⟨resetS_inv, by decide +kernel⟩

theorem test_witness_FixedRegisterMap : 0x0FFF < 0x1000 := by decide

/-- The last band, the last stage, and the ends of the unmapped words. -/
theorem test_witness_CoefficientLayout : resetS.Inv ∧ 0 < resetS.params.bands ∧ 1 < resetS.params.ns ∧
    4 ≤ 2 * resetS.params.ns ∧ 2 * resetS.params.ns + 1 ≤ 5 := ⟨resetS_inv, by decide +kernel⟩

theorem test_witness_ViewLayout : resetS.Inv ∧ 0 < resetS.params.bands ∧ 1 < resetS.params.ns ∧
    3 + 3 * resetS.params.ns ≤ 9 ∧ (∃ v, resetS.voices[1]? = some v) ∧ 0x4000 + resetS.params.bands ≤ 0x4001 ∧
    0x8000 + 8 * resetS.params.voices ≤ 0x8010 :=
  ⟨resetS_inv, by decide +kernel, by decide +kernel, by decide +kernel, ⟨_, rfl⟩, by decide +kernel, by decide +kernel⟩

/-- T12 A-9 and T13 W-12: a product and an accumulator that the floor rounds. -/
theorem test_witness_MulAndCompactFloor :
    IsFloor (-1) ((aluState 1 0xF0000000#32).a.toInt * (aluState 1 0xF0000000#32).b.toInt) (2 ^ 29) ∧
    IsFloor (-1) (accState 0xFFFFFFFFFFFFFFFF#64 0 0).acc.toInt (2 ^ 29) := by
  unfold IsFloor; decide +kernel

/-- T12 A-19 (a negative numerator) and a zero denominator. -/
theorem test_witness_DivTruncatesTowardZero :
    (aluState 0xE0000000#32 0x60000000#32).b ≠ 0 ∧
    (aluState 0xE0000000#32 0x60000000#32).a.toInt * 2 ^ 29 =
      (-178956970) * (aluState 0xE0000000#32 0x60000000#32).b.toInt + (-1073741824) ∧
    (-1073741824 : Int).natAbs < (aluState 0xE0000000#32 0x60000000#32).b.toInt.natAbs ∧
    (aluState 0xE0000000#32 0x60000000#32).a.toInt < 0 ∧
    (aluState 1 0).faulted = false ∧ (aluState 1 0).b = 0 := by decide +kernel

/-- The last legal and the first illegal shift amount. -/
theorem test_witness_ShiftsByConstant : (31#6).toNat < 32 ∧ 32 ≤ (32#6).toNat ∧ resetS.faulted = false := by decide

/-- `-4.0` is in range, 4.0 is not, and NaN is not finite (R222). -/
theorem test_witness_FromfTruncates :
    (f64Fin 0xC010000000000000#64 ∧ IsTrunc (-2 ^ 31) (f64Value 0xC010000000000000#64 * 2 ^ 29)) ∧
    (f64Fin 0x4010000000000000#64 ∧ IsTrunc (2 ^ 31) (f64Value 0x4010000000000000#64 * 2 ^ 29)) ∧
    ¬ f64Fin 0x7FF8000000000000#64 ∧ resetS.faulted = false := by
  refine ⟨⟨by unfold f64Fin; decide, ?_⟩, ⟨by unfold f64Fin; decide, ?_⟩, by unfold f64Fin; decide, by decide⟩ <;>
    norm_num [IsTrunc, f64Value, f64Exp]

theorem test_witness_CompactUndoesProductScale : resetS.acc = 0 := by decide +kernel

/-- From above, from below stuck, from below moving, and on the target. -/
theorem test_witness_LerpConverges : 0 < (0x10000000#32).toInt ∧ (0x10000000#32).toInt ≤ 2 ^ 29 ∧
    (fxLerp 1 0 0x10000000#32).marks = Marks.empty ∧ (0#32).toInt < (1#32).toInt ∧
    (fxLerp 0xFFFFFFFF#32 0 0x10000000#32).marks = Marks.empty ∧ (0xFFFFFFFF#32).toInt < (0#32).toInt ∧
    (fxLerp 0 0x20000000#32 0x20000000#32).marks = Marks.empty ∧ (fxLerp 0 0 1).marks = Marks.empty := by
  decide +kernel

/-- An even and an odd stage without a mark; a stage that marks `V_RANGE`, and one that marks `V_ACC`. -/
theorem test_witness_StageOutputIsTheDifferenceEquation :
    (stageOut 0 ⟨oneWord, 0, 0⟩ 0 0 oneWord ⟨0, 0⟩).marks = Marks.empty ∧
    (stageOut 1 ⟨0, 0x10000000#32, 0⟩ 5 6 0 ⟨oneWord, oneWord⟩).marks = Marks.empty ∧
    (stageOut 2 ⟨0x60000000#32, 0x60000000#32, 0⟩ 0 0 0 ⟨0, 0⟩).marks = Marks.ofRange true ∧
    (stageOut 0 ⟨0, 0x80000000#32, 0⟩ 0 0 0x80000000#32 ⟨0, 0⟩).marks.acc = true := by decide +kernel

/-- The last band and the first one past the bank. -/
theorem test_witness_CstepStepsOneCascade : resetS.Inv ∧ (0#16).toNat < resetS.params.bands ∧
    1 < resetS.params.ns ∧ resetS.faulted = false ∧ resetS.params.bands ≤ (1#16).toNat :=
  ⟨resetS_inv, by decide +kernel⟩

theorem test_witness_OperandFaults : resetS.faulted = false ∧ resetS.params.bands ≤ (1#16).toNat ∧
    resetS.params.numNotes ≤ (4#16).toNat := by decide +kernel

theorem test_witness_ZeroCoefficientsOutputZero : (Coef.zero 2).scale = 0 ∧
    (∀ st ∈ (Coef.zero 2).stages, st = ⟨0, 0⟩) ∧ ∀ w ∈ (Hist.zero 2).yh, w = Win.zero := by decide +kernel

theorem test_witness_DesignChecksTheCentre : 2 % 2 = 0 ∧
    (design libmD4 0x3FD0000000000000#64 0x3FD0000000000000#64 2).toOption = some coefD4 := by decide +kernel

/-- Both ends of `[-4.0, 4.0)`, the values next below them, and the values that are no number. -/
theorem test_witness_ConversionKeepsTheCoefficientRange :
    (∀ x ∈ [0xC010000000000000#64, 0x400FFFFFFFFFFFFF#64], f64Exp x < 2047 ∧ coefInRange x = true) ∧
    (∀ x ∈ [0x4010000000000000#64, 0xC010000000000001#64], f64Exp x < 2047 ∧ coefInRange x = false) ∧
    ∀ x ∈ [0x7FF8000000000000#64, 0x7FF0000000000000#64], ¬ f64Exp x < 2047 := by
  simp only [List.forall_mem_cons, List.not_mem_nil, false_implies, implies_true, and_true]
  decide +kernel

/-- A record, with the libm of T1; a failing centre, whatever the libm; a band past the bank. -/
theorem test_witness_DesignStoresTheSelectedRoles : resetS.Inv ∧ (0#16).toNat < resetS.params.bands ∧
    (let s := { resetS with f := 0x3FD0000000000000#64, g := 0x3FD0000000000000#64 };
      (design libmD4 s.f s.g s.params.ns).toOption = some coefD4) ∧
    (design Config.libm resetS.f resetS.g resetS.params.ns).toOption = none ∧
    resetS.faulted = false ∧ resetS.params.bands ≤ (1#16).toNat := ⟨resetS_inv, by decide +kernel⟩

/-- The one band of the plan at `F_TOP = 0.5`, with the libm of T1; and its fault at `F_TOP = +0.0`. -/
theorem test_witness_VinitDesignsAllBandsOrNone :
    (let s := { resetS with fTop := 0x3FE0000000000000#64 };
      [coefD4].length = s.params.bands ∧ (planDesign libmD4 s 0).toOption = some coefD4) ∧
    0 < resetS.params.bands ∧ (planDesign Config.libm resetS 0).toOption = none ∧ resetS.faulted = false := by
  decide +kernel

theorem test_witness_VinitFaultsUntilTopIsSet : resetS.params.Valid ∧ resetS.faulted = false ∧ resetS.fTop = 0 :=
  ⟨paramsS_valid, by decide, by decide +kernel⟩

theorem test_witness_VocodeWritesTheVocoderState : resetS.autoGainEn = false ∧ (∃ b, resetS.bands[0]? = some b) ∧
    ∃ b, (run .vocode resetS).bands[0]? = some b := ⟨by decide, ⟨_, rfl⟩, ⟨_, rfl⟩⟩

theorem test_witness_VocodeOutputIsTheGainedBandSum : ∃ t, resetS.autoGainEn = false ∧
    exec .vocode resetS = .next t ∧ t.viol = Marks.empty := ⟨_, by decide, rfl, by decide +kernel⟩

/-- Auto-gain off; on with a zero divisor; on with a ratio (T24 V3). -/
theorem test_witness_AutoGainScalesByTheRatio : resetS.autoGainEn = false ∧
    ({ resetS with ctrl := 1 } : State).autoGainEn = true ∧ (run .vocode { resetS with ctrl := 1 }).go = 0 ∧
    (fxDiv 0x20000000#32 0x099BAB31#32).isSome = true := by decide +kernel

theorem test_witness_SilentModulatorStaysSilent : ModulatorSilent resetS := by
  refine ⟨rfl, rfl, fun bd h => ?_⟩
  obtain rfl := List.eq_of_mem_replicate h
  exact ⟨rfl, rfl, fun w hw => List.eq_of_mem_replicate hw⟩

/-- The last note of the table and the first one past it. -/
theorem test_witness_PressTakesTheSelectedVoice : resetS.Inv ∧ (3#16).toNat < resetS.params.numNotes ∧
    resetS.faulted = false ∧ resetS.params.numNotes ≤ (4#16).toNat := ⟨resetS_inv, by decide +kernel⟩

/-- A holder and a voice that holds another note, after `PRESS 0`. -/
theorem test_witness_ReleaseReleasesEveryHolder : (0#16).toNat < resetS.params.numNotes ∧
    ((run (.press 0) resetS).voices.map Voice.note = [0#16, noteNone]) ∧
    ((run (.release 0) (run (.press 0) resetS)).voices.length = 2) ∧
    resetS.faulted = false ∧ resetS.params.numNotes ≤ (4#16).toNat := by decide +kernel

theorem test_witness_PressingOneNoteTooManyStealsVoiceZero : paramsS.Valid ∧
    [0#16, 1#16].length = paramsS.voices ∧ ([0#16, 1#16] ++ [3#16]).Nodup ∧
    ∀ n ∈ [0#16, 1#16] ++ [3#16], n.toNat < paramsS.numNotes :=
  ⟨paramsS_valid, rfl, by decide +kernel, by simp [paramsS, Params.numNotes]⟩

theorem test_witness_SynthAdvancesEveryVoice : (∃ v, resetS.voices[1]? = some v) ∧
    ∃ v, (run .synth resetS).voices[1]? = some v := ⟨⟨_, rfl⟩, ⟨_, rfl⟩⟩

/-- A sounding voice and an idle one, without noise and with it, and no mark. -/
theorem test_witness_VoiceSampleIsTheTapSumWithNoise : ∀ g ∈ [0#32, 0x10000000#32],
    let s := run (.press 0) { resetS with noiseGain := g }
    (run .synth s).viol = Marks.empty ∧ s.voices.length = 2 ∧ (run .synth s).voices.length = 2 ∧
    s.params.noiseGen = .lcg := by
  simp only [List.forall_mem_cons, List.not_mem_nil, false_implies, implies_true, and_true]
  decide +kernel

/-- Every row of R370 has a voice that moves and, but for `SUSTAIN`, one that snaps, without a mark. -/
theorem test_witness_EnvelopeTicksByTheRowOfItsState :
    ∀ p ∈ [(Adsr.attack, 0#32, 0x02000000#32, Adsr.attack), (.attack, 0x1FFE0000#32, 0x20000000#32, .decay),
        (.decay, 0x20000000#32, 0x1FF00000#32, .decay), (.decay, 0x10020000#32, 0x10000000#32, .sustain),
        (.release, 0x20000000#32, 0x1FE00000#32, .release), (.release, 0x00020000#32, 0#32, .release),
        (.sustain, 0x12345678#32, 0x12345678#32, .sustain)],
      let t := run .synth { resetS with voices := resetS.voices.map fun v => { v with state := p.1, env := p.2.1 } }
      t.viol = Marks.empty ∧ t.voices.map (fun v => (v.env, v.state)) = List.replicate 2 p.2.2 := by
  simp only [List.forall_mem_cons, List.not_mem_nil, false_implies, implies_true, and_true]
  decide +kernel

theorem test_witness_SynthOutputIsTheVoiceSum : ∃ t, exec .synth (run (.press 0) resetS) = .next t ∧
    t.viol = Marks.empty := ⟨_, rfl, by decide +kernel⟩

theorem test_witness_IdlePoolOutputsZero : 0 ≤ resetS.params.eps.toInt ∧ PoolIdle resetS := by
  refine ⟨by decide, fun v h => ?_⟩
  simp only [resetS, State.resetWith, List.mem_map] at h
  obtain ⟨n, _, rfl⟩ := h
  exact ⟨rfl, .inr rfl⟩

/-- The ends of the phase range, on either side of the square's edge, with both end shapes. -/
theorem test_witness_NaiveWaveformBlends :
    (∀ ph ∈ [0#32, 0x0FFFFFFF#32, 0x10000000#32, 0x1FFFFFFF#32], 0 ≤ ph.toInt ∧ ph.toInt < 2 ^ 29) ∧
    InUnit 0 ∧ InUnit 0x20000000#32 := by
  refine ⟨fun ph h => ?_, by unfold InUnit; decide, by unfold InUnit; decide⟩
  simp only [List.mem_cons, List.not_mem_nil, or_false] at h
  rcases h with rfl | rfl | rfl | rfl <;> decide

theorem test_witness_OscillatorStaysInFullScale :
    (resetS.params.taps.map fun t => |t.weight.toInt|).sum ≤ 2 ^ 29 ∧ InUnit resetS.shape ∧ resetS.noiseGain = 0 := by
  unfold InUnit; decide +kernel

/-- A rising tick, and one that snaps, under the condition of R373. -/
theorem test_witness_AttackRisesThenSnaps :
    (let s := run (.press 0) resetS;
      (s.voices[0]?.map fun v => (v.state, v.env)) = some (.attack, 0#32) ∧
      s.params.eps.toInt < 2 ^ 29 - (0#32).toInt ∧
      0 < s.attackRate.toInt ∧ s.attackRate.toInt ≤ 2 ^ 29 ∧
      2 ^ 29 ≤ (s.params.eps.toInt + 1) * s.attackRate.toInt) ∧
    InUnit 0 ∧ InUnit 0x1FFE0000#32 ∧ 2 ^ 29 - (0x1FFE0000#32).toInt ≤ resetS.params.eps.toInt := by
  unfold InUnit; decide +kernel

/-- A releasing voice with a falling rate, one at 0, and one above `EPS` with rate 0. -/
theorem test_witness_ReleasedVoiceBecomesFree :
    (resetS.voices[0]?.map fun v => (v.state, v.env)) = some (.release, 0#32) ∧
    0 ≤ resetS.params.eps.toInt ∧ 0 < resetS.releaseRate.toInt ∧ resetS.releaseRate.toInt ≤ 2 ^ 29 ∧
    (let s := run (.release 0) (run .synth (run (.press 0) { resetS with releaseRate := 0 }));
      (s.voices[0]?.map fun v => (v.state, v.env)) = some (.release, 0x02000000#32) ∧ s.releaseRate = 0 ∧
      s.params.eps.toInt < (0x02000000#32).toInt) := by decide +kernel

theorem test_witness_EnvelopesStayInUnitRange : InUnit resetS.attackRate ∧ InUnit resetS.decayRate ∧
    InUnit resetS.sustainLevel ∧ InUnit resetS.releaseRate ∧ ∀ v ∈ resetS.voices, InUnit v.env := by
  unfold InUnit; decide +kernel

theorem test_witness_SampleIsSynthThenVocode : resetS.faulted = false := by decide

end Witness

end Sys2Proof.Tests
end

section
/-! Violation marks and parameters: no address shows `VIOL`, and no transition clears a mark or changes a
parameter (R52, R414, R600). The second part follows the machine from the inside out: the command, its issue, the
host action, the step. -/

namespace Sys2Proof.Machine

open Sys2Proof Sys2Proof.Spec

/-! ## `VIOL` is not in the register space -/

/-- A slot's word does not depend on `VIOL` (R52): no slot names it. -/
theorem readSlot_of_viol (s : State) (m : Marks) (sl : Slot) : readSlot { s with viol := m } sl = readSlot s sl := by
  cases sl with
  | reg r => cases r <;> rfl
  | scale | a1 | a2 | env | xin | yh | voice | unmapped => rfl

theorem peek_of_viol (s : State) (m : Marks) (addr : Addr) : peek { s with viol := m } addr = peek s addr :=
  readSlot_of_viol s m (slotOf s.params addr)

/-! ## Marks and parameters through a transition -/

theorem marksKept_refl (m : Marks) : MarksKept m m := ⟨id, id, id, id⟩

/-- Recording more marks clears none. -/
theorem marksKept_union (m n : Marks) : MarksKept m (m.union n) := by
  simp +contextual [MarksKept]

theorem marksKept_trans {m n k : Marks} (h : MarksKept m n) (g : MarksKept n k) : MarksKept m k := by
  obtain ⟨hr, ha, hd, hw⟩ := h
  obtain ⟨gr, ga, gd, gw⟩ := g
  exact ⟨gr ∘ hr, ga ∘ ha, gd ∘ hd, gw ∘ hw⟩

/-- Every mark of `s` is still recorded in `t`, and the parameters are the same. -/
structure State.Persists (s t : State) : Prop where
  marks : MarksKept s.viol t.viol
  params : t.params = s.params

/-- A transition that writes neither `VIOL` nor the parameters. -/
theorem State.Persists.of_eq {s t : State} (hv : t.viol = s.viol) (hp : t.params = s.params) : s.Persists t :=
  ⟨hv ▸ marksKept_refl s.viol, hp⟩

theorem State.Persists.trans {s t u : State} (h : s.Persists t) (k : t.Persists u) : s.Persists u :=
  ⟨marksKept_trans h.marks k.marks, k.params.trans h.params⟩

theorem State.Keeps.persists {s t : State} (h : s.Keeps t) : s.Persists t := by
  obtain ⟨m, hm⟩ := h.viol
  exact ⟨hm ▸ marksKept_union s.viol m, h.params⟩

/-- A fault record leaves marks and parameters alone (R502). -/
theorem State.persists_raise (s : State) (c : FaultCode) (info : Word) : s.Persists (s.raise c info) :=
  .of_eq (raise_viol s c info) (raise_params s c info)

/-- `SRESET` leaves marks and parameters alone (R52, R414). -/
theorem State.persists_doReset (s : State) : s.Persists s.doReset := .of_eq rfl rfl

theorem State.persists_writeSlot (s : State) (v : Word) (sl : Slot) : s.Persists (writeSlot s v sl) :=
  .of_eq (writeSlot_viol s v sl) (writeSlot_params s v sl)

/-! ## From the command to the step -/

theorem exec_persists {i : Instr} {s t : State} (h : exec i s = .next t) : s.Persists t := by
  rcases exec_cases i s with ⟨c, e⟩ | ⟨_, e⟩ | ⟨u, e, k⟩ <;>
    obtain rfl := Host.Outcome.next.inj (e.symm.trans h)
  · exact s.persists_raise c s.cmd
  · exact s.persists_doReset
  · exact k.persists

theorem issueCommand_persists {w : Word} {s t : State} (h : issueCommand w s = .next t) : s.Persists t := by
  have hcmd : s.Persists { s with cmd := w } := .of_eq rfl rfl
  rcases issueCommand_cases w s with ⟨_, _, e⟩ | ⟨_, _, e⟩ | ⟨_, _, e⟩ | ⟨_, i, _, e⟩ <;> rw [e] at h
  · exact Host.Outcome.next.inj h ▸ hcmd
  · exact Host.Outcome.next.inj h ▸ hcmd.trans (State.persists_doReset _)
  · exact Host.Outcome.next.inj h ▸ hcmd.trans (State.persists_raise _ _ _)
  · exact hcmd.trans (exec_persists h)

theorem performAction_persists {act : HostAction} {s t : State} (h : performAction act s = .next t) :
    s.Persists t := by
  have hobs (word : Word) : s.Persists { s with observed := s.observed ++ [word] } := .of_eq rfl rfl
  rcases performAction_cases act s with ⟨w, _, e⟩ | ⟨addr, v, _, _, _, e⟩ | ⟨addr, v, _, _, _, e⟩ |
    ⟨addr, _, _, e⟩ | ⟨addr, _, _, e⟩ <;> rw [e] at h
  · exact issueCommand_persists h
  · exact Host.Outcome.next.inj h ▸ s.persists_writeSlot v _
  · exact Host.Outcome.next.inj h ▸ s.persists_raise _ _
  · exact Host.Outcome.next.inj h ▸ hobs _
  · exact Host.Outcome.next.inj h ▸ (hobs _).trans (State.persists_raise _ _ _)

theorem step_persists {s t : State} (h : step s = .next t) : s.Persists t := by
  rcases step_cases s with ⟨_, e⟩ | ⟨act, rest, _, e⟩ <;> rw [e] at h
  · exact Host.Outcome.next.inj h ▸ .of_eq rfl rfl
  · have htake : s.Persists { s with pending := rest } := .of_eq rfl rfl
    exact htake.trans (performAction_persists h)

/-- Settles O15: reset puts `VIOL` at no mark, no slot names it, and every kind of step lets the marks and the
parameters persist. -/
theorem marksAndParametersPersist : Obligations.MarksAndParametersPersist :=
  ⟨rfl, peek_of_viol, fun _ _ h => ⟨(step_persists h).marks, (step_persists h).params⟩⟩

end Sys2Proof.Machine
end

section
/-! The views of the register space, from `0x4000` on (R91, R92, R93). First what `slotOf` answers in each region,
then the layout of a view inside its region, then the words read there. -/

namespace Sys2Proof.Machine

open Sys2Proof Sys2Proof.Spec

/-! ## The regions from `0x4000` on (R88) -/

/-- The word read at an address is that of the slot it names. -/
theorem peek_of_slotOf {s : State} {addr : Addr} {sl : Slot} (h : slotOf s.params addr = sl) :
    peek s addr = readSlot s sl := by rw [peek, h]

/-- Above the fixed registers and the coefficient region, only the three views are left. -/
theorem slotOf_ofNat_of_ge (p : Params) {n : Nat} (hlow : 0x4000 ≤ n) (hhigh : n < 0x10000) :
    slotOf p (BitVec.ofNat 16 n) =
      if n < 0x5000 then (if n - 0x4000 < min p.bands 0x100 then .env (n - 0x4000) else .unmapped)
      else if n < 0x8000 then histSlot p (n - 0x5000)
      else if n < 0x9000 then
        (if (n - 0x8000) / 8 < p.voices then .voice ((n - 0x8000) / 8) (voiceFieldAt ((n - 0x8000) % 8))
         else .unmapped)
      else .unmapped := by
  have haddr : (BitVec.ofNat 16 n).toNat = n := by
    rw [BitVec.toNat_ofNat]
    exact Nat.mod_eq_of_lt hhigh
  simp only [slotOf, haddr, if_neg (show ¬n < 0x1000 by omega), if_neg (show ¬n < 0x4000 by omega)]

/-- R91: the envelope view. -/
theorem slotOf_envView (p : Params) (hp : p.bands ≤ 96) {n : Nat} (hlow : 0x4000 ≤ n) (hhigh : n < 0x5000) :
    slotOf p (BitVec.ofNat 16 n) = if n - 0x4000 < p.bands then .env (n - 0x4000) else .unmapped := by
  rw [slotOf_ofNat_of_ge p hlow (by omega), if_pos hhigh, Nat.min_eq_left (by omega)]

/-- R92: the history view. -/
theorem slotOf_histView (p : Params) {n : Nat} (hlow : 0x5000 ≤ n) (hhigh : n < 0x8000) :
    slotOf p (BitVec.ofNat 16 n) = histSlot p (n - 0x5000) := by
  rw [slotOf_ofNat_of_ge p (by omega) (by omega), if_neg (by omega), if_pos hhigh]

/-- R93: the voice view. Its region ends at `0x9000`, which no legal `V` reaches. -/
theorem slotOf_voiceView (p : Params) (hp : p.voices ≤ 512) {n : Nat} (hlow : 0x8000 ≤ n) (hhigh : n < 0x10000) :
    slotOf p (BitVec.ofNat 16 n) =
      if (n - 0x8000) / 8 < p.voices then .voice ((n - 0x8000) / 8) (voiceFieldAt ((n - 0x8000) % 8))
      else .unmapped := by
  rw [slotOf_ofNat_of_ge p (by omega) hhigh, if_neg (by omega), if_neg (by omega)]
  by_cases hn : n < 0x9000
  · rw [if_pos hn]
  · rw [if_neg hn, if_neg (by omega)]

/-! ## The history view (R92) -/

/-- The number of a role in the register space: `MOD = 0`, `CAR = 1` (R90). -/
def Role.index : Role → Nat
  | .modulator => 0
  | .carrier => 1

/-- Block `r·BANDS + b` is that of role `r` and band `b` (R90, R92). -/
theorem roleBand_index (r : Role) {bands band : Nat} (hb : band < bands) :
    roleBand bands (r.index * bands + band) = (r, band) := by
  cases r with
  | modulator => simp [roleBand, Role.index, hb]
  | carrier => simp [roleBand, Role.index]

theorem index_mul_add_lt (r : Role) {bands band : Nat} (hb : band < bands) :
    r.index * bands + band < 2 * bands := by
  cases r <;> simp only [Role.index] <;> omega

/-- The 64 words of one block of the history view. -/
theorem histSlot_block (p : Params) (r : Role) {band off : Nat} (hb : band < p.bands) (hoff : off < 64) :
    histSlot p ((r.index * p.bands + band) * 64 + off) =
      if off < 3 then .xin r band off
      else if p.ns ≤ (off - 3) / 3 then .unmapped
      else .yh r band ((off - 3) / 3) ((off - 3) % 3) := by
  have hlt := index_mul_add_lt r hb
  have hdiv : ((r.index * p.bands + band) * 64 + off) / 64 = r.index * p.bands + band := by omega
  have hmod : ((r.index * p.bands + band) * 64 + off) % 64 = off := by omega
  simp only [histSlot, hdiv, hmod, roleBand_index r hb, if_neg (Nat.not_le.2 hlt)]

theorem histSlot_beyond_bands (p : Params) {off : Nat} (h : 2 * p.bands * 64 ≤ off) : histSlot p off = .unmapped := by
  unfold histSlot
  exact if_pos (by omega)

/-- The history view is read-only (R92). -/
theorem histSlot_not_writable (p : Params) (off : Nat) : (histSlot p off).writable = false := by
  unfold histSlot
  dsimp only
  split_ifs <;> rfl

section
variable {p : Params} (hp : p.Valid) (r : Role) {band : Nat} (hb : band < p.bands)
include hp hb

/-- What the words of a block of the history view name, by their addresses. -/
theorem slotOf_histBlock {off : Nat} (hoff : off < 64) :
    slotOf p (BitVec.ofNat 16 (0x5000 + (r.index * p.bands + band) * 64 + off)) =
      if off < 3 then .xin r band off
      else if p.ns ≤ (off - 3) / 3 then .unmapped
      else .yh r band ((off - 3) / 3) ((off - 3) % 3) := by
  have hlt := index_mul_add_lt r hb
  have hbands := hp.bands_high
  rw [slotOf_histView p (by omega) (by omega), Nat.add_assoc, Nat.add_sub_cancel_left, histSlot_block p r hb hoff]

theorem slotOf_xin {tap : Nat} (ht : tap < 3) :
    slotOf p (BitVec.ofNat 16 (0x5000 + (r.index * p.bands + band) * 64 + tap)) = .xin r band tap := by
  rw [slotOf_histBlock hp r hb (by omega), if_pos ht]

theorem slotOf_yh {stage tap : Nat} (hs : stage < p.ns) (ht : tap < 3) :
    slotOf p (BitVec.ofNat 16 (0x5000 + (r.index * p.bands + band) * 64 + (3 + tap + 3 * stage))) =
      .yh r band stage tap := by
  have hns := hp.ns_high
  have hdiv : (3 + tap + 3 * stage - 3) / 3 = stage := by omega
  have hmod : (3 + tap + 3 * stage - 3) % 3 = tap := by omega
  rw [slotOf_histBlock hp r hb (by omega), if_neg (by omega), hdiv, hmod, if_neg (by omega)]

theorem slotOf_beyond_stages {off : Nat} (hlow : 3 + 3 * p.ns ≤ off) (hhigh : off ≤ 63) :
    slotOf p (BitVec.ofNat 16 (0x5000 + (r.index * p.bands + band) * 64 + off)) = .unmapped := by
  rw [slotOf_histBlock hp r hb (by omega), if_neg (by omega), if_pos (by omega)]

end

/-! ## The words read in the views -/

section
variable {s : State} (hs : s.Inv)
include hs

theorem peek_env {band : Nat} (hb : band < s.params.bands) :
    peek s (BitVec.ofNat 16 (0x4000 + band)) = (s.band band).env := by
  have hbands := hs.params.bands_high
  have hslot : slotOf s.params (BitVec.ofNat 16 (0x4000 + band)) = .env band := by
    rw [slotOf_envView s.params hbands (by omega) (by omega), Nat.add_sub_cancel_left, if_pos hb]
  exact peek_of_slotOf hslot

theorem peek_xin (r : Role) {band tap : Nat} (hb : band < s.params.bands) (ht : tap < 3) :
    peek s (BitVec.ofNat 16 (0x5000 + (r.index * s.params.bands + band) * 64 + tap)) =
      ((s.band band).hist r).xin.at tap :=
  peek_of_slotOf (slotOf_xin hs.params r hb ht)

theorem peek_yh (r : Role) {band stage tap : Nat} (hb : band < s.params.bands) (hn : stage < s.params.ns)
    (ht : tap < 3) :
    peek s (BitVec.ofNat 16 (0x5000 + (r.index * s.params.bands + band) * 64 + (3 + tap + 3 * stage))) =
      (((s.band band).hist r).yh.getD stage Win.zero).at tap :=
  peek_of_slotOf (slotOf_yh hs.params r hb hn ht)

/-- R93: a voice's fields stand in the order of `voiceFieldAt`. -/
theorem peek_voice {k i : Nat} {v : Voice} (hv : s.voices[k]? = some v) (hi : i < 8) :
    peek s (BitVec.ofNat 16 (0x8000 + 8 * k + i)) = v.field (voiceFieldAt i) := by
  obtain ⟨hk, -⟩ := List.getElem?_eq_some_iff.1 hv
  rw [hs.voiceCount] at hk
  have hvoices := hs.params.voices_high
  have hdiv : (0x8000 + 8 * k + i - 0x8000) / 8 = k := by omega
  have hmod : (0x8000 + 8 * k + i - 0x8000) % 8 = i := by omega
  have hslot : slotOf s.params (BitVec.ofNat 16 (0x8000 + 8 * k + i)) = .voice k (voiceFieldAt i) := by
    rw [slotOf_voiceView s.params hvoices (by omega) (by omega), hdiv, hmod, if_pos hk]
  rw [peek_of_slotOf hslot, readSlot, List.getD_eq_getElem?_getD, hv, Option.getD_some]

end

/-- `NOTE` is zero-extended (R93). -/
theorem Voice.field_note_toNat (v : Voice) : (v.field .note).toNat = v.note.toNat := by
  rw [Voice.field, BitVec.toNat_ofNat]
  exact Nat.mod_eq_of_lt (by omega)

/-! ## What the views leave unmapped, and that nothing of them is written -/

section
variable {p : Params} (hp : p.Valid) {n : Nat}
include hp

/-- No address from `0x4000` on can be written (R82, R91, R92, R93). -/
theorem slotOf_views_not_writable (hlow : 0x4000 ≤ n) (hhigh : n < 0x10000) :
    (slotOf p (BitVec.ofNat 16 n)).writable = false := by
  rcases (by omega : n < 0x5000 ∨ (0x5000 ≤ n ∧ n < 0x8000) ∨ 0x8000 ≤ n) with henv | ⟨h5, h8⟩ | hvoice
  · rw [slotOf_envView p hp.bands_high hlow henv]
    split <;> rfl
  · rw [slotOf_histView p h5 h8]
    exact histSlot_not_writable p _
  · rw [slotOf_voiceView p hp.voices_high hvoice hhigh]
    split <;> rfl

theorem slotOf_envView_beyond_bands (hlow : 0x4000 + p.bands ≤ n) (hhigh : n < 0x5000) :
    slotOf p (BitVec.ofNat 16 n) = .unmapped := by
  rw [slotOf_envView p hp.bands_high (by omega) hhigh, if_neg (by omega)]

omit hp in
theorem slotOf_histView_beyond_bands (hlow : 0x5000 + 2 * p.bands * 64 ≤ n) (hhigh : n < 0x8000) :
    slotOf p (BitVec.ofNat 16 n) = .unmapped := by
  rw [slotOf_histView p (by omega) hhigh]
  exact histSlot_beyond_bands p (by omega)

theorem slotOf_voiceView_beyond_voices (hlow : 0x8000 + 8 * p.voices ≤ n) (hhigh : n < 0x10000) :
    slotOf p (BitVec.ofNat 16 n) = .unmapped := by
  rw [slotOf_voiceView p hp.voices_high (by omega) hhigh, if_neg (by omega)]

end

/-- Settles O23: each view is read by its layout lemma; `0x5000 + (r·BANDS + b)·64` and `0x8000 + 8·k` are the bases
of R92 and R93. -/
theorem viewLayout : Obligations.ViewLayout := by
  intro s hs
  refine ⟨fun band hb => ⟨peek_env hs hb, fun r => ⟨?_, ?_, ?_, fun stage hn => ⟨?_, ?_, ?_⟩, ?_⟩⟩,
    fun k v hv => ⟨?_, ?_, ?_, ?_, ?_, ?_, ?_, ?_⟩, fun n hlow hhigh => ⟨?_, ?_, ?_, ?_⟩⟩
  · exact peek_xin hs r hb (tap := 0) (by decide)
  · exact peek_xin hs r hb (tap := 1) (by decide)
  · exact peek_xin hs r hb (tap := 2) (by decide)
  · exact peek_yh hs r hb hn (tap := 0) (by decide)
  · exact peek_yh hs r hb hn (tap := 1) (by decide)
  · exact peek_yh hs r hb hn (tap := 2) (by decide)
  · exact fun off hlow hhigh => slotOf_beyond_stages hs.params r hb hlow hhigh
  · exact (congrArg BitVec.toNat (peek_voice hs hv (i := 0) (by decide))).trans v.field_note_toNat
  · exact peek_voice hs hv (i := 1) (by decide)
  · exact peek_voice hs hv (i := 2) (by decide)
  · exact peek_voice hs hv (i := 3) (by decide)
  · refine (congrArg BitVec.toNat (peek_voice hs hv (i := 4) (by decide))).trans ?_
    change v.state.toWord.toNat = _
    cases v.state <;> rfl
  · exact peek_voice hs hv (i := 5) (by decide)
  · exact peek_voice hs hv (i := 6) (by decide)
  · exact peek_voice hs hv (i := 7) (by decide)
  · exact slotOf_views_not_writable hs.params hlow hhigh
  · exact slotOf_envView_beyond_bands hs.params
  · exact slotOf_histView_beyond_bands
  · exact fun hvoice => slotOf_voiceView_beyond_voices hs.params hvoice hhigh

end Sys2Proof.Machine
end

section
/-! Operands outside the configured sizes (R127). First the words of formats V and B, whose low half is free, so
that every operand value has a legal word; then the commands' checks against `BANDS` and `NUM_NOTES`, and the
fault record they write on a live block. -/

namespace Sys2Proof

/-! ## The words of formats V and B (R121) -/

/-- The fields of a format V word. -/
theorem bitsOf_encodeV {opc : Nat} (hopc : opc < 64) (note : BitVec 16) :
    bitsOf (encodeV opc note) 31 26 = opc ∧ bitsOf (encodeV opc note) 25 16 = 0 ∧
      bitsOf (encodeV opc note) 15 0 = note.toNat := by
  have hnote := note.isLt
  simp only [bitsOf, encodeV_toNat opc note hopc]
  omega

/-- The fields of a format B word. -/
theorem bitsOf_encodeB {opc rm : Nat} (hopc : opc < 64) (hrm : rm < 4) (band : BitVec 16) :
    bitsOf (encodeB opc rm band) 31 26 = opc ∧ bitsOf (encodeB opc rm band) 25 24 = rm ∧
      bitsOf (encodeB opc rm band) 23 16 = 0 ∧ bitsOf (encodeB opc rm band) 15 0 = band.toNat := by
  have hband := band.isLt
  simp only [bitsOf, encodeB_toNat opc rm band hopc hrm]
  omega

/-- Format V takes every note (R127). -/
theorem decodeV_encodeV {opc : Nat} (hopc : opc < 64) (note : BitVec 16) (mk : BitVec 16 → Instr) :
    decodeV (encodeV opc note) mk = .ok (mk note) := by
  obtain ⟨-, hreserved, hnote⟩ := bitsOf_encodeV hopc note
  rw [decodeV, if_pos hreserved, hnote, BitVec.ofNat_toNat, BitVec.setWidth_eq]

theorem decode_encode_press (note : BitVec 16) : decode (encode (.press note)) = .ok (.press note) := by
  obtain ⟨hopc, -⟩ := bitsOf_encodeV (opc := 0x02) (by decide) note
  simp only [encode, decode, hopc, decodeV_encodeV (opc := 0x02) (by decide) note]

theorem decode_encode_release (note : BitVec 16) : decode (encode (.release note)) = .ok (.release note) := by
  obtain ⟨hopc, -⟩ := bitsOf_encodeV (opc := 0x03) (by decide) note
  simp only [encode, decode, hopc, decodeV_encodeV (opc := 0x03) (by decide) note]

/-- Each role of `CSTEP` has its own role mask, and the mask leaves the band free (R125, R127). -/
theorem decode_encode_cstep (band : BitVec 16) :
    decode (encode (.cstepMod band)) = .ok (.cstepMod band) ∧
      decode (encode (.cstepCar band)) = .ok (.cstepCar band) := by
  constructor
  case left => simp [encode, decode, decodeCstep, bitsOf_encodeB]
  case right => simp [encode, decode, decodeCstep, bitsOf_encodeB]

/-- Each choice of roles of `DESIGN` has its own role mask, and the mask leaves the band free (R125, R127). -/
theorem decode_encode_design (band : BitVec 16) :
    decode (encode (.designMod band)) = .ok (.designMod band) ∧
      decode (encode (.designCar band)) = .ok (.designCar band) ∧
      decode (encode (.designBoth band)) = .ok (.designBoth band) := by
  refine ⟨?mod, ?car, ?both⟩
  case mod => simp [encode, decode, decodeDesign, bitsOf_encodeB]
  case car => simp [encode, decode, decodeDesign, bitsOf_encodeB]
  case both => simp [encode, decode, decodeDesign, bitsOf_encodeB]

end Sys2Proof

namespace Sys2Proof.Machine

open Sys2Proof Sys2Proof.Spec

/-! ## The checks of the operands -/

/-- A command's fault on a live block is the record of R502, with the command word as its info (R503). -/
theorem State.raiseCmd_of_live {s : State} (h : s.faulted = false) (c : FaultCode) :
    s.raiseCmd c = faultedWith s c.toWord s.cmd := s.raise_of_live h c s.cmd

/-- `CSTEP` past the bank (R307). -/
theorem cstep_of_ge {s : State} {n : Nat} (r : Role) (h : s.params.bands ≤ n) :
    cstep r n s = s.raiseCmd .badBand := if_neg (Nat.not_lt.2 h)

/-- `DESIGN` past the bank (R272): the band is checked before the design. -/
theorem designBand_of_ge {s : State} {n : Nat} (L : Libm) (store : Coef → Band → Band) (h : s.params.bands ≤ n) :
    designBand L store n s = s.raiseCmd .badBand := if_neg (Nat.not_lt.2 h)

/-- `PRESS` past the table of notes (R360). -/
theorem pressNote_of_ge {s : State} {note : BitVec 16} (h : s.params.numNotes ≤ note.toNat) :
    pressNote note s = s.raiseCmd .badNote := if_neg (Nat.not_lt.2 h)

/-- `RELEASE` past the table of notes (R366). -/
theorem execRelease_of_ge {s : State} {note : BitVec 16} (h : s.params.numNotes ≤ note.toNat) :
    execRelease note s = .next (s.raiseCmd .badNote) :=
  congrArg Host.Outcome.next (if_neg (Nat.not_lt.2 h))

/-! ## The commands with an operand -/

/-- Every command with a band or note operand has a legal word for every operand value (R127). -/
theorem decode_encode_operand (n : BitVec 16) :
    ∀ i ∈ [Instr.cstepMod n, .cstepCar n, .designMod n, .designCar n, .designBoth n, .press n, .release n],
      decode (encode i) = .ok i := by
  obtain ⟨hcstepMod, hcstepCar⟩ := decode_encode_cstep n
  obtain ⟨hdesignMod, hdesignCar, hdesignBoth⟩ := decode_encode_design n
  simp only [List.forall_mem_cons]
  exact ⟨hcstepMod, hcstepCar, hdesignMod, hdesignCar, hdesignBoth, decode_encode_press n, decode_encode_release n,
    List.forall_mem_nil _⟩

/-- A band past the bank makes `CSTEP` and `DESIGN` raise `BAD_BAND` (R127, R272, R307). -/
theorem exec_band_of_ge {s : State} {n : BitVec 16} (h : s.params.bands ≤ n.toNat) :
    ∀ i ∈ [Instr.cstepMod n, .cstepCar n, .designMod n, .designCar n, .designBoth n],
      exec i s = .next (s.raiseCmd .badBand) := by
  simp only [List.forall_mem_cons]
  refine ⟨?cstepMod, ?cstepCar, ?designMod, ?designCar, ?designBoth, List.forall_mem_nil _⟩
  case cstepMod => exact congrArg Host.Outcome.next (cstep_of_ge .modulator h)
  case cstepCar => exact congrArg Host.Outcome.next (cstep_of_ge .carrier h)
  case designMod => exact congrArg Host.Outcome.next (designBand_of_ge Config.libm storeMod h)
  case designCar => exact congrArg Host.Outcome.next (designBand_of_ge Config.libm storeCar h)
  case designBoth => exact congrArg Host.Outcome.next (designBand_of_ge Config.libm storeBoth h)

/-- A note past the table makes `PRESS` and `RELEASE` raise `BAD_NOTE` (R127, R360, R366). -/
theorem exec_note_of_ge {s : State} {n : BitVec 16} (h : s.params.numNotes ≤ n.toNat) :
    ∀ i ∈ [Instr.press n, .release n], exec i s = .next (s.raiseCmd .badNote) := by
  simp only [List.forall_mem_cons]
  refine ⟨?press, ?release, List.forall_mem_nil _⟩
  case press => exact congrArg Host.Outcome.next (pressNote_of_ge h)
  case release => exact execRelease_of_ge h

/-- Settles O36: the low half of a format V or B word is free, and on a live block each command's check against
`BANDS` or `NUM_NOTES` leaves only the fault record. -/
theorem operandFaults : Obligations.OperandFaults := by
  refine ⟨decode_encode_operand, fun s n hlive => ⟨fun hband i hi => ?_, fun hnote i hi => ?_⟩⟩
  · rw [exec_band_of_ge hband i hi, State.raiseCmd_of_live hlive, FaultCode.toWord]
  · rw [exec_note_of_ge hnote i hi, State.raiseCmd_of_live hlive, FaultCode.toWord]

end Sys2Proof.Machine
end

section
/-! The fixed-point commands of the arithmetic unit (R210 to R221). First the words of format A; then what a
narrowed or widened result and a fault leave in the state; then the exact arithmetic of the floor and of the
quotient. -/

namespace Sys2Proof

/-! ## The words of format A (R121) -/

/-- The fields of a format A word. -/
theorem bitsOf_encodeA {aop k : Nat} (haop : aop < 32) (hk : k < 64) :
    bitsOf (encodeA aop k) 31 26 = 1 ∧ bitsOf (encodeA aop k) 25 21 = aop ∧
      bitsOf (encodeA aop k) 20 15 = k ∧ bitsOf (encodeA aop k) 14 0 = 0 := by
  simp only [bitsOf, encodeA, BitVec.toNat_ofNat]
  omega

/-- The shift format takes every amount below `W` (R125). -/
theorem decodeShift_encodeA {aop : Nat} (haop : aop < 32) {k : BitVec 6} (hk : k.toNat < 32)
    (mk : BitVec 6 → Instr) : decodeShift (encodeA aop k.toNat) mk = .ok (mk k) := by
  obtain ⟨-, -, hshift, hreserved⟩ := bitsOf_encodeA haop k.isLt
  rw [decodeShift, if_neg (not_not.2 hreserved), hshift, if_neg (Nat.not_le.2 hk), BitVec.ofNat_toNat,
    BitVec.setWidth_eq]

/-- `SHL` and `SHR` by `K < W` have legal words (R125). -/
theorem decode_encode_shift {k : BitVec 6} (hk : k.toNat < 32) :
    decode (encode (.aluShl k)) = .ok (.aluShl k) ∧ decode (encode (.aluShr k)) = .ok (.aluShr k) := by
  have hshl := bitsOf_encodeA (aop := 0x0A) (by decide) k.isLt
  have hshr := bitsOf_encodeA (aop := 0x0B) (by decide) k.isLt
  constructor
  case left => simp only [encode, decode, decodeAlu, hshl, decodeShift_encodeA (aop := 0x0A) (by decide) hk]
  case right => simp only [encode, decode, decodeAlu, hshr, decodeShift_encodeA (aop := 0x0B) (by decide) hk]

end Sys2Proof

namespace Sys2Proof.Machine

open Sys2Proof Sys2Proof.Spec

/-! ## Results in the state (R202, R203, R206) -/

/-- The condition of R202's mark `V_RANGE`. -/
theorem fitsSigned_word_eq_false (v : Int) : fitsSigned wordWidth v = false ↔ v < -2 ^ 31 ∨ 2 ^ 31 ≤ v := by
  rw [← Bool.not_eq_true, fitsSigned_word]
  omega

/-- The condition of R203's mark `V_ACC`. -/
theorem fitsSigned_acc_eq_false (v : Int) : fitsSigned accWidth v = false ↔ v < -2 ^ 63 ∨ 2 ^ 63 ≤ v := by
  rw [← Bool.not_eq_true, fitsSigned_acc]
  omega

/-- Writing a narrowed integer to `Y` is R202. -/
theorem narrowsTo_writeY (s : State) (v : Int) : NarrowsTo v s (.next (s.writeY (narrow v))) := by
  refine ⟨_, _, rfl, toInt_ofInt_word_congr v, ?marked, ?acc, ?doublePress, ?ageWrap⟩
  case marked => simp [narrow, Marks.ofRange, fitsSigned_word_eq_false]
  all_goals simp [narrow, Marks.ofRange]

/-- Writing a widened integer to `ACC` is R203. -/
theorem widensTo_writeAcc (s : State) (u : Int) : WidensTo u s (.next (s.writeAcc (widen u))) := by
  refine ⟨_, _, rfl, toInt_ofInt_wide_congr u, ?marked, ?range, ?doublePress, ?ageWrap⟩
  case marked => simp [widen, Marks.ofAcc, fitsSigned_acc_eq_false]
  all_goals simp [widen, Marks.ofAcc]

/-- A result without a mark changes its register alone. -/
theorem State.writeY_pure (s : State) (w : Word) : s.writeY (Marked.pure w) = { s with y := w } := by
  simp [State.writeY, State.addMarks]

theorem State.writeAcc_pure (s : State) (u : Wide) : s.writeAcc (Marked.pure u) = { s with acc := u } := by
  simp [State.writeAcc, State.addMarks]

/-! ## The floor and the quotient -/

/-- `Int`'s quotient by a power of two is the one floor (R204). -/
theorem isFloor_asr (v : Int) (k : Nat) : IsFloor (asr v k) v (2 ^ k) := asr_floor v k

theorem asr_eq_of_isFloor {q v : Int} {k : Nat} (h : IsFloor q v (2 ^ k)) : asr v k = q := by
  obtain ⟨hlow, hhigh⟩ := h
  have hpos : (0 : Int) < 2 ^ k := by positivity
  exact (Int.ediv_eq_iff_of_pos hpos).2 ⟨hlow, by linarith⟩

/-- A quotient whose remainder has the numerator's sign and is smaller than the divisor is the one rounded toward
zero (R213). -/
theorem tdiv_eq_of_remainder {n d q r : Int} (h : n = q * d + r) (hr : r.natAbs < d.natAbs)
    (hpos : 0 ≤ n → 0 ≤ r) (hneg : n < 0 → r ≤ 0) : n.tdiv d = q := by
  have hd : d ≠ 0 := by omega
  have hn : r + d * q = n := by rw [h]; ring
  rcases Int.lt_or_le n 0 with hlt | hge
  · have hr0 := hneg hlt
    exact ((Int.tdiv_tmod_unique' hlt.le hd).2 ⟨hn, by omega, hr0⟩).1
  · have hr0 := hpos hge
    exact ((Int.tdiv_tmod_unique hge hd).2 ⟨hn, hr0, by omega⟩).1

/-- A word shifted right fits a word (R221). -/
theorem fxShr_toInt (a : Word) (k : Nat) : (fxShr a k).toInt = asr a.toInt k := by
  obtain ⟨hlow, hhigh⟩ := word_toInt_range a
  have hpos : (0 : Int) < 2 ^ k := by positivity
  have hone : (1 : Int) ≤ 2 ^ k := hpos
  refine toInt_ofInt_word ⟨?low, ?high⟩
  case low => exact (Int.le_ediv_iff_mul_le hpos).2 (by nlinarith)
  case high => exact (Int.ediv_lt_iff_lt_mul hpos).2 (by nlinarith)

/-! ## The commands -/

/-- Settles O24: each command narrows its exact integer, and the model's absolute value is the integer one. -/
theorem addSubAbsNarrow : Obligations.AddSubAbsNarrow := by
  refine ⟨rfl, rfl, rfl, fun s => ⟨narrowsTo_writeY s _, narrowsTo_writeY s _, ?abs⟩⟩
  case abs => rw [← Int.natCast_natAbs]; exact narrowsTo_writeY s _

/-- Settles O25: the arithmetic shift is the floor, which is unique. -/
theorem mulAndCompactFloor : Obligations.MulAndCompactFloor := by
  refine ⟨rfl, rfl, fun s q => ⟨fun hmul => ?mul, fun hcompact => ?compact⟩⟩
  case mul => exact asr_eq_of_isFloor hmul ▸ narrowsTo_writeY s _
  case compact => exact asr_eq_of_isFloor hcompact ▸ narrowsTo_writeY s _

/-- What `DIV` answers (R213). -/
theorem exec_aluDiv_of_ne_zero {s : State} (h : s.b ≠ 0) :
    exec .aluDiv s = .next (s.writeY (narrow ((s.a.toInt * 2 ^ 29).tdiv s.b.toInt))) := by
  simp only [exec, execAluDiv, fxDiv, if_neg h, shl]

theorem exec_aluDiv_of_eq_zero {s : State} (h : s.b = 0) : exec .aluDiv s = .next (s.raiseCmd .divZero) := by
  simp only [exec, execAluDiv, fxDiv, if_pos h]

/-- Settles O26: the quotient rounded toward zero is the one with such a remainder, and the check of `B` comes
first. -/
theorem divTruncatesTowardZero : Obligations.DivTruncatesTowardZero := by
  refine ⟨rfl, fun s q r hb heq hr hpos hneg => ?quotient, fun s hlive hb => ?zero⟩
  case quotient =>
    have hq : (s.a.toInt * 2 ^ 29).tdiv s.b.toInt = q :=
      tdiv_eq_of_remainder heq hr (fun h => hpos (by omega)) (fun h => hneg (by omega))
    rw [exec_aluDiv_of_ne_zero hb, hq]
    exact narrowsTo_writeY s q
  case zero => rw [exec_aluDiv_of_eq_zero hb, State.raiseCmd_of_live hlive, FaultCode.toWord]

/-- Settles O27: `MULW` is exact and marks nothing; the accumulations widen their exact sums. -/
theorem wideResults : Obligations.WideResults := by
  refine ⟨rfl, rfl, rfl, rfl, fun s => ⟨⟨_, ?mulw, fxMulw_toInt s.a s.b⟩,
    widensTo_writeAcc s _, widensTo_writeAcc s _, widensTo_writeAcc s _⟩⟩
  case mulw => exact congrArg Host.Outcome.next (s.writeAcc_pure _)

/-- What the shifts answer for a legal amount (R220, R221). -/
theorem exec_shift_of_lt {k : BitVec 6} (h : k.toNat < 32) (s : State) :
    exec (.aluShl k) s = .next (s.writeY (narrow (s.a.toInt * 2 ^ k.toNat))) ∧
      exec (.aluShr k) s = .next { s with y := fxShr s.a k.toNat } :=
  ⟨congrArg Host.Outcome.next (if_pos h), congrArg Host.Outcome.next ((if_pos h).trans (s.writeY_pure _))⟩

/-- A shift amount of `W` or more is `ILLEGAL_CMD` (R125, R220, R221). -/
theorem exec_shift_of_ge {k : BitVec 6} (h : 32 ≤ k.toNat) (s : State) :
    exec (.aluShl k) s = .next (s.raiseCmd .illegalCmd) ∧ exec (.aluShr k) s = .next (s.raiseCmd .illegalCmd) :=
  ⟨congrArg Host.Outcome.next (if_neg (Nat.not_lt.2 h)), congrArg Host.Outcome.next (if_neg (Nat.not_lt.2 h))⟩

/-- Settles O28: the words are the encodings, and the check of `K` chooses between the shift and the fault. -/
theorem shiftsByConstant : Obligations.ShiftsByConstant := by
  refine fun s k => ⟨fun hk => ?legal, fun hk hlive => ?illegal⟩
  case legal =>
    obtain ⟨hdecShl, hdecShr⟩ := decode_encode_shift hk
    obtain ⟨hshl, hshr⟩ := exec_shift_of_lt hk s
    refine ⟨hdecShl, hdecShr, hshl ▸ narrowsTo_writeY s _, _, hshr, ?_⟩
    rw [fxShr_toInt]
    exact isFloor_asr s.a.toInt k.toNat
  case illegal =>
    obtain ⟨hshl, hshr⟩ := exec_shift_of_ge hk s
    rw [hshl, hshr, State.raiseCmd_of_live hlive, FaultCode.toWord]
    exact ⟨rfl, rfl⟩

end Sys2Proof.Machine
end

section
/-! Binary64 patterns and `FROMF`, `TOF` (R222, R223, R225). The model holds a finite value as a whole number of
units of `2^-1074`, so truncating `F · 2^29` is an integer quotient by `2^1045`, and a word is that many units
times itself, which the rounding keeps. -/

namespace Sys2Proof.Machine

open Sys2Proof Sys2Proof.Spec

/-! ## The value of a pattern (R27) -/

/-- The exponent field is the upper part of the magnitude. -/
theorem f64Mag_exp (x : F64) : f64Mag x / 2 ^ 52 = f64Exp x := by
  rw [f64Mag, f64Exp]
  omega

/-- The fraction is the lower part of the magnitude. -/
theorem f64Mag_frac (x : F64) : f64Mag x % 2 ^ 52 = x.toNat % 2 ^ 52 := by
  rw [f64Mag]
  omega

theorem f64Sign_iff (x : F64) : f64Sign x = true ↔ x.toNat / 2 ^ 63 = 1 := by
  have hx := x.isLt
  rw [f64Sign, BitVec.getLsbD, Nat.testBit_eq_decide_div_mod_eq, decide_eq_true_eq]
  omega

theorem f64IsFinite_iff (x : F64) : f64IsFinite x = true ↔ f64Fin x := by
  rw [f64IsFinite, decide_eq_true_eq, f64Fin, f64Exp, f64Mag, f64InfMag]
  omega

/-- The magnitude's value is its number of units. -/
theorem f64AbsUnits_value (x : F64) :
    (f64AbsUnits x : ℚ) * (2 : ℚ) ^ (-1074 : ℤ) =
      if f64Exp x = 0 then ((x.toNat % 2 ^ 52 : Nat) : ℚ) * (2 : ℚ) ^ (-1074 : ℤ)
      else ((2 ^ 52 + x.toNat % 2 ^ 52 : Nat) : ℚ) * (2 : ℚ) ^ ((f64Exp x : ℤ) - 1075) := by
  rw [f64AbsUnits, f64Mag_exp, f64Mag_frac]
  split
  case isTrue subnormal => rfl
  case isFalse normal =>
    obtain ⟨e, he⟩ := Nat.exists_eq_succ_of_ne_zero normal
    have hexp : ((f64Exp x : ℤ) - 1075) = e + -1074 := by omega
    rw [hexp, zpow_add₀ two_ne_zero, zpow_natCast, he, Nat.succ_sub_one, Nat.cast_mul, Nat.cast_pow, Nat.cast_ofNat,
      mul_assoc]

/-- The real value of a pattern is its number of units of `2^-1074`. -/
theorem f64Value_eq_units (x : F64) : f64Value x = (f64Units x : ℚ) * (2 : ℚ) ^ (-1074 : ℤ) := by
  rw [f64Value, ← f64AbsUnits_value, f64Units]
  by_cases hneg : f64Sign x = true
  · rw [if_pos ((f64Sign_iff x).1 hneg), if_pos hneg, Int.cast_neg, Int.cast_natCast, neg_mul]
  · rw [if_neg (mt (f64Sign_iff x).2 hneg), if_neg hneg, Int.cast_natCast]

/-! ## Packing and exact rounding -/

/-- Packing and the two parts of a pattern are inverse. -/
theorem f64Mag_pack (neg : Bool) {mag : Nat} (h : mag < 2 ^ 63) : f64Mag (f64Pack neg mag) = mag := by
  rw [f64Mag, f64Pack, BitVec.toNat_ofNat]
  cases neg <;> simp <;> omega

theorem f64Sign_pack (neg : Bool) {mag : Nat} (h : mag < 2 ^ 63) : f64Sign (f64Pack neg mag) = neg := by
  rw [Bool.eq_iff_iff, f64Sign_iff, f64Pack, BitVec.toNat_ofNat]
  cases neg <;> simp <;> omega

/-- A normal pattern is its significand, shifted by the exponent field. -/
theorem f64AbsUnits_pack (neg : Bool) {sh m : Nat} (hsh : sh ≤ 2045) (hlow : 2 ^ 52 ≤ m) (hhigh : m < 2 ^ 53) :
    f64AbsUnits (f64Pack neg (sh * 2 ^ 52 + m)) = m * 2 ^ sh := by
  have hexp : (sh * 2 ^ 52 + m) / 2 ^ 52 = sh + 1 := by omega
  have hfrac : 2 ^ 52 + (sh * 2 ^ 52 + m) % 2 ^ 52 = m := by omega
  rw [f64AbsUnits, f64Mag_pack neg (by omega)]
  simp only [hexp, hfrac, if_neg (Nat.succ_ne_zero sh), Nat.add_sub_cancel]

/-- A whole quotient is its own rounding. -/
theorem roundNearestEven_mul {m den : Nat} (h : 0 < den) : roundNearestEven (m * den) den = m := by
  rw [roundNearestEven, Nat.mul_div_cancel m h, Nat.mul_mod_left, if_pos (.inl h)]

/-- A number of units with a 53-bit significand is not rounded (R27). -/
theorem f64Round_exact (neg : Bool) {sh m : Nat} (hsh : sh ≤ 2044) (hlow : 2 ^ 52 ≤ m) (hhigh : m < 2 ^ 53) :
    f64Round neg (m * 2 ^ sh) 1 = f64Pack neg (sh * 2 ^ 52 + m) := by
  have hpos : 0 < 2 ^ sh := Nat.two_pow_pos sh
  have hlog : (m * 2 ^ sh).log2 = 52 + sh := by
    rw [Nat.log2_eq_iff (by positivity), pow_add, Nat.add_right_comm, pow_add]
    exact ⟨Nat.mul_le_mul_right _ hlow, Nat.mul_lt_mul_of_pos_right hhigh hpos⟩
  rw [f64Round, Nat.div_one, hlog, Nat.add_sub_cancel_left, one_mul, roundNearestEven_mul hpos,
    Nat.min_eq_left (by rw [f64InfMag]; omega)]

/-- A number of at most 53 bits has a 53-bit significand at any scale of 52 bits or more. -/
theorem exists_significand {n e : Nat} (hn : n ≠ 0) (hlog : n.log2 ≤ 52) (he : 52 ≤ e) :
    ∃ m sh, n * 2 ^ e = m * 2 ^ sh ∧ 2 ^ 52 ≤ m ∧ m < 2 ^ 53 ∧ sh ≤ e := by
  have hsplit : 2 ^ n.log2 * 2 ^ (52 - n.log2) = 2 ^ 52 := by rw [← pow_add, Nat.add_sub_cancel' hlog]
  have hscale : 2 ^ (52 - n.log2) * 2 ^ (e - (52 - n.log2)) = 2 ^ e := by
    rw [← pow_add, Nat.add_sub_cancel' (by omega)]
  refine ⟨n * 2 ^ (52 - n.log2), e - (52 - n.log2), ?scaled, ?low, ?high, Nat.sub_le _ _⟩
  case scaled => rw [mul_assoc, hscale]
  case low => exact hsplit ▸ Nat.mul_le_mul_right _ (Nat.log2_self_le hn)
  case high =>
    calc n * 2 ^ (52 - n.log2) < 2 ^ (n.log2 + 1) * 2 ^ (52 - n.log2) :=
          Nat.mul_lt_mul_of_pos_right Nat.lt_log2_self (Nat.two_pow_pos _)
      _ = 2 ^ 53 := by rw [pow_succ, mul_right_comm, hsplit, ← pow_succ]

/-! ## `fx_tof` -/

/-- The magnitude of a word converts without rounding, to a finite pattern with the given sign (R223). -/
theorem f64Round_word (neg : Bool) {n : Nat} (hn : n ≤ 2 ^ 31) :
    ∃ mag, f64Round neg (n * 2 ^ (1074 - pointPos)) 1 = f64Pack neg mag ∧ mag < f64InfMag ∧
      f64AbsUnits (f64Pack neg mag) = n * 2 ^ (1074 - pointPos) := by
  rcases Nat.eq_zero_or_pos n with rfl | hpos
  · refine ⟨0, ?zero, by decide, ?units⟩
    case zero => rw [zero_mul]; cases neg <;> decide
    case units => rw [zero_mul]; cases neg <;> decide
  · have hlog : n.log2 ≤ 52 := by
      have := (Nat.log2_lt (k := 53) hpos.ne').2 (by omega)
      omega
    obtain ⟨m, sh, heq, hlow, hhigh, hsh⟩ := exists_significand (e := 1074 - pointPos) hpos.ne' hlog (by decide)
    have hsh' : sh ≤ 1045 := hsh
    refine ⟨sh * 2 ^ 52 + m, ?_, by rw [f64InfMag]; omega, ?_⟩
    · rw [heq, f64Round_exact neg (by omega) hlow hhigh]
    · rw [heq, f64AbsUnits_pack neg (by omega) hlow hhigh]

/-- `fx_tof` answers a finite pattern of exactly the word's number of units (R223). -/
theorem fxTof_spec (a : Word) :
    f64IsFinite (fxTof a) = true ∧ f64Units (fxTof a) = a.toInt * 2 ^ (1074 - pointPos) := by
  have ha := word_toInt_range a
  obtain ⟨mag, hround, hfin, hunits⟩ := f64Round_word (decide (a.toInt < 0)) (n := a.toInt.natAbs) (by omega)
  have hmag : mag < 2 ^ 63 := by rw [f64InfMag] at hfin; omega
  rw [fxTof, hround, f64IsFinite, f64Mag_pack _ hmag, f64Units, f64Sign_pack _ hmag, hunits]
  refine ⟨decide_eq_true hfin, ?_⟩
  rw [Nat.cast_mul, Nat.cast_pow, Nat.cast_ofNat]
  by_cases hneg : a.toInt < 0
  · rw [if_pos (decide_eq_true hneg), ← neg_mul, Int.ofNat_natAbs_of_nonpos hneg.le, neg_neg]
  · rw [if_neg (by simpa using hneg), Int.natAbs_of_nonneg (by omega)]

theorem fxTof_zero : fxTof 0 = 0 := by
  rw [fxTof, show (0 : Word).toInt = 0 from rfl, Int.natAbs_zero, zero_mul]
  decide

/-- Settles O30: a word has at most 32 significant bits, so its conversion is not rounded. -/
theorem tofIsExact : Obligations.TofIsExact := by
  refine ⟨rfl, fun s => ?_⟩
  obtain ⟨hfin, hunits⟩ := fxTof_spec s.a
  refine ⟨fxTof s.a, rfl, ?finite, ?value, fun hzero => hzero ▸ fxTof_zero⟩
  case finite => exact (f64IsFinite_iff _).1 hfin
  case value =>
    have hscale : (2 : ℚ) ^ (1074 - pointPos) * (2 : ℚ) ^ (-1074 : ℤ) = 1 / 2 ^ 29 := by
      rw [← zpow_natCast, ← zpow_add₀ two_ne_zero]
      norm_num
    rw [f64Value_eq_units, hunits, Int.cast_mul, Int.cast_pow, Int.cast_ofNat, mul_assoc, hscale, mul_one_div]

/-! ## `fx_fromf` -/

/-- Truncating a quotient of integers is the integer quotient toward zero. -/
theorem eq_tdiv_of_isTrunc {t u d : Int} (hd : 0 < d) (h : IsTrunc t ((u : ℚ) / d)) : u.tdiv d = t := by
  obtain ⟨hnonneg, hneg⟩ := h
  have hdq : (0 : ℚ) < d := Int.cast_pos.2 hd
  rcases Int.lt_or_le u 0 with hu | hu
  · obtain ⟨-, hlow, hhigh⟩ := hneg (div_neg_of_neg_of_pos (Int.cast_lt_zero.2 hu) hdq)
    rw [div_le_iff₀ hdq] at hlow
    rw [lt_div_iff₀ hdq] at hhigh
    have hlow' : u ≤ t * d := by exact_mod_cast hlow
    have hhigh' : (t - 1) * d < u := by exact_mod_cast hhigh
    exact tdiv_eq_of_remainder (r := u - t * d) (by ring) (by rw [sub_mul] at hhigh'; omega) (by omega) (by omega)
  · obtain ⟨-, hlow, hhigh⟩ := hnonneg (div_nonneg (Int.cast_nonneg hu) hdq.le)
    rw [le_div_iff₀ hdq] at hlow
    rw [div_lt_iff₀ hdq] at hhigh
    have hlow' : t * d ≤ u := by exact_mod_cast hlow
    have hhigh' : u < (t + 1) * d := by exact_mod_cast hhigh
    exact tdiv_eq_of_remainder (r := u - t * d) (by ring) (by rw [add_mul] at hhigh'; omega) (by omega) (by omega)

/-- The truncation of `F · 2^29` is the quotient of its units that `fx_fromf` takes (R222). -/
theorem units_tdiv_of_isTrunc {x : F64} {t : Int} (h : IsTrunc t (f64Value x * 2 ^ 29)) :
    (f64Units x).tdiv (2 ^ (1074 - pointPos)) = t := by
  refine eq_tdiv_of_isTrunc (by positivity) ?_
  have hscale : (2 : ℚ) ^ (-1074 : ℤ) * 2 ^ 29 = ((2 : ℚ) ^ (1074 - pointPos))⁻¹ := by
    rw [← zpow_natCast, ← zpow_natCast, ← zpow_add₀ two_ne_zero, ← zpow_neg]
    norm_num
  rwa [Int.cast_pow, Int.cast_ofNat, div_eq_mul_inv, ← hscale, ← mul_assoc, ← f64Value_eq_units]

/-- For a finite pattern only the range of the quotient decides (R222). -/
theorem fxFromf_of_finite {x : F64} (h : f64IsFinite x = true) {t : Int}
    (ht : (f64Units x).tdiv (2 ^ (1074 - pointPos)) = t) :
    fxFromf x = if fitsSigned wordWidth t then some (BitVec.ofInt 32 t) else none := by
  rw [fxFromf, h, ht]
  rfl

theorem fxFromf_of_not_finite {x : F64} (h : f64IsFinite x = false) : fxFromf x = none := by
  rw [fxFromf, h]
  rfl

/-- `fx_fromf` undoes `fx_tof` (R225). -/
theorem fxFromf_fxTof (a : Word) : fxFromf (fxTof a) = some a := by
  obtain ⟨hfin, hunits⟩ := fxTof_spec a
  have hquot : (f64Units (fxTof a)).tdiv (2 ^ (1074 - pointPos)) = a.toInt := by
    rw [hunits, Int.mul_tdiv_cancel _ (by positivity)]
  rw [fxFromf_of_finite hfin hquot, if_pos ((fitsSigned_word _).2 (word_toInt_range a)), BitVec.ofInt_toInt]

/-- What `FROMF` answers (R222). -/
theorem exec_aluFromf_of_some {s : State} {y : Word} (h : fxFromf s.f = some y) :
    exec .aluFromf s = .next { s with y := y } := by
  simp only [exec, execAluFromf, h, State.writeY_pure]

theorem exec_aluFromf_of_none {s : State} (h : fxFromf s.f = none) :
    exec .aluFromf s = .next (s.raiseCmd .floatRange) := by
  simp only [exec, execAluFromf, h]

/-- On a live block the fault of `FROMF` is the record with code 9. -/
theorem exec_aluFromf_fault {s : State} (h : fxFromf s.f = none) (hlive : s.faulted = false) :
    exec .aluFromf s = .next (faultedWith s 9#32 s.cmd) := by
  rw [exec_aluFromf_of_none h, State.raiseCmd_of_live hlive, FaultCode.toWord]

/-- Settles O29: the integer quotient of the units is the truncation, and the checks of the format and of the
range choose between the word and the fault. -/
theorem fromfTruncates : Obligations.FromfTruncates := by
  refine ⟨rfl, fun s => ⟨fun t hfin ht hlow hhigh => ?fits, fun t hfin ht hout hlive => ?misfits,
    fun hnot hlive => ?notFinite⟩⟩
  case fits =>
    have hword : fxFromf s.f = some (BitVec.ofInt 32 t) := by
      rw [fxFromf_of_finite ((f64IsFinite_iff _).2 hfin) (units_tdiv_of_isTrunc ht),
        if_pos ((fitsSigned_word t).2 ⟨hlow, hhigh⟩)]
    exact ⟨_, exec_aluFromf_of_some hword, toInt_ofInt_word ⟨hlow, hhigh⟩⟩
  case misfits =>
    have hnone : fxFromf s.f = none := by
      rw [fxFromf_of_finite ((f64IsFinite_iff _).2 hfin) (units_tdiv_of_isTrunc ht),
        (fitsSigned_word_eq_false t).2 hout]
      rfl
    exact exec_aluFromf_fault hnone hlive
  case notFinite =>
    have hnone := fxFromf_of_not_finite (Bool.eq_false_iff.2 (mt (f64IsFinite_iff s.f).1 hnot))
    exact exec_aluFromf_fault hnone hlive

/-- Settles O31: `TOF` is exact, so `FROMF` divides the word's units without remainder. -/
theorem floatRoundTrip : Obligations.FloatRoundTrip :=
  fun s => ⟨_, rfl, exec_aluFromf_of_some (fxFromf_fxTof s.a)⟩

end Sys2Proof.Machine
end

section
/-! The one-pole step `fx_lerp` toward a fixed target (R226, R227). A step whose distance to the target fits a word
is exact; every later distance is shorter, so one step without a mark makes the whole approach exact. -/

namespace Sys2Proof.Machine

open Sys2Proof Sys2Proof.Spec

/-! ## One step -/

/-- A step without a mark starts at a distance that fits a word. -/
theorem fxLerp_clean_distance {s x k : Word} (h : (fxLerp s x k).marks = Marks.empty) :
    -2 ^ 31 ≤ x.toInt - s.toInt ∧ x.toInt - s.toInt < 2 ^ 31 := by
  simp only [fxLerp, Marked.bind_marks, Marks.union_eq_empty] at h
  obtain ⟨hsub, -⟩ := h
  exact (narrow_clean hsub).2

/-- With a rate in `[0, ONE]` a step from a distance that fits a word adds the floor of its share of the distance. -/
theorem fxLerp_toInt {s x k : Word} (hk0 : 0 ≤ k.toInt) (hk1 : k.toInt ≤ 2 ^ 29)
    (hlow : -2 ^ 31 ≤ x.toInt - s.toInt) (hhigh : x.toInt - s.toInt < 2 ^ 31) :
    (fxLerp s x k).val.toInt = s.toInt + asr ((x.toInt - s.toInt) * k.toInt) 29 := by
  have hs := word_toInt_range s
  have hx := word_toInt_range x
  obtain ⟨hup, hdown⟩ := asr_unit_between (x.toInt - s.toInt) k.toInt hk0 hk1
  have hsub : (fxSub x s).val.toInt = x.toInt - s.toInt := (narrow_of_fits hlow hhigh).1
  have hmul : (fxMul (fxSub x s).val k).val.toInt = asr ((x.toInt - s.toInt) * k.toInt) 29 := by
    rw [fxMul, hsub, pointPos]
    exact (narrow_of_fits (by omega) (by omega)).1
  have hadd : (fxLerp s x k).val.toInt = (narrow (s.toInt + (fxMul (fxSub x s).val k).val.toInt)).val.toInt := rfl
  rw [hadd, hmul]
  exact (narrow_of_fits (by omega) (by omega)).1

/-- With the rate 0 the product is 0, whatever the wrapped distance. -/
theorem fxLerp_zero_rate (s x : Word) : (fxLerp s x 0).val = s := by
  have hmul : (fxMul (fxSub x s).val 0).val = 0 := by simp [fxMul, narrow, asr]
  have hadd : (fxLerp s x 0).val = (narrow (s.toInt + (fxMul (fxSub x s).val 0).val.toInt)).val := rfl
  rw [hadd, hmul]
  simp [narrow]

/-! ## The approach -/

/-- What the repeated steps rest on: a rate in `(0, ONE]` and a distance that fits a word. -/
structure Approaches (s x k : Word) : Prop where
  rate_pos : 0 < k.toInt
  rate_le : k.toInt ≤ 2 ^ 29
  low : -2 ^ 31 ≤ x.toInt - s.toInt
  high : x.toInt - s.toInt < 2 ^ 31

theorem Approaches.of_clean {s x k : Word} (hk0 : 0 < k.toInt) (hk1 : k.toInt ≤ 2 ^ 29)
    (h : (fxLerp s x k).marks = Marks.empty) : Approaches s x k :=
  ⟨hk0, hk1, (fxLerp_clean_distance h).1, (fxLerp_clean_distance h).2⟩

section
variable {s x k : Word} (h : Approaches s x k)
include h

theorem Approaches.isFloor_step :
    IsFloor ((fxLerp s x k).val.toInt - s.toInt) ((x.toInt - s.toInt) * k.toInt) (2 ^ 29) := by
  rw [fxLerp_toInt h.rate_pos.le h.rate_le h.low h.high, add_sub_cancel_left]
  exact isFloor_asr _ 29

/-- A step stays exactly when the distance's share is under one unit and not negative. -/
theorem Approaches.step_eq_iff :
    (fxLerp s x k).val = s ↔ 0 ≤ (x.toInt - s.toInt) * k.toInt ∧ (x.toInt - s.toInt) * k.toInt < 2 ^ 29 := by
  obtain ⟨hlow, hhigh⟩ := h.isFloor_step
  rw [← BitVec.toInt_inj]
  omega

/-- From above a step falls and does not pass the target. -/
theorem Approaches.step_falls (habove : x.toInt < s.toInt) :
    x.toInt ≤ (fxLerp s x k).val.toInt ∧ (fxLerp s x k).val.toInt < s.toInt := by
  obtain ⟨-, hdown⟩ := asr_unit_between (x.toInt - s.toInt) k.toInt h.rate_pos.le h.rate_le
  obtain ⟨hlow, -⟩ := isFloor_asr ((x.toInt - s.toInt) * k.toInt) 29
  have hneg : (x.toInt - s.toInt) * k.toInt < 0 := mul_neg_of_neg_of_pos (by omega) h.rate_pos
  rw [fxLerp_toInt h.rate_pos.le h.rate_le h.low h.high]
  omega

/-- From below a step does not fall and does not pass the target. -/
theorem Approaches.step_rises (hbelow : s.toInt ≤ x.toInt) :
    s.toInt ≤ (fxLerp s x k).val.toInt ∧ (fxLerp s x k).val.toInt ≤ x.toInt := by
  obtain ⟨hup, -⟩ := asr_unit_between (x.toInt - s.toInt) k.toInt h.rate_pos.le h.rate_le
  rw [fxLerp_toInt h.rate_pos.le h.rate_le h.low h.high]
  omega

/-- The next distance fits again, being no longer. -/
theorem Approaches.step : Approaches (fxLerp s x k).val x k := by
  have hlow := h.low
  have hhigh := h.high
  rcases Int.lt_or_le x.toInt s.toInt with habove | hbelow
  · obtain ⟨hstop, hfall⟩ := h.step_falls habove
    exact ⟨h.rate_pos, h.rate_le, by omega, by omega⟩
  · obtain ⟨hrise, hstop⟩ := h.step_rises hbelow
    exact ⟨h.rate_pos, h.rate_le, by omega, by omega⟩

end

/-! ## Where the repeated steps end -/

/-- A word that a step keeps is kept for good. -/
theorem lerpTimes_of_fixed {s x k : Word} (h : (fxLerp s x k).val = s) (j : Nat) : lerpTimes x k j s = s := by
  induction j with
  | zero => rfl
  | succ j ih => rw [lerpTimes, h, ih]

/-- Steps that reach a word and keep it from the next word on do so from this one, one step later. -/
theorem lerpTimes_eventually_succ {s x k z : Word} {m : Nat}
    (h : ∀ j, m ≤ j → lerpTimes x k j (fxLerp s x k).val = z) : ∀ j, m + 1 ≤ j → lerpTimes x k j s = z := by
  intro j hj
  obtain ⟨i, rfl⟩ := Nat.exists_eq_add_of_le' hj
  exact h (i + m) (Nat.le_add_left m i)

/-- From above the target is reached and kept, in at most as many steps as the distance has units. -/
theorem Approaches.reaches_from_above {s x k : Word} (h : Approaches s x k) (habove : x.toInt ≤ s.toInt) :
    ∃ m, ∀ j, m ≤ j → lerpTimes x k j s = x := by
  induction hn : (s.toInt - x.toInt).toNat using Nat.strong_induction_on generalizing s with
  | _ n ih =>
    rcases habove.eq_or_lt with heq | hlt
    · obtain rfl : x = s := BitVec.toInt_inj.1 heq
      exact ⟨0, fun j _ => lerpTimes_of_fixed (h.step_eq_iff.2 (by simp)) j⟩
    · obtain ⟨hstop, hfall⟩ := h.step_falls hlt
      obtain ⟨m, hm⟩ := ih _ (by omega) h.step hstop rfl
      exact ⟨m + 1, lerpTimes_eventually_succ hm⟩

/-- From below a word that a step keeps is reached, at or under the target (R227). -/
theorem Approaches.reaches_from_below {s x k : Word} (h : Approaches s x k) (hbelow : s.toInt ≤ x.toInt) :
    ∃ (m : Nat) (z : Word), z.toInt ≤ x.toInt ∧ (x.toInt - z.toInt) * k.toInt < 2 ^ 29 ∧
      ∀ j, m ≤ j → lerpTimes x k j s = z := by
  induction hn : (x.toInt - s.toInt).toNat using Nat.strong_induction_on generalizing s with
  | _ n ih =>
    have hshare : 0 ≤ (x.toInt - s.toInt) * k.toInt := mul_nonneg (by omega) h.rate_pos.le
    obtain ⟨hrise, hstop⟩ := h.step_rises hbelow
    by_cases hsmall : (x.toInt - s.toInt) * k.toInt < 2 ^ 29
    · exact ⟨0, s, hbelow, hsmall, fun j _ => lerpTimes_of_fixed (h.step_eq_iff.2 ⟨hshare, hsmall⟩) j⟩
    · have hmoves : (fxLerp s x k).val.toInt ≠ s.toInt := fun heq =>
        hsmall (h.step_eq_iff.1 (BitVec.toInt_inj.1 heq)).2
      obtain ⟨m, z, hz, hrest, hm⟩ := ih _ (by omega) h.step hstop rfl
      exact ⟨m + 1, z, hz, hrest, lerpTimes_eventually_succ hm⟩

/-- Settles O33: the first step's distance fits, so every step is exact, and the distance shrinks until a step
stays. -/
theorem lerpConverges : Obligations.LerpConverges := by
  refine ⟨fun s x k hk0 hk1 hclean => ?approach, fxLerp_zero_rate⟩
  have h := Approaches.of_clean hk0 hk1 hclean
  refine ⟨h.isFloor_step, fun htarget => ?onTarget, fun habove => ?above, fun hbelow => ?below⟩
  case onTarget => exact h.step_eq_iff.2 (by simp [htarget])
  case above =>
    obtain ⟨hstop, hfall⟩ := h.step_falls habove
    exact ⟨hstop, hfall, h.reaches_from_above habove.le⟩
  case below =>
    obtain ⟨hrise, hstop⟩ := h.step_rises hbelow.le
    have hshare : 0 ≤ (x.toInt - s.toInt) * k.toInt := mul_nonneg (by omega) hk0.le
    exact ⟨hrise, hstop, h.step_eq_iff.trans (and_iff_right hshare), h.reaches_from_below hbelow.le⟩

end Sys2Proof.Machine
end

section
/-! The filter designer's checks on binary64 values (R251, R259). The pattern without its sign orders the magnitudes,
so the model's comparison is the comparison of the real values; its two range checks then are conditions on the
value alone. -/

namespace Sys2Proof.Machine

open Sys2Proof Sys2Proof.Spec

/-! ## Comparing patterns (R27) -/

/-- The number of units of a magnitude pattern. -/
def magUnits (mag : Nat) : Nat :=
  if mag / 2 ^ 52 = 0 then mag % 2 ^ 52 else (2 ^ 52 + mag % 2 ^ 52) * 2 ^ (mag / 2 ^ 52 - 1)

theorem f64AbsUnits_eq_magUnits (x : F64) : f64AbsUnits x = magUnits (f64Mag x) := rfl

/-- The next pattern has the next fraction, or after the last fraction the next exponent. -/
theorem magUnits_strictMono : StrictMono magUnits := by
  refine strictMono_nat_of_lt_succ fun mag => ?_
  by_cases hlast : mag % 2 ^ 52 = 2 ^ 52 - 1
  · have hdiv : (mag + 1) / 2 ^ 52 = mag / 2 ^ 52 + 1 := by omega
    have hmod : (mag + 1) % 2 ^ 52 = 0 := by omega
    rw [magUnits, magUnits, hdiv, hmod, hlast, if_neg (Nat.succ_ne_zero _), Nat.add_sub_cancel]
    cases mag / 2 ^ 52 with
    | zero => decide
    | succ e =>
      have hpos : 0 < 2 ^ e := Nat.two_pow_pos e
      rw [if_neg (Nat.succ_ne_zero e), Nat.add_sub_cancel, pow_succ]
      omega
  · have hdiv : (mag + 1) / 2 ^ 52 = mag / 2 ^ 52 := by omega
    have hmod : (mag + 1) % 2 ^ 52 = mag % 2 ^ 52 + 1 := by omega
    rw [magUnits, magUnits, hdiv, hmod]
    split
    case isTrue => exact Nat.lt_succ_self _
    case isFalse => exact Nat.mul_lt_mul_of_pos_right (by omega) (Nat.two_pow_pos _)

/-- The signed magnitudes order the patterns as their units do; both zeros have the same place. -/
theorem f64Key_lt_iff (x y : F64) : f64Key x < f64Key y ↔ f64Units x < f64Units y := by
  have hxy := magUnits_strictMono.lt_iff_lt (a := f64Mag x) (b := f64Mag y)
  have hyx := magUnits_strictMono.lt_iff_lt (a := f64Mag y) (b := f64Mag x)
  have hx := magUnits_strictMono.lt_iff_lt (a := 0) (b := f64Mag x)
  have hy := magUnits_strictMono.lt_iff_lt (a := 0) (b := f64Mag y)
  have hzero : magUnits 0 = 0 := rfl
  simp only [f64Key, f64Units, f64AbsUnits_eq_magUnits]
  split_ifs <;> omega

/-- Between patterns that are no NaN the model compares the real values, the infinities' formal ones among them. -/
theorem f64Lt_iff (x y : F64) :
    f64Lt x y = true ↔ f64IsNaN x = false ∧ f64IsNaN y = false ∧ f64Value x < f64Value y := by
  have hunit : (0 : ℚ) < 2 ^ (-1074 : ℤ) := by positivity
  rw [f64Value_eq_units, f64Value_eq_units, mul_lt_mul_iff_left₀ hunit, Int.cast_lt, ← f64Key_lt_iff]
  simp [f64Lt, and_assoc]

theorem f64IsNaN_of_fin {x : F64} (h : f64Fin x) : f64IsNaN x = false := by
  have hfin := (f64IsFinite_iff x).2 h
  simp only [f64IsFinite, f64IsNaN, decide_eq_true_eq, decide_eq_false_iff_not] at hfin ⊢
  omega

/-- The formal value of a pattern with the top exponent is past every bound that the designer checks. -/
theorem four_lt_abs_f64Value {x : F64} (h : ¬ f64Fin x) : 4 < |f64Value x| := by
  have hmag : f64InfMag ≤ f64Mag x := by
    simpa [f64IsFinite] using mt (f64IsFinite_iff x).1 h
  have hunits : magUnits (1025 * 2 ^ 52) < f64AbsUnits x :=
    magUnits_strictMono (by rw [f64InfMag] at hmag; omega)
  have hfour : (4 : ℚ) = (magUnits (1025 * 2 ^ 52) : ℚ) * 2 ^ (-1074 : ℤ) := by
    have : magUnits (1025 * 2 ^ 52) = 2 ^ 1076 := by decide +kernel
    rw [this, Nat.cast_pow, Nat.cast_ofNat, ← zpow_natCast, ← zpow_add₀ two_ne_zero]
    norm_num
  have habs : |(f64Units x : ℚ)| = f64AbsUnits x := by
    rw [f64Units]
    split <;> simp
  rw [f64Value_eq_units, abs_mul, habs, abs_of_pos (by positivity : (0 : ℚ) < 2 ^ (-1074 : ℤ)), hfour]
  exact mul_lt_mul_of_pos_right (Nat.cast_lt.2 hunits) (by positivity)

/-! ## The centre check (R251) -/

/-- The ends of the centre's range. -/
theorem f64Zero_spec : f64IsNaN f64Zero = false ∧ f64Value f64Zero = 0 := by
  refine ⟨by decide, ?_⟩
  simp [f64Value, f64Exp, f64Zero]

theorem f64Half_spec : f64IsNaN f64Half = false ∧ f64Value f64Half = 1 / 2 := by
  have hpattern : f64Half = 0x3FE0000000000000#64 := by decide +kernel
  rw [hpattern]
  refine ⟨by decide, ?_⟩
  norm_num [f64Value, f64Exp]

/-- The check is the condition on the centre's value; a NaN and an infinity fail it. -/
theorem fcInRange_iff (fc : F64) :
    fcInRange fc = true ↔ f64Fin fc ∧ 0 < f64Value fc ∧ f64Value fc < 1 / 2 := by
  obtain ⟨hzeroNum, hzero⟩ := f64Zero_spec
  obtain ⟨hhalfNum, hhalf⟩ := f64Half_spec
  rw [fcInRange, Bool.and_eq_true, f64Lt_iff, f64Lt_iff, hzero, hhalf]
  constructor
  case mp =>
    rintro ⟨⟨-, -, hpos⟩, -, -, hlt⟩
    refine ⟨not_not.1 fun hnot => ?_, hpos, hlt⟩
    have hbig := four_lt_abs_f64Value hnot
    rw [abs_of_pos hpos] at hbig
    linarith
  case mpr =>
    rintro ⟨hfin, hpos, hlt⟩
    have hnum := f64IsNaN_of_fin hfin
    exact ⟨⟨hzeroNum, hnum, hpos⟩, hnum, hhalfNum, hlt⟩

/-- The centre's fault comes from the centre's check only (R251, R260). -/
theorem design_eq_fcRange_iff (L : Libm) (fc fw : F64) (n : Nat) :
    design L fc fw n = .error .cfgFcRange ↔ fcInRange fc = false := by
  rcases design_cases L fc fw n with ⟨hc, hd⟩ | ⟨hc, hd | hd⟩ | ⟨hc, c, hd, -⟩ <;> simp [hc, hd]

/-- Settles O38: the check compares real values, no later step answers its fault, and the root pairs make two
stages each. -/
theorem designChecksTheCentre : Obligations.DesignChecksTheCentre := by
  refine fun L fc fw n => ⟨?centre, fun heven c hc => design_length heven hc⟩
  rw [design_eq_fcRange_iff, ← fcInRange_iff, Bool.not_eq_true]

/-! ## The conversion (R259) -/

/-- The ends of the coefficients' range. -/
theorem f64Four_spec : f64IsNaN f64Four = false ∧ f64Value f64Four = 4 := by
  have hpattern : f64Four = 0x4010000000000000#64 := by decide +kernel
  rw [hpattern]
  refine ⟨by decide, ?_⟩
  norm_num [f64Value, f64Exp]

theorem f64MinusFour_spec : f64IsNaN f64MinusFour = false ∧ f64Value f64MinusFour = -4 := by
  have hpattern : f64MinusFour = 0xC010000000000000#64 := by decide +kernel
  rw [hpattern]
  refine ⟨by decide, ?_⟩
  norm_num [f64Value, f64Exp]

/-- The range of R259 is a condition on the value; a NaN and the infinities are outside it. -/
theorem coefInRange_iff (x : F64) : coefInRange x = true ↔ f64Fin x ∧ -4 ≤ f64Value x ∧ f64Value x < 4 := by
  obtain ⟨hfourNum, hfour⟩ := f64Four_spec
  obtain ⟨hminusNum, hminus⟩ := f64MinusFour_spec
  rw [coefInRange, Bool.and_eq_true, Bool.not_eq_true', ← Bool.not_eq_true, f64Lt_iff, f64Lt_iff, hfour, hminus]
  constructor
  case mp =>
    rintro ⟨hnotBelow, hnum, -, hhigh⟩
    have hlow : -4 ≤ f64Value x := not_lt.1 fun hlt => hnotBelow ⟨hnum, hminusNum, hlt⟩
    refine ⟨not_not.1 fun hnot => ?_, hlow, hhigh⟩
    exact absurd (abs_le.2 ⟨hlow, hhigh.le⟩) (not_le.2 (four_lt_abs_f64Value hnot))
  case mpr =>
    rintro ⟨hfin, hlow, hhigh⟩
    exact ⟨fun ⟨_, _, hbelow⟩ => absurd hbelow (not_lt.2 hlow), f64IsNaN_of_fin hfin, hfourNum, hhigh⟩

/-- Every rational has a truncation. -/
theorem exists_isTrunc (v : ℚ) : ∃ t : Int, IsTrunc t v := by
  rcases lt_or_ge v 0 with hneg | hnonneg
  · refine ⟨⌈v⌉, fun h => absurd hneg (not_lt.2 h), fun _ => ⟨?_, Int.le_ceil v, ?_⟩⟩
    · exact Int.ceil_le.2 (by simpa using hneg.le)
    · exact sub_lt_iff_lt_add.2 (Int.ceil_lt_add_one v)
  · exact ⟨⌊v⌋, fun _ => ⟨Int.floor_nonneg.2 hnonneg, Int.floor_le v, Int.lt_floor_add_one v⟩,
      fun h => absurd h (not_lt.2 hnonneg)⟩

/-- A truncation lies in every interval `[-m, m)` of integers that holds the value. -/
theorem isTrunc_bounds {t m : Int} {v : ℚ} (h : IsTrunc t v) (hlow : -(m : ℚ) ≤ v) (hhigh : v < m) :
    -m ≤ t ∧ t < m := by
  obtain ⟨hup, hdown⟩ := h
  rcases lt_or_ge v 0 with hneg | hnonneg
  · obtain ⟨hnonpos, hle, -⟩ := hdown hneg
    have hlow' : -m ≤ t := by exact_mod_cast hlow.trans hle
    have hm : 0 < m := by
      have : (0 : ℚ) < m := by linarith
      exact_mod_cast this
    omega
  · obtain ⟨hpos, hle, -⟩ := hup hnonneg
    have hhigh' : t < m := by exact_mod_cast hle.trans_lt hhigh
    omega

/-- Inside the range the conversion is the truncation (R222, R259). -/
theorem convertCoef_of_inRange {x : F64} (h : coefInRange x = true) :
    ∃ w : Word, convertCoef x = .ok w ∧ IsTrunc w.toInt (f64Value x * 2 ^ 29) := by
  obtain ⟨hfin, hlow, hhigh⟩ := (coefInRange_iff x).1 h
  obtain ⟨t, ht⟩ := exists_isTrunc (f64Value x * 2 ^ 29)
  have hfits : -2 ^ 31 ≤ t ∧ t < 2 ^ 31 := isTrunc_bounds ht (by push_cast; linarith) (by push_cast; linarith)
  have hword : fxFromf x = some (BitVec.ofInt 32 t) := by
    rw [fxFromf_of_finite ((f64IsFinite_iff x).2 hfin) (units_tdiv_of_isTrunc ht), if_pos ((fitsSigned_word t).2 hfits)]
  refine ⟨BitVec.ofInt 32 t, ?_, by rwa [toInt_ofInt_word hfits]⟩
  rw [convertCoef, if_pos h, hword]

/-- Outside the range it is the fault, whatever `fx_fromf` answers (R259, R500). -/
theorem convertCoef_of_outOfRange {x : F64} (h : coefInRange x = false) : convertCoef x = .error .cfgCoefRange := by
  rw [convertCoef, h]
  rfl

/-- Stages convert only when each coefficient does. -/
theorem convertStages_ok {as : List (F64 × F64)} {cs : List StageCoef} (h : convertStages as = .ok cs) :
    ∀ a ∈ as, (∃ w, convertCoef a.1 = .ok w) ∧ ∃ w, convertCoef a.2 = .ok w := by
  induction as generalizing cs with
  | nil => exact fun a ha => absurd ha List.not_mem_nil
  | cons a as ih =>
    rw [convertStages] at h
    split at h <;> cases h
    next w1 w2 cs' h1 h2 hrest => exact List.forall_mem_cons.2 ⟨⟨⟨w1, h1⟩, w2, h2⟩, ih hrest⟩

/-- A coefficient or a scale that does not convert is the fault of the whole design (R259, R260). -/
theorem design_of_unconverted {L : Libm} {fc fw : F64} {n : Nat} {as : List (F64 × F64)}
    (hcentre : fcInRange fc = true)
    (hpairs : expandStages (stagePoles L (warpBand L fc fw).1 (warpBand L fc fw).2 n) = .ok as) {x : F64}
    (hx : x = scaleFactor L (warpBand L fc fw).2 as ∨ ∃ a ∈ as, x = a.1 ∨ x = a.2)
    (hfault : convertCoef x = .error .cfgCoefRange) : design L fc fw n = .error .cfgCoefRange := by
  simp only [design, hcentre, if_true, hpairs]
  cases hstages : convertStages as with
  | error e => exact congrArg Except.error (convertStages_error hstages)
  | ok cs =>
    have hscale : x = scaleFactor L (warpBand L fc fw).2 as := by
      refine hx.resolve_right ?_
      rintro ⟨a, ha, rfl | rfl⟩
      · obtain ⟨⟨w, hw⟩, -⟩ := convertStages_ok hstages a ha
        cases hfault.symm.trans hw
      · obtain ⟨-, w, hw⟩ := convertStages_ok hstages a ha
        cases hfault.symm.trans hw
    simp only [← hscale, hfault]

/-- Numerics that answer 0 throughout. With them every root is real, and the response of R258 is `0 / 0`. -/
def zeroLibm : Libm where
  tan _ := 0
  atan _ := 0
  cos _ := 0
  sin _ := 0
  csqrt _ := ⟨0, 0⟩
  cabs _ := 0
  cmul _ _ := ⟨0, 0⟩
  cdiv _ _ := ⟨0, 0⟩

/-- The hypotheses of `design_of_unconverted` can hold: a design of order 2 whose scale is no number. -/
theorem design_zeroLibm :
    design zeroLibm 0x3FD0000000000000#64 0x3FD0000000000000#64 2 = .error .cfgCoefRange := by
  have hpair : expandPair ⟨0#64, 0#64⟩ ⟨0#64, 0#64⟩ = some (0x8000000000000000#64, 0#64) := by decide +kernel
  have hpairs (bw o0sq : F64) :
      expandStages (stagePoles zeroLibm bw o0sq 2) = .ok (List.replicate 2 (0x8000000000000000#64, 0#64)) := by
    simp [stagePoles, pairPoles, digitalRoots, zeroLibm, expandStages, hpair]
  exact design_of_unconverted (by decide +kernel) (hpairs _ _) (.inl rfl)
    (convertCoef_of_outOfRange (by decide +kernel))

/-- Settles O60: the range check is the condition on the value, inside it the integer quotient is the truncation, and
no step after the root pairs raises another fault. -/
theorem conversionKeepsTheCoefficientRange : Obligations.ConversionKeepsTheCoefficientRange := by
  refine ⟨fun x hfin hlow hhigh => convertCoef_of_inRange ((coefInRange_iff x).2 ⟨hfin, hlow, hhigh⟩),
    fun x hout => convertCoef_of_outOfRange ?_, ?design⟩
  · rw [← Bool.not_eq_true, coefInRange_iff]
    rintro ⟨hfin, hlow, hhigh⟩
    rcases hout with hnot | hbelow | habove
    · exact hnot hfin
    · exact not_lt.2 hlow hbelow
    · exact not_lt.2 habove hhigh
  case design =>
    rintro L fc fw n as hcentre hpairs ⟨x, hx, hfault⟩
    exact design_of_unconverted hcentre hpairs hx hfault

end Sys2Proof.Machine
end

section
/-! Illegal command words (R126, R411, R502): what a step does with a word that does not decode, and the words of
format N and of `DESIGN` that do not. -/

namespace Sys2Proof

/-- Format N takes only zero bits below the opcode (R125). -/
theorem decodeN_of_operand {w : Word} (h : bitsOf w 25 0 ≠ 0) (i : Instr) : decodeN w i = .error .reserved := if_neg h

/-- `DESIGN` takes neither a reserved bit nor an empty role mask (R125). -/
theorem decodeDesign_of_illegal {w : Word} (h : bitsOf w 23 16 ≠ 0 ∨ bitsOf w 25 24 = 0) :
    ∃ e, decodeDesign w = .error e := by
  by_cases hreserved : bitsOf w 23 16 = 0
  · have hrole : bitsOf w 25 24 = 0 := h.resolve_left (not_not.2 hreserved)
    exact ⟨.roleMask, by simp [decodeDesign, hreserved, hrole]⟩
  · exact ⟨.reserved, if_pos hreserved⟩

end Sys2Proof

namespace Sys2Proof.Machine

open Sys2Proof Sys2Proof.Spec

/-- The write of a command word to `CMD` issues it (R411). -/
theorem performAction_command (w : Word) (s : State) : performAction (.wr 0x0000#16 w) s = issueCommand w s := by
  unfold performAction hostWrite
  exact if_pos ((slotOf_eq_cmd s.params _).2 rfl)

theorem step_of_command {s : State} {w : Word} {rest : List HostAction} (h : s.pending = .wr 0x0000#16 w :: rest) :
    step s = issueCommand w { s with pending := rest } := by
  rcases step_cases s with ⟨hnil, -⟩ | ⟨act, rest', hcons, hstep⟩
  · cases h.symm.trans hnil
  · obtain ⟨rfl, rfl⟩ := List.cons.inj (h.symm.trans hcons)
    exact hstep.trans (performAction_command w _)

/-- An undecodable word on a live block is recorded as `ILLEGAL_CMD`, and nothing else changes but `CMD`. -/
theorem issueCommand_of_undecodable {s : State} {w : Word} {e : Illegal} (hlive : s.faulted = false)
    (h : decode w = .error e) : issueCommand w s = .next (faultedWith { s with cmd := w } 5#32 w) := by
  rcases issueCommand_cases w s with ⟨hf, -⟩ | ⟨hf, -⟩ | ⟨-, -, hi⟩ | ⟨-, i, hd, -⟩
  · cases hlive.symm.trans hf
  · cases hlive.symm.trans hf
  · rw [hi, State.raise_of_live (s := { s with cmd := w }) hlive]
    rfl
  · cases h.symm.trans hd

/-- A range of words that do not decode is illegal. -/
theorem illegalRange_of_undecodable {lo hi : Nat}
    (h : ∀ w : Word, lo ≤ w.toNat → w.toNat ≤ hi → ∃ e, decode w = .error e) : IllegalRange lo hi := by
  intro s w rest hlow hhigh hpending hlive
  obtain ⟨e, he⟩ := h w hlow hhigh
  rw [step_of_command hpending, issueCommand_of_undecodable (s := { s with pending := rest }) hlive he]

/-- The words of opcode `0x08` with a reserved bit or no role (R125, R272). -/
theorem illegalRange_design {lo hi : Nat}
    (h : ∀ w : Word, lo ≤ w.toNat → w.toNat ≤ hi →
      bitsOf w 31 26 = 0x08 ∧ (bitsOf w 23 16 ≠ 0 ∨ bitsOf w 25 24 = 0)) : IllegalRange lo hi := by
  refine illegalRange_of_undecodable fun w hlow hhigh => ?_
  obtain ⟨hopc, hillegal⟩ := h w hlow hhigh
  simpa only [decode, hopc] using decodeDesign_of_illegal hillegal

end Sys2Proof.Machine
end

section
/-! The commands of the designer, `DESIGN` (R272) and `VINIT` (R276), over numerics left open: what each writes when the
designs it asks for succeed, and the fault it raises when one fails. -/

namespace Sys2Proof.Machine

open Sys2Proof Sys2Proof.Spec

section
variable {L : Libm} {s : State}

/-! ## `DESIGN` -/

/-- A record goes to the one band, in the way of the role mask. -/
theorem designBand_of_ok {n : Nat} {c : Coef} (store : Coef → Band → Band) (hbands : s.bands.length = s.params.bands)
    (hn : n < s.params.bands) (h : design L s.f s.g s.params.ns = .ok c) :
    designBand L store n s = { s with bands := s.bands.set n (store c (s.band n)) } := by
  rw [designBand, if_pos hn, h]
  exact modifyBand_eq_set s n (store c) (hbands ▸ hn)

/-- A failing design stores nothing. -/
theorem designBand_of_error {n : Nat} {e : FaultCode} (store : Coef → Band → Band) (hn : n < s.params.bands)
    (h : design L s.f s.g s.params.ns = .error e) : designBand L store n s = s.raiseCmd e := by
  rw [designBand, if_pos hn, h]

/-! ## `VINIT` -/

/-- A row of designs that all succeed answers their records. -/
theorem designAll_of_ok {dsgn : Nat → Except FaultCode Coef} {cs : List Coef}
    (h : ∀ (b : Nat) (c : Coef), cs[b]? = some c → dsgn b = .ok c) : designAll dsgn 0 cs.length = .ok cs := by
  rcases designAll_cases dsgn 0 cs.length with ⟨cs', hall, hlength, hget⟩ | ⟨k, hk, e, -, hfails, -⟩
  · rw [hall]
    refine congrArg Except.ok (List.ext_getElem hlength fun b hb' hb => ?_)
    have hrecord := hget b cs'[b] (List.getElem?_eq_getElem hb')
    rw [Nat.zero_add, h b cs[b] (List.getElem?_eq_getElem hb)] at hrecord
    exact (Except.ok.inj hrecord).symm
  · rw [Nat.zero_add, h k cs[k] (List.getElem?_eq_getElem hk)] at hfails
    cases hfails

/-- A row of designs answers the fault of its first failing one (R504). -/
theorem designAll_of_error {dsgn : Nat → Except FaultCode Coef} {b count : Nat} {e : FaultCode} (hb : b < count)
    (hbefore : ∀ b' < b, ∃ c, dsgn b' = .ok c) (h : dsgn b = .error e) : designAll dsgn 0 count = .error e := by
  rcases designAll_cases dsgn 0 count with ⟨cs, -, hlength, hget⟩ | ⟨k, -, e', hall, hfails, hok⟩
  · have hrecord := hget b cs[b] (List.getElem?_eq_getElem (hlength ▸ hb))
    rw [Nat.zero_add, h] at hrecord
    cases hrecord
  · rw [Nat.zero_add] at hfails
    have hfirst : k = b := by
      rcases Nat.lt_trichotomy k b with hlt | heq | hgt
      · obtain ⟨c, hc⟩ := hbefore k hlt
        cases hc.symm.trans hfails
      · exact heq
      · obtain ⟨c, hc⟩ := hok b hgt
        rw [Nat.zero_add, h] at hc
        cases hc
    subst hfirst
    obtain rfl : e' = e := Except.error.inj (hfails.symm.trans h)
    exact hall

/-- The model's plan is the statement's (R275). -/
theorem planBand_eq_planDesign (L : Libm) (s : State) : planBand L s = planDesign L s := rfl

theorem vinit_of_ok {cs : List Coef} (h : designAll (planDesign L s) 0 s.params.bands = .ok cs) :
    vinit L s = afterVinit s cs := by
  rw [vinit, planBand_eq_planDesign, h]
  rfl

theorem vinit_of_error {e : FaultCode} (h : designAll (planDesign L s) 0 s.params.bands = .error e) :
    vinit L s = s.raiseCmd e := by
  rw [vinit, planBand_eq_planDesign, h]

end

/-- Settles O39: the fields of the illegal words, the band's check before the design, and the two answers of the
design. -/
theorem designStoresTheSelectedRoles : Obligations.DesignStoresTheSelectedRoles := by
  refine ⟨⟨?noRole, ?reservedMod, ?reservedCar, ?reservedBoth⟩, fun s band =>
    ⟨decode_encode_design band, ⟨rfl, rfl, rfl⟩, fun hlive hge i hi => ?badBand, fun hinv hlt L => ⟨?stored, ?failed⟩⟩⟩
  case noRole => exact illegalRange_design fun w _ _ => by simp only [bitsOf]; omega
  case reservedMod => exact illegalRange_design fun w _ _ => by simp only [bitsOf]; omega
  case reservedCar => exact illegalRange_design fun w _ _ => by simp only [bitsOf]; omega
  case reservedBoth => exact illegalRange_design fun w _ _ => by simp only [bitsOf]; omega
  case badBand =>
    rw [exec_band_of_ge hge i (List.mem_cons_of_mem _ (List.mem_cons_of_mem _ hi)), State.raiseCmd_of_live hlive,
      FaultCode.toWord]
  case stored =>
    intro c hc
    have hput (store : Coef → Band → Band) := designBand_of_ok store hinv.bandCount hlt hc
    exact ⟨hput storeMod, hput storeCar, hput storeBoth⟩
  case failed =>
    intro e he hlive store _
    rw [designBand_of_error store hlt he, State.raiseCmd_of_live hlive]

/-- Settles O40: the plan's designs are asked for in order, and the state is written only after the last. -/
theorem vinitDesignsAllBandsOrNone : Obligations.VinitDesignsAllBandsOrNone := by
  refine ⟨by decide, ?illegal, fun s => ⟨rfl, fun L => ⟨fun cs hlength hcs => ?all, fun b e hb hbefore he hlive => ?none⟩⟩⟩
  case illegal =>
    refine illegalRange_of_undecodable fun w hlow hhigh => ⟨.reserved, ?_⟩
    have hopc : bitsOf w 31 26 = 0x09 := by simp only [bitsOf]; omega
    have hoperand : bitsOf w 25 0 ≠ 0 := by simp only [bitsOf]; omega
    simp only [decode, hopc, decodeN_of_operand hoperand]
  case all => exact vinit_of_ok (hlength ▸ designAll_of_ok hcs)
  case none =>
    rw [vinit_of_error (designAll_of_error hb hbefore he), State.raiseCmd_of_live hlive]

end Sys2Proof.Machine
end

section
/-! The output of one stage (R303, R304). A stage is a chain of widened additions, then one compaction: an exact partial
sum is lost only at the first one that does not fit, and that one is marked. -/

namespace Sys2Proof.Machine

open Sys2Proof Sys2Proof.Spec

/-! ## Chains of widened additions -/

/-- A marked wide value is what is left of adding up in the accumulator: `sums` are the exact partial sums, `total` the
last of them. -/
structure Accumulates (m : Marked Wide) (sums : List Int) (total : Int) : Prop where
  marked : m.marks.acc = true ↔ ∃ p ∈ sums, p < -2 ^ 63 ∨ 2 ^ 63 ≤ p
  wrapped : ∃ n : Int, m.val.toInt = total + n * 2 ^ 64
  clean : m.marks.acc = false → m.val.toInt = total
  unranged : m.marks.range = false

theorem widen_acc_iff (u : Int) : (widen u).marks.acc = true ↔ u < -2 ^ 63 ∨ 2 ^ 63 ≤ u := by
  simp [widen, Marks.ofAcc, fitsSigned_acc_eq_false]

/-- One widening is exact unless it is marked (R203). -/
theorem widen_accumulates (u : Int) : Accumulates (widen u) [u] u where
  marked := by simp only [widen_acc_iff, List.mem_singleton, exists_eq_left]
  wrapped := toInt_ofInt_wide_congr u
  clean hclean := by
    have hfits := mt (widen_acc_iff u).2 (Bool.not_eq_true _ ▸ hclean)
    exact toInt_ofInt_wide ⟨by omega, by omega⟩
  unranged := rfl

/-- A further term adds its own partial sum: before the first mark the accumulator is exact, and after it the marks
stay. -/
theorem Accumulates.add {m : Marked Wide} {sums : List Int} {total : Int} (h : Accumulates m sums total)
    {f : Wide → Marked Wide} (term next : Int) (hnext : total + term = next)
    (hf : ∀ acc, f acc = widen (acc.toInt + term)) : Accumulates (m.bind f) (sums ++ [next]) next := by
  subst hnext
  have hstep := widen_accumulates (m.val.toInt + term)
  refine ⟨?marked, ?wrapped, ?clean, ?unranged⟩
  case marked =>
    simp only [Marked.bind_marks, Marks.union_acc, Bool.or_eq_true, hf, widen_acc_iff, List.mem_append,
      List.mem_singleton, or_and_right, exists_or, exists_eq_left, ← h.marked]
    cases hacc : m.marks.acc with
    | true => simp only [true_or]
    | false => rw [h.clean hacc]
  case wrapped =>
    obtain ⟨n, hn⟩ := h.wrapped
    obtain ⟨k, hk⟩ := hstep.wrapped
    exact ⟨n + k, by rw [Marked.bind_val, hf, hk, hn]; ring⟩
  case clean =>
    simp only [Marked.bind_marks, Marks.union_acc, Bool.or_eq_false_iff, Marked.bind_val, hf]
    rintro ⟨hbefore, hclean⟩
    rw [hstep.clean hclean, h.clean hbefore]
  case unranged => rw [Marked.bind_marks, Marks.union_range, h.unranged, hf, hstep.unranged, Bool.or_self]

/-- A product fits the accumulator, so it is taken without widening (R205, R214). -/
theorem fxMulw_accumulates (a b : Word) :
    Accumulates (Marked.pure (fxMulw a b)) [a.toInt * b.toInt] (a.toInt * b.toInt) where
  marked := by
    have hfits := product_range a b
    simp only [Marked.pure_marks, Marks.empty, List.mem_singleton, exists_eq_left, Bool.false_eq_true, false_iff]
    omega
  wrapped := ⟨0, by rw [Marked.pure_val, fxMulw_toInt, zero_mul, add_zero]⟩
  clean _ := fxMulw_toInt a b
  unranged := rfl

theorem Marked.pure_bind {α β : Type} (x : α) (f : α → Marked β) : (Marked.pure x).bind f = f x :=
  Marked.ext_val rfl (Marks.empty_union _)

theorem Marked.bind_assoc {α β γ : Type} (m : Marked α) (f : α → Marked β) (g : β → Marked γ) :
    (m.bind f).bind g = m.bind fun x => (f x).bind g :=
  Marked.ext_val rfl (Marks.union_assoc _ _ _)

/-! ## The terms of a stage (R303) -/

theorem scaledTaps_accumulates (stage : Nat) (x : Win) (scale : Word) :
    let p0 := scale.toInt * x.w0.toInt
    let p1 := p0 + stageSign stage * 2 * scale.toInt * x.w1.toInt
    let p2 := p1 + scale.toInt * x.w2.toInt
    Accumulates (scaledTaps stage x scale) [p0, p1, p2] p2 := by
  intro p0 p1 p2
  have hmiddle := (fxMulw_accumulates scale x.w0).add (stageSign stage * 2 * (fxMulw scale x.w1).toInt) p1
    (by rw [fxMulw_toInt, ← mul_assoc]) fun _ => rfl
  have hlast := hmiddle.add (f := fun acc => fxMacw acc scale x.w2) _ p2 rfl fun _ => rfl
  rwa [Marked.pure_bind] at hlast

theorem plainTaps_accumulates (stage : Nat) (x : Win) :
    let p0 := 2 ^ 29 * x.w0.toInt
    let p1 := p0 + stageSign stage * 2 * 2 ^ 29 * x.w1.toInt
    let p2 := p1 + 2 ^ 29 * x.w2.toInt
    Accumulates (plainTaps stage x) [p0, p1, p2] p2 := by
  intro p0 p1 p2
  have hfirst : Accumulates (fxAddw 0 x.w0) [p0] p0 := by
    have hsum : (0 : Wide).toInt + shl x.w0.toInt pointPos = p0 := (zero_add _).trans (mul_comm _ _)
    rw [fxAddw, hsum]
    exact widen_accumulates p0
  have hmiddle := hfirst.add (stageSign stage * shl x.w1.toInt (pointPos + 1)) p1
    (by simp only [p1, shl, pointPos]; ring) fun _ => rfl
  have hlast := hmiddle.add (f := fun acc => fxAddw acc x.w2) (shl x.w2.toInt pointPos) p2
    (by rw [shl, mul_comm]) fun _ => rfl
  rwa [Marked.bind_assoc] at hlast

/-- The sum in the accumulator before the one compaction (R303). -/
def stageSum (stage : Nat) (x : Win) (y1 y2 scale : Word) (c : StageCoef) : Marked Wide :=
  ((if stage = 0 then scaledTaps stage x scale else plainTaps stage x).bind fun acc => fxMsuw acc c.a1 y1).bind
    fun acc => fxMsuw acc c.a2 y2

theorem stageOut_eq_compact (stage : Nat) (x : Win) (y1 y2 scale : Word) (c : StageCoef) :
    stageOut stage x y1 y2 scale c = (stageSum stage x y1 y2 scale c).bind fxCompact := by
  rw [stageSum, Marked.bind_assoc, Marked.bind_assoc]
  rfl

/-- The taps in both scales, then the two output terms. -/
theorem stageSum_accumulates (stage : Nat) (x : Win) (y1 y2 scale : Word) (c : StageCoef) :
    let unit : Int := if stage = 0 then scale.toInt else 2 ^ 29
    let p0 := unit * x.w0.toInt
    let p1 := p0 + stageSign stage * 2 * unit * x.w1.toInt
    let p2 := p1 + unit * x.w2.toInt
    let p3 := p2 - c.a1.toInt * y1.toInt
    let p4 := p3 - c.a2.toInt * y2.toInt
    Accumulates (stageSum stage x y1 y2 scale c) [p0, p1, p2, p3, p4] p4 := by
  intro unit p0 p1 p2 p3 p4
  have htaps : Accumulates (if stage = 0 then scaledTaps stage x scale else plainTaps stage x) [p0, p1, p2] p2 := by
    by_cases hstage : stage = 0
    · simpa only [p0, p1, p2, unit, if_pos hstage] using scaledTaps_accumulates stage x scale
    · simpa only [p0, p1, p2, unit, if_neg hstage] using plainTaps_accumulates stage x
  have hone := htaps.add (f := fun acc => fxMsuw acc c.a1 y1) (-(c.a1.toInt * y1.toInt)) p3 rfl fun _ => rfl
  exact hone.add (f := fun acc => fxMsuw acc c.a2 y2) (-(c.a2.toInt * y2.toInt)) p4 rfl fun _ => rfl

/-! ## The compaction -/

theorem narrow_range_iff (v : Int) : (narrow v).marks.range = true ↔ v < -2 ^ 31 ∨ 2 ^ 31 ≤ v := by
  simp [narrow, Marks.ofRange, fitsSigned_word_eq_false]

/-- Compacting adds the mark of the floor, and no other, to those of the sum. -/
theorem Accumulates.compact_marks {m : Marked Wide} {sums : List Int} {total : Int} (h : Accumulates m sums total) :
    (m.bind fxCompact).marks.acc = m.marks.acc ∧
      (m.bind fxCompact).marks.range = (narrow (asr m.val.toInt pointPos)).marks.range := by
  constructor
  case left => exact Bool.or_false _
  case right => rw [Marked.bind_marks, Marks.union_range, h.unranged, Bool.false_or, fxCompact]

/-- Without a mark a compacted sum is the floor of the exact one (R204). -/
theorem Accumulates.compact_clean {m : Marked Wide} {sums : List Int} {total : Int} (h : Accumulates m sums total)
    (hclean : (m.bind fxCompact).marks = Marks.empty) : IsFloor (m.bind fxCompact).val.toInt total (2 ^ 29) := by
  obtain ⟨hsum, hfloor⟩ := (Marks.union_eq_empty _ _).1 hclean
  have hval : (m.bind fxCompact).val.toInt = asr m.val.toInt pointPos := (narrow_clean hfloor).1
  rw [hval, h.clean (congrArg Marks.acc hsum)]
  exact isFloor_asr total pointPos

/-- Settles O34: a stage compacts the accumulated sum of its five terms. -/
theorem stageOutputIsTheDifferenceEquation : Obligations.StageOutputIsTheDifferenceEquation := by
  intro stage x y1 y2 scale c o sg unit p0 p1 p2 p3 p4
  have hsum : Accumulates (stageSum stage x y1 y2 scale c) [p0, p1, p2, p3, p4] p4 :=
    stageSum_accumulates stage x y1 y2 scale c
  obtain ⟨hacc, hrange⟩ := hsum.compact_marks
  obtain ⟨hdouble, hwrap⟩ := stageOut_pressFree stage x y1 y2 scale c
  have ho : o = (stageSum stage x y1 y2 scale c).bind fxCompact := stageOut_eq_compact stage x y1 y2 scale c
  refine ⟨?marked, ?floored, hdouble, hwrap, ?clean⟩
  case marked => rw [ho, hacc, hsum.marked]
  case floored =>
    obtain ⟨hlow, hhigh⟩ := wide_toInt_range (stageSum stage x y1 y2 scale c).val
    obtain ⟨n, hn⟩ := hsum.wrapped
    obtain ⟨m, hm⟩ := toInt_ofInt_word_congr (asr (stageSum stage x y1 y2 scale c).val.toInt pointPos)
    refine ⟨_, _, n, m, hlow, hhigh, hn, isFloor_asr _ pointPos, ?value, ?marked⟩
    case value => rw [ho]; exact hm
    case marked => rw [ho, hrange, narrow_range_iff]
  case clean => rw [ho]; exact hsum.compact_clean

end Sys2Proof.Machine
end

section
/-! `CSTEP` (R302, R307): its words, and what one step of a cascade leaves in the band, in `Y` and in `VIOL`. -/

namespace Sys2Proof

/-- `CSTEP` takes neither a reserved bit nor a role mask other than one role (R125). -/
theorem decodeCstep_of_illegal {w : Word} (h : bitsOf w 23 16 ≠ 0 ∨ bitsOf w 25 24 = 0 ∨ bitsOf w 25 24 = 3) :
    ∃ e, decodeCstep w = .error e := by
  by_cases hreserved : bitsOf w 23 16 = 0
  · rcases h.resolve_left (not_not.2 hreserved) with hnone | hboth
    · exact ⟨.roleMask, by simp [decodeCstep, hreserved, hnone]⟩
    · exact ⟨.roleMask, by simp [decodeCstep, hreserved, hboth]⟩
  · exact ⟨.reserved, if_pos hreserved⟩

end Sys2Proof

namespace Sys2Proof.Machine

open Sys2Proof Sys2Proof.Spec

/-! ## The words -/

/-- The words of opcode `0x07` with a reserved bit or not exactly one role (R125, R307). -/
theorem illegalRange_cstep {lo hi : Nat}
    (h : ∀ w : Word, lo ≤ w.toNat → w.toNat ≤ hi →
      bitsOf w 31 26 = 0x07 ∧ (bitsOf w 23 16 ≠ 0 ∨ bitsOf w 25 24 = 0 ∨ bitsOf w 25 24 = 3)) : IllegalRange lo hi := by
  refine illegalRange_of_undecodable fun w hlow hhigh => ?_
  obtain ⟨hopc, hillegal⟩ := h w hlow hhigh
  simpa only [decode, hopc] using decodeCstep_of_illegal hillegal

/-- The words of `CSTEP` in the numbers of R122. -/
theorem decode_cstep_word (band : BitVec 16) :
    decode (BitVec.ofNat 32 (0x1D000000 + band.toNat)) = .ok (.cstepMod band) ∧
      decode (BitVec.ofNat 32 (0x1E000000 + band.toNat)) = .ok (.cstepCar band) := by
  simpa only [encode, encodeB, Nat.reducePow, Nat.reduceMul, Nat.reduceAdd] using decode_encode_cstep band

theorem exec_cstepOf (r : Role) (band : BitVec 16) (s : State) :
    exec (cstepOf r band) s = .next (cstep r band.toNat s) := by
  cases r <;> rfl

/-! ## One step of a cascade -/

/-- The statement's input window of a stage is the law's (R301). -/
theorem stageInput_eq_windowBefore (h : Hist) (stage : Nat) : stageInput h stage = windowBefore h.xin h.yh stage := rfl

/-- Stage `k`'s window after a step (R302). -/
theorem cascadeStep_window (c : Coef) (h : Hist) (u : Word) {k : Nat} (hc : k < c.stages.length)
    (hy : k < h.yh.length) :
    (cascadeStep c h u).val.1.yh.getD k Win.zero =
      ⟨(stageOut k (stageInput (cascadeStep c h u).val.1 k) (h.yh.getD k Win.zero).w0 (h.yh.getD k Win.zero).w1
          c.scale (c.stage k)).val,
        (h.yh.getD k Win.zero).w0, (h.yh.getD k Win.zero).w1⟩ := by
  rw [stageInput_eq_windowBefore, Coef.stage]
  exact cascadeStep_get c h u k hc hy

/-- A cascade sets a mark exactly when one of its stages does (R52, R304); `mark` is any of the four. -/
theorem cascadeStep_marks (mark : Marks → Bool) (hunion : ∀ m n : Marks, mark (m.union n) = (mark m || mark n))
    (hempty : mark Marks.empty = false) (c : Coef) (h : Hist) (u : Word) (hl : c.stages.length = h.yh.length) :
    mark (cascadeStep c h u).marks = true ↔ ∃ k < c.stages.length,
      mark (stageOut k (stageInput (cascadeStep c h u).val.1 k) (h.yh.getD k Win.zero).w0 (h.yh.getD k Win.zero).w1
        c.scale (c.stage k)).marks = true := by
  have hstages := runStages_marks mark hunion hempty c.scale 0 ⟨u, h.xin.w0, h.xin.w1⟩ c.stages h.yh hl
  simp only [Nat.zero_add] at hstages
  simp only [stageInput_eq_windowBefore, Coef.stage]
  exact hstages

theorem Band.Shaped.coef_length {ns : Nat} {bd : Band} (h : bd.Shaped ns) (r : Role) :
    (bd.coef r).stages.length = ns := by
  cases r with
  | modulator => exact h.coefMod
  | carrier => exact h.coefCar

theorem Band.Shaped.hist_length {ns : Nat} {bd : Band} (h : bd.Shaped ns) (r : Role) : (bd.hist r).yh.length = ns := by
  cases r with
  | modulator => exact h.histMod
  | carrier => exact h.histCar

theorem State.Inv.band_shaped {s : State} (h : s.Inv) {n : Nat} (hn : n < s.params.bands) :
    (s.band n).Shaped s.params.ns := by
  have hlt : n < s.bands.length := h.bandCount ▸ hn
  rw [State.band, List.getD_eq_getElem _ _ hlt]
  exact h.bandShape _ (List.getElem_mem hlt)

/-- `CSTEP` on a band of the bank writes `Y`, `VIOL` and one history (R307). -/
theorem cstep_eq {s : State} {n : Nat} (hinv : s.Inv) (hn : n < s.params.bands) (r : Role) :
    cstep r n s =
      { s with
        y := (cascadeStep ((s.band n).coef r) ((s.band n).hist r) s.a).val.2
        viol := s.viol.union (cascadeStep ((s.band n).coef r) ((s.band n).hist r) s.a).marks
        bands := s.bands.set n
          ((s.band n).setHist r (cascadeStep ((s.band n).coef r) ((s.band n).hist r) s.a).val.1) } := by
  rw [cstep_of_lt s r n hn, modifyBand_eq_set s n _ (hinv.bandCount ▸ hn)]
  rfl

/-- Settles O35: the fields of the illegal words, one step of the cascade of the band and role, and the band's
check. -/
theorem cstepStepsOneCascade : Obligations.CstepStepsOneCascade := by
  refine ⟨⟨?noRole, ?reservedMod, ?reservedCar, ?bothRoles⟩, fun s r band =>
    ⟨?word, fun hinv hlt => ?steps, fun hlive hge => ?badBand⟩⟩
  case noRole => exact illegalRange_cstep fun w _ _ => by simp only [bitsOf]; omega
  case reservedMod => exact illegalRange_cstep fun w _ _ => by simp only [bitsOf]; omega
  case reservedCar => exact illegalRange_cstep fun w _ _ => by simp only [bitsOf]; omega
  case bothRoles => exact illegalRange_cstep fun w _ _ => by simp only [bitsOf]; omega
  case word =>
    obtain ⟨hmod, hcar⟩ := decode_cstep_word band
    cases r with
    | modulator => exact hmod
    | carrier => exact hcar
  case badBand => rw [exec_cstepOf, cstep_of_ge r hge, State.raiseCmd_of_live hlive, FaultCode.toWord]
  case steps =>
    intro bd
    have hcoef := (hinv.band_shaped hlt).coef_length r
    have hhist := (hinv.band_shaped hlt).hist_length r
    have hmarks (mark : Marks → Bool) (hunion : ∀ m n : Marks, mark (m.union n) = (mark m || mark n))
        (hempty : mark Marks.empty = false) :=
      cascadeStep_marks mark hunion hempty (bd.coef r) (bd.hist r) s.a (hcoef.trans hhist.symm)
    rw [hcoef] at hmarks
    obtain ⟨hdouble, hwrap⟩ := s.viol.union_pressFree (cascadeStep_pressFree (bd.coef r) (bd.hist r) s.a)
    refine ⟨(cascadeStep (bd.coef r) (bd.hist r) s.a).val.1, _, _,
      (exec_cstepOf r band s).trans (congrArg Host.Outcome.next (cstep_eq hinv hlt r)),
      cascadeStep_xin _ _ _, (cascadeStep_length _ _ _).trans hhist, fun k hk => ?window, cascadeStep_out _ _ _,
      ⟨?range, ?acc⟩, rfl, hdouble, hwrap⟩
    case window =>
      have hwindow := cascadeStep_window (bd.coef r) (bd.hist r) s.a (hcoef ▸ hk) (hhist ▸ hk)
      exact ⟨congrArg Win.w1 hwindow, congrArg Win.w2 hwindow, congrArg Win.w0 hwindow⟩
    case range => rw [Marks.union_range, Bool.or_eq_true, hmarks Marks.range (fun _ _ => rfl) rfl]
    case acc => rw [Marks.union_acc, Bool.or_eq_true, hmarks Marks.acc (fun _ _ => rfl) rfl]

end Sys2Proof.Machine
end

section
/-! `VOCODE` (R331 to R340): its words, what it writes, and the auto-gain of R338. The trackers and the ratio of
auto-gain are stated on the compacted band sum, which is the output of the same sample at unit gain. -/

namespace Sys2Proof.Machine

open Sys2Proof Sys2Proof.Spec

/-! ## The words -/

/-- The words of a format N opcode with an operand bit (R125, R126). -/
theorem illegalRange_formatN {lo hi : Nat} {i : Instr}
    (h : ∀ w : Word, lo ≤ w.toNat → w.toNat ≤ hi → decode w = decodeN w i ∧ bitsOf w 25 0 ≠ 0) :
    IllegalRange lo hi := by
  refine illegalRange_of_undecodable fun w hlow hhigh => ⟨.reserved, ?_⟩
  obtain ⟨hformat, hoperand⟩ := h w hlow hhigh
  rw [hformat, decodeN_of_operand hoperand]

theorem illegalRange_vocode : IllegalRange 0x14000001 0x17FFFFFF := by
  refine illegalRange_formatN (i := .vocode) fun w hlow hhigh => ⟨?format, ?operand⟩
  case format =>
    have hopc : bitsOf w 31 26 = 0x05 := by simp only [bitsOf]; omega
    simp only [decode, hopc]
  case operand => simp only [bitsOf]; omega

/-! ## Auto-gain (R338) -/

/-- `fx_mul` by `ONE` keeps every word. -/
theorem fxMul_one (x : Word) : (fxMul x oneWord).val = x := by
  have hone : oneWord.toInt = 2 ^ 29 := by decide
  have hfloor : asr (x.toInt * oneWord.toInt) pointPos = x.toInt :=
    asr_eq_of_isFloor (by rw [hone, pointPos, IsFloor]; omega)
  rw [fxMul, hfloor, narrow, BitVec.ofInt_toInt]

theorem fxDiv_of_eq_zero (a : Word) {b : Word} (h : b = 0) : fxDiv a b = none := if_pos h

section
variable (k m : Word) (g : Gain)

/-- With auto-gain on, both trackers take their step, whether or not the ratio is taken. -/
theorem autoGain_on_trackers :
    (autoGain true k m g).val.gm = (fxLerp g.gm (fxAbs m).val k).val ∧
      (autoGain true k m g).val.go = (fxLerp g.go (fxAbs g.out).val k).val := by
  simp only [autoGain, if_true, Marked.bind_val]
  split <;> exact ⟨rfl, rfl⟩

/-- Without a ratio the output passes unscaled. -/
theorem autoGain_on_out_of_none
    (h : fxDiv (autoGain true k m g).val.gm (autoGain true k m g).val.go = none) :
    (autoGain true k m g).val.out = g.out := by
  obtain ⟨hgm, hgo⟩ := autoGain_on_trackers k m g
  rw [hgm, hgo] at h
  simp only [autoGain, if_true, Marked.bind_val, h, Marked.pure_val]

/-- With a ratio the output is multiplied by it. -/
theorem autoGain_on_out_of_some {ratio : Marked Word}
    (h : fxDiv (autoGain true k m g).val.gm (autoGain true k m g).val.go = some ratio) :
    (autoGain true k m g).val.out = (fxMul g.out ratio.val).val := by
  obtain ⟨hgm, hgo⟩ := autoGain_on_trackers k m g
  rw [hgm, hgo] at h
  simp only [autoGain, if_true, Marked.bind_val, h, Marked.map_val]

end

/-! ## One sample -/

/-- The band sum of a sample, compacted once (R332, R333): the output before auto-gain and output gain. -/
def compactedBandSum (m c : Word) (s : State) : Word :=
  (fxCompact (runBands s.params.kEnv (fxLerp s.modS m s.params.kPre).val (fxLerp s.carS c s.params.kPre).val 0
    s.bands).val.1).val

/-- The output and the trackers of a sample are those of auto-gain on the band sum, then the output gain (R338,
R339). -/
theorem vocoderProcess_gain (sn : Snap) (m c : Word) (s : State) :
    let g := (autoGain sn.autoGainEn s.params.kAg m ⟨compactedBandSum m c s, s.gm, s.go⟩).val
    (vocoderProcess sn m c s).val.gm = g.gm ∧ (vocoderProcess sn m c s).val.go = g.go ∧
      (vocoderProcess sn m c s).val.out = (fxMul g.out sn.outputGain).val := ⟨rfl, rfl, rfl⟩

/-- With auto-gain off the trackers stay and only the output gain scales the sum. -/
theorem vocoderProcess_gain_off {sn : Snap} (hoff : sn.autoGainEn = false) (m c : Word) (s : State) :
    (vocoderProcess sn m c s).val.gm = s.gm ∧ (vocoderProcess sn m c s).val.go = s.go ∧
      (vocoderProcess sn m c s).val.out = (fxMul (compactedBandSum m c s) sn.outputGain).val := by
  have hgain := vocoderProcess_gain sn m c s
  rwa [hoff, autoGain_off] at hgain

/-- With auto-gain on the trackers follow, and the sum is scaled by their ratio where there is one. -/
theorem vocoderProcess_gain_on {sn : Snap} (hon : sn.autoGainEn = true) (m c : Word) (s : State) :
    let r := (vocoderProcess sn m c s).val
    r.gm = (fxLerp s.gm (fxAbs m).val s.params.kAg).val ∧
      r.go = (fxLerp s.go (fxAbs (compactedBandSum m c s)).val s.params.kAg).val ∧
      (fxDiv r.gm r.go = none → r.out = (fxMul (compactedBandSum m c s) sn.outputGain).val) ∧
      ∀ ratio, fxDiv r.gm r.go = some ratio →
        r.out = (fxMul (fxMul (compactedBandSum m c s) ratio.val).val sn.outputGain).val := by
  intro r
  obtain ⟨hgm, hgo, hout⟩ := vocoderProcess_gain sn m c s
  rw [hon] at hgm hgo hout
  obtain ⟨hmodulator, houtput⟩ := autoGain_on_trackers s.params.kAg m ⟨compactedBandSum m c s, s.gm, s.go⟩
  refine ⟨hgm.trans hmodulator, hgo.trans houtput, fun hnone => ?guarded, fun ratio hsome => ?scaled⟩
  case guarded =>
    rw [hgm, hgo] at hnone
    rw [hout, autoGain_on_out_of_none _ _ _ hnone]
  case scaled =>
    rw [hgm, hgo] at hsome
    rw [hout, autoGain_on_out_of_some _ _ _ hsome]

/-! ## The command -/

theorem exec_vocode (s : State) :
    exec .vocode s = .next (s.writeVoc (vocoderProcess s.snapshot s.modIn s.carIn s)) := rfl

/-- The sample with auto-gain off and unit output gain: the same vocoder state, and in `VOC_OUT` the compacted band
sum. -/
theorem exec_vocode_unitGain (s : State) :
    ∃ u, exec .vocode { s with ctrl := 0, outputGain := oneWord } = .next u ∧
      u.modS = (vocoderProcess s.snapshot s.modIn s.carIn s).val.modS ∧
      u.carS = (vocoderProcess s.snapshot s.modIn s.carIn s).val.carS ∧
      u.bands = (vocoderProcess s.snapshot s.modIn s.carIn s).val.bands ∧
      u.vocOut = compactedBandSum s.modIn s.carIn s := by
  refine ⟨_, exec_vocode _, rfl, rfl, rfl, ?output⟩
  case output =>
    have hoff : State.autoGainEn { s with ctrl := 0, outputGain := oneWord } = false := BitVec.getLsbD_zero
    obtain ⟨-, -, hout⟩ := vocoderProcess_gain_off
      (sn := State.snapshot { s with ctrl := 0, outputGain := oneWord }) hoff s.modIn s.carIn s
    exact hout.trans (fxMul_one _)

/-- Settles O42: the fields of the sample, band by band. -/
theorem vocodeWritesTheVocoderState : Obligations.VocodeWritesTheVocoderState := by
  refine ⟨by decide, illegalRange_vocode, fun s => ?_⟩
  have hbands := vocoderProcess_bands s.snapshot s.modIn s.carIn s
  obtain ⟨hdouble, hwrap⟩ := s.viol.union_pressFree (vocoderProcess_pressFree s.snapshot s.modIn s.carIn s)
  refine ⟨_, _, _, _, _, exec_vocode s, ?length, fun hoff => ?trackers, rfl, hdouble, hwrap,
    fun b old new hold hnew => ?band⟩
  case length => rw [hbands, List.length_map]
  case trackers =>
    obtain ⟨hgm, hgo, -⟩ := vocoderProcess_gain_off (sn := s.snapshot) hoff s.modIn s.carIn s
    exact ⟨hgm, hgo⟩
  case band =>
    rw [hbands, List.getElem?_map, hold] at hnew
    obtain rfl := Option.some.inj hnew
    exact ⟨rfl, rfl, rfl, rfl, rfl⟩

/-- Settles O44: the sample at unit gain gives the compacted band sum, on which auto-gain works. -/
theorem autoGainScalesByTheRatio : Obligations.AutoGainScalesByTheRatio := by
  intro s
  obtain ⟨u, hu, hmodS, hcarS, hbands, hout⟩ := exec_vocode_unitGain s
  refine ⟨_, u, exec_vocode s, hu, hmodS.symm, hcarS.symm, hbands.symm, ?_⟩
  rw [hout]
  refine ⟨fun hoff => vocoderProcess_gain_off (sn := s.snapshot) hoff s.modIn s.carIn s, fun hon => ?on⟩
  case on =>
    obtain ⟨hgm, hgo, hguarded, hscaled⟩ := vocoderProcess_gain_on (sn := s.snapshot) hon s.modIn s.carIn s
    exact ⟨hgm, hgo, fun hzero => hguarded (fxDiv_of_eq_zero _ hzero), hscaled⟩

end Sys2Proof.Machine
end

section
/-! `PRESS` and `RELEASE` (R360 to R367): their words, the choice of the voice, and what each leaves in the state. -/

namespace Sys2Proof

/-- Format V takes only a note whose upper half is 0 (R125). -/
theorem decodeV_of_reserved {w : Word} (h : bitsOf w 25 16 ≠ 0) (mk : BitVec 16 → Instr) :
    decodeV w mk = .error .reserved := if_neg h

end Sys2Proof

namespace Sys2Proof.Machine

open Sys2Proof Sys2Proof.Spec

/-! ## The words -/

/-- The words of a format V opcode with a reserved bit (R125, R126). -/
theorem illegalRange_formatV {lo hi : Nat} {mk : BitVec 16 → Instr}
    (h : ∀ w : Word, lo ≤ w.toNat → w.toNat ≤ hi → decode w = decodeV w mk ∧ bitsOf w 25 16 ≠ 0) :
    IllegalRange lo hi := by
  refine illegalRange_of_undecodable fun w hlow hhigh => ⟨.reserved, ?_⟩
  obtain ⟨hformat, hreserved⟩ := h w hlow hhigh
  rw [hformat, decodeV_of_reserved hreserved]

theorem illegalRange_press : IllegalRange 0x08010000 0x0BFFFFFF := by
  refine illegalRange_formatV (mk := .press) fun w hlow hhigh => ⟨?format, ?reserved⟩
  case format =>
    have hopc : bitsOf w 31 26 = 0x02 := by simp only [bitsOf]; omega
    simp only [decode, hopc]
  case reserved => simp only [bitsOf]; omega

theorem illegalRange_release : IllegalRange 0x0C010000 0x0FFFFFFF := by
  refine illegalRange_formatV (mk := .release) fun w hlow hhigh => ⟨?format, ?reserved⟩
  case format =>
    have hopc : bitsOf w 31 26 = 0x03 := by simp only [bitsOf]; omega
    simp only [decode, hopc]
  case reserved => simp only [bitsOf]; omega

/-- The words of `PRESS` and `RELEASE` in the numbers of R122. -/
theorem decode_note_word (note : BitVec 16) :
    decode (BitVec.ofNat 32 (0x08000000 + note.toNat)) = .ok (.press note) ∧
      decode (BitVec.ofNat 32 (0x0C000000 + note.toNat)) = .ok (.release note) := by
  constructor
  case left => simpa only [encode, encodeV, Nat.reducePow, Nat.reduceMul] using decode_encode_press note
  case right => simpa only [encode, encodeV, Nat.reducePow, Nat.reduceMul] using decode_encode_release note

/-! ## The choice of the voice (R361) -/

theorem Voice.free_iff (v : Voice) : v.free = true ↔ IsFree v := by
  simp [Voice.free, IsFree]

/-- `v`, at index `k`, has the smallest age of the pool, and the first such index. -/
def IsOldest (vs : List Voice) (k : Nat) (v : Voice) : Prop :=
  vs[k]? = some v ∧ ∀ (j : Nat) (u : Voice), vs[j]? = some u →
    v.age.toNat < u.age.toNat ∨ (v.age.toNat = u.age.toNat ∧ k ≤ j)

/-- A later voice takes the place of the oldest only when its age is smaller. -/
theorem IsOldest.append_one {vs : List Voice} {k : Nat} {v : Voice} (h : IsOldest vs k v) (u : Voice) :
    (u.age < v.age → IsOldest (vs ++ [u]) vs.length u) ∧ (¬ u.age < v.age → IsOldest (vs ++ [u]) k v) := by
  obtain ⟨hv, hmin⟩ := h
  have hk : k < vs.length := (List.getElem?_eq_some_iff.1 hv).1
  have hcases : ∀ j x, (vs ++ [u])[j]? = some x → vs[j]? = some x ∨ (vs.length ≤ j ∧ x = u) := by
    intro j x hx
    rw [List.getElem?_append] at hx
    split at hx
    · exact .inl hx
    · exact .inr ⟨by omega, List.mem_singleton.1 (List.mem_of_getElem? hx)⟩
  rw [BitVec.lt_def]
  refine ⟨fun hlt => ⟨List.getElem?_concat_length, fun j x hx => ?younger⟩,
    fun hge => ⟨(List.getElem?_append_left hk).trans hv, fun j x hx => ?same⟩⟩
  case younger =>
    rcases hcases j x hx with hold | ⟨hj, rfl⟩
    · have := hmin j x hold
      omega
    · exact .inr ⟨rfl, hj⟩
  case same =>
    rcases hcases j x hx with hold | ⟨hj, rfl⟩
    · exact hmin j x hold
    · omega

/-- The scan carries the oldest of the voices passed to the oldest of all. -/
theorem oldestFrom_isOldest (vs : List Voice) {passed : List Voice} {best : Nat} {v : Voice}
    (h : IsOldest passed best v) :
    ∃ w, IsOldest (passed ++ vs) (oldestFrom passed.length best v.age vs) w := by
  induction vs generalizing passed best v with
  | nil => exact ⟨v, by rwa [List.append_nil]⟩
  | cons u us ih =>
    obtain ⟨htake, hkeep⟩ := h.append_one u
    have hlength : passed.length + 1 = (passed ++ [u]).length := (List.length_append (bs := [u])).symm
    rw [oldestFrom, List.append_cons, hlength]
    split
    next hlt => exact ih (htake hlt)
    next hge => exact ih (hkeep hge)

theorem oldestVoice_isOldest {vs : List Voice} (h : vs ≠ []) : ∃ w, IsOldest vs (oldestVoice vs) w := by
  cases vs with
  | nil => exact absurd rfl h
  | cons v vs =>
    have hfirst : IsOldest [v] 0 v := by
      refine ⟨rfl, fun j u hu => .inr ⟨?_, Nat.zero_le j⟩⟩
      rw [List.mem_singleton.1 (List.mem_of_getElem? hu)]
    exact oldestFrom_isOldest vs hfirst

/-- The model's choice is R361's. -/
theorem selectVoice_selected {vs : List Voice} (h : vs ≠ []) : Selected vs (selectVoice vs) := by
  unfold selectVoice
  split
  next i hfound =>
    obtain ⟨hi, hfree, hbefore⟩ := List.findIdx?_eq_some_iff_getElem.1 hfound
    refine ⟨vs[i], List.getElem?_eq_getElem hi, .inl ⟨(Voice.free_iff _).1 hfree, fun j hj u hu => ?_⟩⟩
    obtain ⟨_, rfl⟩ := List.getElem?_eq_some_iff.1 hu
    exact mt (Voice.free_iff _).2 (hbefore j hj)
  next hnone =>
    obtain ⟨w, hw, hmin⟩ := oldestVoice_isOldest h
    refine ⟨w, hw, .inr ⟨fun u hu hfree => ?_, hmin⟩⟩
    exact Bool.false_ne_true ((List.findIdx?_eq_none_iff.1 hnone u hu).symm.trans ((Voice.free_iff u).2 hfree))

/-! ## `PRESS` (R360 to R364) -/

theorem modify_of_getElem?_eq_some {α : Type} {l : List α} {k : Nat} {a : α} (h : l[k]? = some a) (f : α → α) :
    l.modify k f = l.set k (f a) := by
  rw [List.modify_eq_set_getElem?, h]
  rfl

/-- The condition of `V_DOUBLE_PRESS` (R362). -/
theorem any_holds_iff (note : BitVec 16) (vs : List Voice) :
    vs.any (Voice.holds note) = true ↔ HeldUnreleased note vs := by
  simp [HeldUnreleased, Voice.holds]

/-- The condition of `V_AGE_WRAP` (R363). -/
theorem age_succ_eq_zero_iff (n : BitVec 32) : n + 1 = 0 ↔ n.toNat = 2 ^ 32 - 1 := by
  bv_omega

/-- A press of a note of the table (R360). -/
theorem exec_press_of_lt {s : State} {note : BitVec 16} {old : Voice} (h : note.toNat < s.params.numNotes)
    (hold : s.voices[selectVoice s.voices]? = some old) :
    exec (.press note) s = .next { s with
      ageCnt := s.ageCnt + 1
      viol := s.viol.union (Marks.ofPress (s.voices.any (Voice.holds note)) (decide (s.ageCnt + 1 = 0)))
      voices := s.voices.set (selectVoice s.voices)
        (old.press note (s.params.noteInc.getD note.toNat 0) (s.ageCnt + 1)) } := by
  have hpress : exec (.press note) s = .next (pressNote note s) := rfl
  rw [hpress, pressNote, if_pos h, ← modify_of_getElem?_eq_some hold (Voice.press note _ _)]
  rfl

theorem State.Inv.voices_ne_nil {s : State} (h : s.Inv) : s.voices ≠ [] := by
  have hlow := h.params.voices_low
  rw [← h.voiceCount] at hlow
  exact List.ne_nil_of_length_pos hlow

/-- Settles O46: the free voice found, or the oldest by induction on the scan, takes the note; both marks are the
conditions of the rules. -/
theorem pressTakesTheSelectedVoice : Obligations.PressTakesTheSelectedVoice := by
  refine ⟨illegalRange_press, fun s note =>
    ⟨(decode_note_word note).1, fun hinv hnote => ?taken, fun hlive hnote => ?fault⟩⟩
  case taken =>
    have hselected := selectVoice_selected hinv.voices_ne_nil
    obtain ⟨old, hold, -⟩ := id hselected
    refine ⟨_, old, _, hselected, hold, exec_press_of_lt hnote hold, ?range, ?acc, ?doublePress, ?ageWrap⟩
    case range => simp [Marks.ofPress]
    case acc => simp [Marks.ofPress]
    case doublePress => simp only [Marks.union_doublePress, Marks.ofPress, Bool.or_eq_true, any_holds_iff]
    case ageWrap =>
      simp only [Marks.union_ageWrap, Marks.ofPress, Bool.or_eq_true, decide_eq_true_eq, age_succ_eq_zero_iff]
  case fault =>
    rw [exec_note_of_ge hnote _ List.mem_cons_self, State.raiseCmd_of_live hlive, FaultCode.toWord]

/-! ## `RELEASE` (R366, R367) -/

/-- A release of a note of the table (R366). -/
theorem exec_release_of_lt {s : State} {note : BitVec 16} (h : note.toNat < s.params.numNotes) :
    exec (.release note) s = .next { s with voices := s.voices.map (Voice.releaseNote note) } :=
  congrArg Host.Outcome.next (if_pos h)

/-- Settles O47: the voice loop of `RELEASE` is a map, and a voice is changed exactly when it holds the note. -/
theorem releaseReleasesEveryHolder : Obligations.ReleaseReleasesEveryHolder := by
  refine ⟨illegalRange_release, fun s note =>
    ⟨(decode_note_word note).2, fun hnote => ?released, fun hlive hnote => ?fault⟩⟩
  case released =>
    refine ⟨_, exec_release_of_lt hnote, List.length_map _, fun k old new hold hnew => ?_⟩
    rw [List.getElem?_map, hold] at hnew
    obtain rfl := Option.some.inj hnew
    exact ⟨fun hholds => if_pos hholds, fun hother => if_neg hother⟩
  case fault =>
    rw [exec_note_of_ge hnote _ (List.mem_cons_of_mem _ List.mem_cons_self), State.raiseCmd_of_live hlive,
      FaultCode.toWord]

end Sys2Proof.Machine
end

section
/-! `SYNTH` as a command (R387, R388): its words, and the pool it leaves, which is one tick of every voice. A mark of
any voice's tick is a mark of the sample. -/

namespace Sys2Proof.Machine

open Sys2Proof Sys2Proof.Spec

theorem illegalRange_synth : IllegalRange 0x10000001 0x13FFFFFF := by
  refine illegalRange_formatN (i := .synth) fun w hlow hhigh => ⟨?format, ?operand⟩
  case format =>
    have hopc : bitsOf w 31 26 = 0x04 := by simp only [bitsOf]; omega
    simp only [decode, hopc]
  case operand => simp only [bitsOf]; omega

/-- The state after `SYNTH` (R388). -/
def State.afterSynth (s : State) : State := s.writeSyn (synthProcess s.snapshot s)

theorem exec_synth (s : State) : exec .synth s = .next s.afterSynth := rfl

section
variable {s : State} {k : Nat} {old : Voice} (hold : s.voices[k]? = some old)
include hold

theorem afterSynth_voice : s.afterSynth.voices[k]? = some (voiceTick s.params s.snapshot old).val := by
  have hpool : s.afterSynth.voices = s.voices.map fun v => (voiceTick s.params s.snapshot v).val :=
    synthProcess_voices s.snapshot s
  rw [hpool, List.getElem?_map, hold, Option.map_some]

theorem eq_voiceTick_of_afterSynth {new : Voice} (hnew : s.afterSynth.voices[k]? = some new) :
    new = (voiceTick s.params s.snapshot old).val :=
  Option.some.inj (hnew.symm.trans (afterSynth_voice hold))

theorem voiceTick_clean_of_afterSynth (h : s.afterSynth.viol = Marks.empty) :
    (voiceTick s.params s.snapshot old).marks = Marks.empty := by
  rw [State.afterSynth, State.writeSyn_viol, Marks.union_eq_empty] at h
  obtain ⟨-, hsample⟩ := h
  rw [synthProcess, Marked.bind_marks, Marks.union_eq_empty] at hsample
  exact runVoices_ticks_clean hsample.1 old (List.mem_of_getElem? hold)

end

/-! ## The phase and noise steps (R378, R379, R384) -/

/-- `mod ONE` undoes the wrap of a narrowed integer. -/
theorem modOne_narrow (v : Int) : (modOne (narrow v).val).toInt = v % 2 ^ 29 := by
  rw [(modOne_toInt _).1, narrow, BitVec.toNat_ofInt]
  omega

/-- The phase step, whether or not the product and the sum fit a word. -/
theorem modOne_step_toInt (phase inc tuning : Word) :
    (modOne (fxAdd phase (fxMul inc tuning).val).val).toInt =
      (phase.toInt + inc.toInt * tuning.toInt / 2 ^ 29) % 2 ^ 29 := by
  obtain ⟨n, hn⟩ := toInt_ofInt_word_congr (asr (inc.toInt * tuning.toInt) pointPos)
  rw [fxAdd, modOne_narrow, fxMul, narrow, hn, asr, pointPos]
  omega

/-- Settles O49: the fields of one voice's tick; the phase is the exact sum modulo `ONE`. -/
theorem synthAdvancesEveryVoice : Obligations.SynthAdvancesEveryVoice := by
  refine ⟨by decide, illegalRange_synth, fun s => ?_⟩
  obtain ⟨hdouble, hwrap⟩ := s.viol.union_pressFree (synthProcess_pressFree s.snapshot s)
  refine ⟨_, _, _, exec_synth s, ?length, rfl, hdouble, hwrap, fun k old new hold hnew => ?voice⟩
  case length => rw [synthProcess_voices, List.length_map]
  case voice =>
    obtain rfl := eq_voiceTick_of_afterSynth hold hnew
    obtain ⟨hnote, hage, hinc, -, -, hnoise, hphase⟩ := voiceTick_fields s.params s.snapshot old
    refine ⟨hnote, hage, hinc, hnoise, fun hlcg => ?lcg, ?phase⟩
    case lcg => rw [hnoise, hlcg, noiseNext_lcg, lcgNext_toNat]
    case phase =>
      have hexact := modOne_step_toInt old.phase old.inc s.tuning
      rw [hphase]
      refine ⟨_, -((old.phase.toInt + old.inc.toInt * s.tuning.toInt / 2 ^ 29) / 2 ^ 29), isFloor_asr _ 29,
        ?sum, (modOne_toInt _).2⟩
      exact hexact.trans (by rw [Int.emod_def, asr]; ring)

end Sys2Proof.Machine
end

section
/-! The envelope of a voice through one `SYNTH` (R370 to R374): one tick of the row of its state. -/

namespace Sys2Proof.Machine

open Sys2Proof Sys2Proof.Spec

/-- The distance of R371 is exact when the difference fits a word with its sign changed, too. -/
theorem distance_of_fits {tgt env : Word} (hlow : -2 ^ 31 < tgt.toInt - env.toInt)
    (hhigh : tgt.toInt - env.toInt < 2 ^ 31) :
    (fxAbs (fxSub tgt env).val).val.toInt = |tgt.toInt - env.toInt| := by
  have hsub : (fxSub tgt env).val.toInt = tgt.toInt - env.toInt := (narrow_of_fits (by omega) hhigh).1
  rw [fxAbs, hsub, Int.abs_eq_natAbs]
  exact (narrow_of_fits (by omega) (by omega)).1

/-- Without a mark it is exact as well. -/
theorem distance_of_clean {tgt env : Word} (hsub : (fxSub tgt env).marks = Marks.empty)
    (habs : (fxAbs (fxSub tgt env).val).marks = Marks.empty) :
    (fxAbs (fxSub tgt env).val).val.toInt = |tgt.toInt - env.toInt| := by
  obtain ⟨hdist, -⟩ := narrow_clean habs
  obtain ⟨hdiff, -⟩ := narrow_clean hsub
  rw [Int.abs_eq_natAbs, ← hdiff]
  exact hdist

/-- A step of `fx_lerp` without a mark adds the exact floor, whatever the rate. -/
theorem fxLerp_toInt_of_clean {s x k : Word} (h : (fxLerp s x k).marks = Marks.empty) :
    (fxLerp s x k).val.toInt = s.toInt + asr ((x.toInt - s.toInt) * k.toInt) 29 := by
  simp only [fxLerp, Marked.bind_marks, Marks.union_eq_empty] at h
  obtain ⟨hsub, hmul, hadd⟩ := h
  rw [← (narrow_clean hsub).1]
  exact (narrow_clean hadd).1.trans (congrArg (s.toInt + ·) (narrow_clean hmul).1)

section
variable {eps : Word} {sn : Snap} {v : Voice} {tgt rate : Word} {nxt : Adsr}
  (hrow : adsrRow sn v.state = some (tgt, rate, nxt))
include hrow

/-- What a tick without a mark computes exactly: the distance, and the step when it moves. -/
theorem adsrTick_clean (h : (adsrTick eps sn v).marks = Marks.empty) :
    (fxAbs (fxSub tgt v.env).val).val.toInt = |tgt.toInt - v.env.toInt| ∧
      (eps.toInt < (fxAbs (fxSub tgt v.env).val).val.toInt → (fxLerp v.env tgt rate).marks = Marks.empty) := by
  simp only [adsrTick, hrow, Marked.bind_marks, Marks.union_eq_empty] at h
  obtain ⟨hsub, habs, hmove⟩ := h
  refine ⟨distance_of_clean hsub habs, fun hfar => ?_⟩
  rw [if_neg (Int.not_le.2 hfar)] at hmove
  simp only [Marked.bind_marks, Marked.map_marks, Marks.union_eq_empty] at hmove
  simp only [fxLerp, Marked.bind_marks, Marks.union_eq_empty]
  exact ⟨hsub, hmove⟩

/-- The envelope and the state of a tick are those of R371, for the row of the voice's state. -/
theorem adsrTick_ticksToward {clean : Prop} {new : Voice} (henv : new.env = (adsrTick eps sn v).val.env)
    (hstate : new.state = (adsrTick eps sn v).val.state)
    (hclean : clean → (adsrTick eps sn v).marks = Marks.empty) : TicksToward tgt rate eps nxt clean v new := by
  rcases adsrTick_cases eps sn v with ⟨hsustain, -⟩ | ⟨tgt', rate', nxt', hrow', hcase⟩
  case inl =>
    rw [hsustain] at hrow
    cases hrow
  case inr =>
    obtain ⟨rfl, rfl, rfl⟩ : tgt' = tgt ∧ rate' = rate ∧ nxt' = nxt := by
      simpa only [hrow', Option.some.injEq, Prod.mk.injEq] using hrow
    have hexact := fun hc => adsrTick_clean hrow (hclean hc)
    rcases hcase with ⟨hnear, hval⟩ | ⟨hfar, hval⟩
    · rw [hval] at henv hstate
      refine ⟨fun _ => ⟨henv, hstate⟩, fun hfar => absurd hfar (Int.not_lt.2 hnear), fun _ _ => ⟨henv, hstate⟩,
        fun hc hfar => absurd hfar ?_⟩
      rw [← (hexact hc).1]
      exact Int.not_lt.2 hnear
    · rw [hval] at henv hstate
      refine ⟨fun hnear => absurd hnear (Int.not_le.2 hfar), fun _ => ⟨henv, hstate⟩,
        fun hc hnear => absurd hnear ?_, fun hc _ => ⟨?_, hstate⟩⟩
      · rw [← (hexact hc).1]
        exact Int.not_le.2 hfar
      · rw [henv, fxLerp_toInt_of_clean ((hexact hc).2 hfar), add_sub_cancel_left]
        exact isFloor_asr _ 29

/-- The same of `SYNTH`, whose marks include the tick's. -/
theorem voiceTick_ticksToward {p : Params} {clean : Prop}
    (hclean : clean → (voiceTick p sn v).marks = Marks.empty) :
    TicksToward tgt rate p.eps nxt clean v (voiceTick p sn v).val := by
  obtain ⟨-, -, -, henv, hstate, -, -⟩ := voiceTick_fields p sn v
  refine adsrTick_ticksToward hrow henv hstate fun hc => ?_
  have hmarks := hclean hc
  rw [voiceTick, Marked.bind_marks, Marks.union_eq_empty] at hmarks
  exact hmarks.1

end

/-- A voice in `SUSTAIN` holds (R370). -/
theorem voiceTick_of_sustain {p : Params} {sn : Snap} {v : Voice} (h : v.state = .sustain) :
    (voiceTick p sn v).val.env = v.env ∧ (voiceTick p sn v).val.state = .sustain := by
  obtain ⟨-, -, -, henv, hstate, -, -⟩ := voiceTick_fields p sn v
  have htick : adsrTick p.eps sn v = Marked.pure v := by rw [adsrTick, h, adsrRow]
  rw [henv, hstate, htick]
  exact ⟨rfl, h⟩

theorem resetWith_voice_release {p : Params} {v : Voice} (h : v ∈ (State.resetWith p).voices) : v.state = .release := by
  obtain ⟨n, -, rfl⟩ := List.mem_map.1 h
  rfl

/-- Settles O59: the tick of a voice, for each row of the table. -/
theorem envelopeTicksByTheRowOfItsState : Obligations.EnvelopeTicksByTheRowOfItsState := by
  refine ⟨fun p v => resetWith_voice_release, fun s => ⟨_, exec_synth s, fun k old new hold hnew => ?_⟩⟩
  obtain rfl := eq_voiceTick_of_afterSynth hold hnew
  have hclean := voiceTick_clean_of_afterSynth hold
  have hticks := fun {st tgt rate nxt} (hst : old.state = st) (hrow : adsrRow s.snapshot st = some (tgt, rate, nxt)) =>
    voiceTick_ticksToward (p := s.params) (hst ▸ hrow) hclean
  exact ⟨fun hst => hticks hst rfl, fun hst => hticks hst rfl, fun hst => hticks hst rfl, voiceTick_of_sustain⟩

/-- Under R373's condition a step toward `ONE` from farther than `EPS` is at least one unit up (R374). -/
theorem fxLerp_rises_of_far {e rate eps : Word} (he : InUnit e) (hrate0 : 0 < rate.toInt) (hrate1 : rate.toInt ≤ 2 ^ 29)
    (hcond : 2 ^ 29 ≤ (eps.toInt + 1) * rate.toInt) (hfar : eps.toInt < 2 ^ 29 - e.toInt) :
    e.toInt < (fxLerp e oneWord rate).val.toInt ∧ (fxLerp e oneWord rate).val.toInt ≤ 2 ^ 29 := by
  obtain ⟨he0, he1⟩ := he
  have hone : oneWord.toInt = 2 ^ 29 := by decide
  have happroach : Approaches e oneWord rate := ⟨hrate0, hrate1, by omega, by omega⟩
  have hshare : 2 ^ 29 ≤ (oneWord.toInt - e.toInt) * rate.toInt := by
    rw [hone]
    exact hcond.trans (Int.mul_le_mul_of_nonneg_right (by omega) hrate0.le)
  obtain ⟨-, hfloor⟩ := happroach.isFloor_step
  obtain ⟨-, hstop⟩ := happroach.step_rises (by omega)
  exact ⟨by omega, hone ▸ hstop⟩

/-- Settles O54: in `ATTACK` from `[0, ONE]` the distance is exact, and R373's condition makes a move at least one
unit. -/
theorem attackRisesThenSnaps : Obligations.AttackRisesThenSnaps := by
  intro s k old hold hattack henv hrate0 hrate1 hcond
  have hrow : adsrRow s.snapshot old.state = some (oneWord, s.attackRate, .decay) := by rw [hattack]; rfl
  obtain ⟨hsnap, hmove, -, -⟩ := voiceTick_ticksToward (p := s.params) (clean := False) hrow False.elim
  have hone : oneWord.toInt = 2 ^ 29 := by decide
  have hdist : (fxAbs (fxSub oneWord old.env).val).val.toInt = 2 ^ 29 - old.env.toInt := by
    obtain ⟨he0, he1⟩ := henv
    rw [distance_of_fits (by omega) (by omega), hone, abs_of_nonneg (by omega)]
  rw [hdist] at hsnap hmove
  refine ⟨_, _, exec_synth s, afterSynth_voice hold, fun hnear => ?snaps, fun hfar => ?rises⟩
  case snaps =>
    obtain ⟨hval, hstate⟩ := hsnap hnear
    exact ⟨by rw [hval, hone], hstate⟩
  case rises =>
    obtain ⟨hval, hstate⟩ := hmove hfar
    obtain ⟨hup, hstop⟩ := fxLerp_rises_of_far henv hrate0 hrate1 hcond hfar
    rw [hval]
    exact ⟨hup, hstop, hstate.trans hattack⟩

end Sys2Proof.Machine
end

section
/-! The oscillator of a voice (R380, R381, R385, R386): each part without a mark is the exact arithmetic of its rule. -/

namespace Sys2Proof.Machine

open Sys2Proof Sys2Proof.Spec

/-! ## The naive waveform (R380) -/

/-- The square wave at a phase. -/
def squareWord (ph : Word) : Word := if ph.toInt < 2 ^ 28 then oneWord else -oneWord

theorem squareWord_toInt (ph : Word) : (squareWord ph).toInt = if ph.toInt < 2 ^ 28 then 2 ^ 29 else -2 ^ 29 := by
  unfold squareWord
  split
  case isTrue => decide
  case isFalse => decide

/-- The sawtooth word at a phase, with the marks of the doubling and of the difference. -/
def sawtooth (ph : Word) : Marked Word := (fxShl ph 1).bind fun twice => fxSub twice oneWord

theorem sawtooth_clean {ph : Word} (h : (sawtooth ph).marks = Marks.empty) :
    (sawtooth ph).val.toInt = 2 * ph.toInt - 2 ^ 29 := by
  rw [sawtooth, Marked.bind_marks, Marks.union_eq_empty] at h
  obtain ⟨htwice, hsaw⟩ := h
  have hdouble : (fxShl ph 1).val.toInt = 2 * ph.toInt := by
    rw [fxShl, (narrow_clean htwice).1, shl, pow_one, mul_comm]
  rw [← hdouble]
  exact (narrow_clean hsaw).1

theorem sawtooth_marks {ph : Word} (h0 : 0 ≤ ph.toInt) (h1 : ph.toInt < 2 ^ 29) :
    (sawtooth ph).marks = Marks.empty := by
  obtain ⟨htwice, hmarks⟩ : (fxShl ph 1).val.toInt = 2 * ph.toInt ∧ (fxShl ph 1).marks = Marks.empty := by
    rw [fxShl, shl, pow_one, mul_comm]
    exact narrow_of_fits (by omega) (by omega)
  have hone : oneWord.toInt = 2 ^ 29 := by decide
  rw [sawtooth, Marked.bind_marks, Marks.union_eq_empty, fxSub, htwice, hone]
  exact ⟨hmarks, (narrow_of_fits (by omega) (by omega)).2⟩

/-- The blend is a step of `fx_lerp` from the sawtooth to the square at the rate of the shape. -/
theorem naive_eq_lerp (ph shape : Word) :
    naive ph shape = (sawtooth ph).bind fun saw => fxLerp saw (squareWord ph) shape := by
  rw [sawtooth, Marked.bind_assoc]
  rfl

/-- A blend without a mark is the exact one. -/
theorem naive_clean {ph shape : Word} (h : (naive ph shape).marks = Marks.empty) :
    (naive ph shape).val.toInt = exactNaive ph.toInt shape.toInt := by
  rw [naive_eq_lerp, Marked.bind_marks, Marks.union_eq_empty] at h
  obtain ⟨hsaw, hblend⟩ := h
  rw [naive_eq_lerp, Marked.bind_val, fxLerp_toInt_of_clean hblend, sawtooth_clean hsaw, squareWord_toInt]
  rfl

/-- With a rate in `[0, ONE]` a step from a distance that fits a word sets no mark. -/
theorem fxLerp_marks_of_fits {s x k : Word} (hk : InUnit k)
    (hlow : -2 ^ 31 ≤ x.toInt - s.toInt) (hhigh : x.toInt - s.toInt < 2 ^ 31) :
    (fxLerp s x k).marks = Marks.empty := by
  have hs := word_toInt_range s
  have hx := word_toInt_range x
  obtain ⟨hup, hdown⟩ := asr_unit_between (x.toInt - s.toInt) k.toInt hk.1 hk.2
  obtain ⟨hdiff, hsub⟩ := narrow_of_fits hlow hhigh
  have hmul : (fxMul (fxSub x s).val k).val.toInt = asr ((x.toInt - s.toInt) * k.toInt) 29 ∧
      (fxMul (fxSub x s).val k).marks = Marks.empty := by
    rw [fxMul, fxSub, hdiff, pointPos]
    exact narrow_of_fits (by omega) (by omega)
  simp only [fxLerp, Marked.bind_marks, Marks.union_eq_empty]
  refine ⟨hsub, hmul.2, ?_⟩
  rw [fxAdd, hmul.1]
  exact (narrow_of_fits (by omega) (by omega)).2

/-- On the legal phases and shapes nothing of the blend overflows. -/
theorem naive_marks {ph shape : Word} (h0 : 0 ≤ ph.toInt) (h1 : ph.toInt < 2 ^ 29) (hshape : InUnit shape) :
    (naive ph shape).marks = Marks.empty := by
  have hsaw := sawtooth_marks h0 h1
  have hvalue := sawtooth_clean hsaw
  have hsquare := squareWord_toInt ph
  rw [naive_eq_lerp, Marked.bind_marks, Marks.union_eq_empty]
  refine ⟨hsaw, fxLerp_marks_of_fits hshape ?low ?high⟩
  case low => split at hsquare <;> omega
  case high => split at hsquare <;> omega

/-- Settles O52: no mark, so the blend is exact; the floored share lies between 0 and the whole distance. -/
theorem naiveWaveformBlends : Obligations.NaiveWaveformBlends := by
  intro ph shape h0 h1 hshape w saw sq
  have hmarks : w.marks = Marks.empty := naive_marks h0 h1 hshape
  have hvalue : w.val.toInt = saw + asr ((sq - saw) * shape.toInt) 29 := naive_clean hmarks
  obtain ⟨hup, hdown⟩ := asr_unit_between (sq - saw) shape.toInt hshape.1 hshape.2
  have hsaw : saw = 2 * ph.toInt - 2 ^ 29 := rfl
  have hsq : sq = 2 ^ 29 ∨ sq = -2 ^ 29 := ite_eq_or_eq _ _ _
  refine ⟨hmarks, ?floor, by omega, by omega, fun hzero => ?sawtooth, fun hone => ?square⟩
  case floor =>
    rw [hvalue, add_sub_cancel_left]
    exact isFloor_asr _ 29
  case sawtooth =>
    have hnone : shape.toInt = 0 := by rw [hzero]; decide
    rw [hvalue, hnone, mul_zero, asr, Int.zero_ediv, add_zero]
  case square =>
    have hunit : shape.toInt = 2 ^ 29 := by rw [hone]; decide
    rw [hvalue, hunit, asr, Int.mul_ediv_cancel _ (by norm_num), add_sub_cancel]

/-! ## The taps (R381) -/

/-- The tap loop without a mark adds every tap's exact product. -/
theorem runTaps_clean {phase step shape : Word} {acc : Wide} {ts : List Tap}
    (h : (runTaps phase step shape acc ts).marks = Marks.empty) :
    (runTaps phase step shape acc ts).val.toInt = acc.toInt + (ts.map fun t => t.weight.toInt *
      exactNaive ((phase.toInt + t.offset.toInt * step.toInt / 2 ^ 29) % 2 ^ 29) shape.toInt).sum := by
  induction ts generalizing acc with
  | nil => rw [runTaps, Marked.pure_val, List.map_nil, List.sum_nil, add_zero]
  | cons t ts ih =>
    simp only [runTaps, Marked.bind_marks, Marks.union_eq_empty] at h
    obtain ⟨-, -, hwave, hacc, hrest⟩ := h
    simp only [runTaps, Marked.bind_val, ih hrest, List.map_cons, List.sum_cons]
    rw [fxMacw, (widen_clean hacc).1, naive_clean hwave, modOne_step_toInt, add_assoc]

theorem oscSample_clean {taps : List Tap} {phase step shape : Word}
    (h : (oscSample taps phase step shape).marks = Marks.empty) :
    (oscSample taps phase step shape).val.toInt = exactOsc taps phase.toInt step.toInt shape.toInt := by
  rw [oscSample, Marked.bind_marks, Marks.union_eq_empty] at h
  obtain ⟨hsum, hcompact⟩ := h
  rw [oscSample, Marked.bind_val, fxCompact, (narrow_clean hcompact).1, runTaps_clean hsum,
    show (0 : Wide).toInt = 0 from BitVec.toInt_zero, zero_add]
  rfl

/-! ## The noise mix and the sample (R384, R385, R386) -/

/-- The noise mix of R385 in exact arithmetic: an oscillator value, its noise word and the gain. -/
def exactMix (osc noise gain : Int) : Int := osc + osc * noise / 2 ^ 29 * gain / 2 ^ 29

theorem mixNoise_clean {osc noise gain : Word} (h : (mixNoise osc noise gain).marks = Marks.empty) :
    (mixNoise osc noise gain).val.toInt = exactMix osc.toInt noise.toInt gain.toInt := by
  simp only [mixNoise, Marked.bind_marks, Marks.union_eq_empty] at h
  obtain ⟨hfirst, hsecond, hsum⟩ := h
  have hx : (fxMul osc noise).val.toInt = osc.toInt * noise.toInt / 2 ^ 29 := (narrow_clean hfirst).1
  have hy : (fxMul (fxMul osc noise).val gain).val.toInt = (fxMul osc noise).val.toInt * gain.toInt / 2 ^ 29 :=
    (narrow_clean hsecond).1
  rw [exactMix, ← hx, ← hy]
  exact (narrow_clean hsum).1

/-- The default generator's noise word (R384). -/
theorem isFloor_lcgWord (n : BitVec 32) : IsFloor (lcgWord n).toInt n.toInt 4 := by
  have hshift : (lcgWord n).toInt = asr n.toInt 2 := fxShr_toInt n 2
  rw [hshift]
  exact isFloor_asr n.toInt 2

/-- What a sample does to a voice after its envelope tick: phase, oscillator, noise and `LAST` (R387). -/
def voiceSound (p : Params) (sn : Snap) (v : Voice) : Marked Voice :=
  (fxMul v.inc sn.tuning).bind fun step => (fxAdd v.phase step).bind fun moved =>
    (oscSample p.taps (modOne moved) step sn.shape).bind fun osc =>
      (mixNoise osc (noiseNext p.noiseGen v.noise).2 sn.noiseGain).map fun smp =>
        { v with phase := modOne moved, noise := (noiseNext p.noiseGen v.noise).1, last := smp }

theorem voiceTick_eq_sound (p : Params) (sn : Snap) (v : Voice) :
    voiceTick p sn v = (adsrTick p.eps sn v).bind (voiceSound p sn) := rfl

theorem voiceSound_last_of_clean {p : Params} {sn : Snap} {v : Voice}
    (h : (voiceSound p sn v).marks = Marks.empty) :
    (voiceSound p sn v).val.last.toInt =
      exactMix (exactOsc p.taps (voiceSound p sn v).val.phase.toInt (v.inc.toInt * sn.tuning.toInt / 2 ^ 29)
        sn.shape.toInt) (noiseNext p.noiseGen v.noise).2.toInt sn.noiseGain.toInt := by
  simp only [voiceSound, Marked.bind_marks, Marked.map_marks, Marks.union_eq_empty] at h
  obtain ⟨hstep, -, hosc, hmix⟩ := h
  have hinc : (fxMul v.inc sn.tuning).val.toInt = v.inc.toInt * sn.tuning.toInt / 2 ^ 29 := (narrow_clean hstep).1
  simp only [voiceSound, Marked.bind_val, Marked.map_val]
  rw [mixNoise_clean hmix, oscSample_clean hosc, hinc]

/-- The sample of a voice without a mark, at the phase that the tick leaves: the envelope tick before it leaves what
the sample is made from. -/
theorem voiceTick_last_of_clean {p : Params} {sn : Snap} {v : Voice} (h : (voiceTick p sn v).marks = Marks.empty) :
    (voiceTick p sn v).val.last.toInt =
      exactMix (exactOsc p.taps (voiceTick p sn v).val.phase.toInt (v.inc.toInt * sn.tuning.toInt / 2 ^ 29)
        sn.shape.toInt) (noiseNext p.noiseGen v.noise).2.toInt sn.noiseGain.toInt := by
  have hframe := adsrTick_frame p.eps sn v
  have hinc : (adsrTick p.eps sn v).val.inc = v.inc := by rw [hframe]
  have hnoise : (adsrTick p.eps sn v).val.noise = v.noise := by rw [hframe]
  rw [voiceTick_eq_sound, Marked.bind_marks, Marks.union_eq_empty] at h
  rw [voiceTick_eq_sound, Marked.bind_val, ← hinc, ← hnoise]
  exact voiceSound_last_of_clean h.2

/-- Settles O58: a sample without a mark ticks every voice without one, and then each part of the tick is exact. -/
theorem voiceSampleIsTheTapSumWithNoise : Obligations.VoiceSampleIsTheTapSumWithNoise := by
  refine fun s => ⟨_, exec_synth s, fun hviol k old new hold hnew => ?_⟩
  obtain rfl := eq_voiceTick_of_afterSynth hold hnew
  intro step osc n
  have hlast : (voiceTick s.params s.snapshot old).val.last.toInt =
      osc + osc * n.toInt / 2 ^ 29 * s.noiseGain.toInt / 2 ^ 29 :=
    voiceTick_last_of_clean (voiceTick_clean_of_afterSynth hold hviol)
  refine ⟨hlast, fun hgain => ?noGain, fun hlcg => ?noise⟩
  case noGain =>
    have hzero : s.noiseGain.toInt = 0 := by rw [hgain]; decide
    rw [hlast, hzero, mul_zero, Int.zero_ediv, add_zero]
  case noise =>
    obtain ⟨-, -, -, -, -, hnoise, -⟩ := voiceTick_fields s.params s.snapshot old
    have hword : n = lcgWord (lcgNext old.noise) := by simp only [n, hlcg, noiseNext_lcg]
    rw [hnoise, hword, hlcg, noiseNext_lcg]
    exact isFloor_lcgWord _

end Sys2Proof.Machine
end

section
/-! The transitions of the machine in general (R410, R411, R416, R418): every one answers a next state, and a run of
host actions is taken apart action by action. -/

namespace Sys2Proof.Machine

open Sys2Proof Sys2Proof.Spec

/-! ## Every transition answers a next state (R416) -/

theorem raise_pending (s : State) (c : FaultCode) (info : Word) : (s.raise c info).pending = s.pending := by
  rcases s.raise_cases c info with ⟨-, hkept⟩ | ⟨-, hrecord⟩
  · rw [hkept]
  · rw [hrecord]

/-- Every command terminates, and takes none of the host's actions (R416, R418). -/
theorem exec_next (i : Instr) (s : State) : ∃ t, exec i s = .next t ∧ t.pending = s.pending := by
  rcases exec_cases i s with ⟨c, hfault⟩ | ⟨-, hreset⟩ | ⟨t, hnext, hkeeps⟩
  · exact ⟨_, hfault, raise_pending s c s.cmd⟩
  · exact ⟨_, hreset, rfl⟩
  · exact ⟨t, hnext, hkeeps.pending⟩

theorem issueCommand_next (w : Word) (s : State) : ∃ t, issueCommand w s = .next t := by
  rcases issueCommand_cases w s with ⟨-, -, hkept⟩ | ⟨-, -, hreset⟩ | ⟨-, -, hillegal⟩ | ⟨-, i, -, hexec⟩
  · exact ⟨_, hkept⟩
  · exact ⟨_, hreset⟩
  · exact ⟨_, hillegal⟩
  · obtain ⟨t, hnext, -⟩ := exec_next i { s with cmd := w }
    exact ⟨t, hexec.trans hnext⟩

theorem performAction_next (act : HostAction) (s : State) : ∃ t, performAction act s = .next t := by
  rcases performAction_cases act s with ⟨w, -, hissue⟩ | ⟨addr, v, -, -, -, hwrite⟩ | ⟨addr, v, -, -, -, hbad⟩ |
    ⟨addr, -, -, hread⟩ | ⟨addr, -, -, hbad⟩
  · obtain ⟨t, hnext⟩ := issueCommand_next w s
    exact ⟨t, hissue.trans hnext⟩
  · exact ⟨_, hwrite⟩
  · exact ⟨_, hbad⟩
  · exact ⟨_, hread⟩
  · exact ⟨_, hbad⟩

theorem step_next (s : State) : ∃ t, step s = .next t := by
  rcases step_cases s with ⟨-, hidle⟩ | ⟨act, rest, -, htake⟩
  · exact ⟨s, hidle⟩
  · obtain ⟨t, hnext⟩ := performAction_next act { s with pending := rest }
    exact ⟨t, htake.trans hnext⟩

/-- With no action to come the block holds its state (R526). -/
theorem step_of_idle {s : State} (h : s.pending = []) : step s = .next s := by
  rcases step_cases s with ⟨-, hidle⟩ | ⟨act, rest, hcons, -⟩
  · exact hidle
  · cases h.symm.trans hcons

/-- Settles O8: from the command through its issue and the host action to the step, every outcome is a next state. -/
theorem everyStepAnswersNext : Obligations.EveryStepAnswersNext := ⟨step_next, fun _ => step_of_idle⟩

/-! ## Runs of host actions (R418) -/

theorem run_succ_of_step (M : Host.Core) {n : Nat} {s t : M.State} (h : M.step s = .next t) :
    M.run (n + 1) s = M.run n t := by rw [Host.Core.run, h]

/-- The first action of a run, which takes no other action, then the run of the rest. -/
theorem hostRun_cons {s t : State} {act : HostAction} {acts : List HostAction}
    (h : performAction act (s.loadActions acts) = .next t) (hrest : t.pending = acts) :
    hostRun s (act :: acts) = hostRun t acts := by
  have hstep : core.step (s.loadActions (act :: acts)) = .next t := h
  have hload : t.loadActions acts = t := by rw [State.loadActions, ← hrest]
  rw [hostRun, hostRun, hload, List.length_cons, run_succ_of_step core hstep]

/-- The end of a run (R419). -/
theorem hostRun_nil {s : State} (h : s.pending = []) : hostRun s [] = .next s := by
  have hload : s.loadActions [] = s := by rw [State.loadActions, ← h]
  rw [hostRun, hload]
  rfl

/-- A legal word on a live block is executed (R411). -/
theorem issueCommand_of_decodable {s : State} {w : Word} {i : Instr} (hlive : s.faulted = false)
    (h : decode w = .ok i) : issueCommand w s = exec i { s with cmd := w } := by
  rcases issueCommand_cases w s with ⟨hf, -⟩ | ⟨hf, -⟩ | ⟨-, ⟨e, hd⟩, -⟩ | ⟨-, j, hd, hexec⟩
  · cases hlive.symm.trans hf
  · cases hlive.symm.trans hf
  · cases h.symm.trans hd
  · obtain rfl := Except.ok.inj (h.symm.trans hd)
    exact hexec

/-- The state in which a command runs: its word is in `CMD`, and these actions are still to come. -/
def State.atCommand (s : State) (acts : List HostAction) (w : Word) : State := { s with pending := acts, cmd := w }

section
variable {s t : State} {w : Word} {i : Instr} {acts : List HostAction} (hlive : s.faulted = false)
  (hword : decode w = .ok i) (hexec : exec i (s.atCommand acts w) = .next t)
include hlive hword hexec

theorem performAction_of_decodable : performAction (.wr 0x0000#16 w) (s.loadActions acts) = .next t := by
  rw [performAction_command, issueCommand_of_decodable (s := s.loadActions acts) hlive hword]
  exact hexec

/-- A run that begins with a legal command executes it. -/
theorem hostRun_command : hostRun s (.wr 0x0000#16 w :: acts) = hostRun t acts := by
  obtain ⟨u, hu, hpending⟩ := exec_next i (s.atCommand acts w)
  obtain rfl := Host.Outcome.next.inj (hu.symm.trans hexec)
  exact hostRun_cons (performAction_of_decodable hlive hword hexec) hpending

end

/-- A run that begins with the write of `CAR_IN` stores the word (R36, R85). -/
theorem hostRun_writeCarIn (s : State) (v : Word) (acts : List HostAction) :
    hostRun s (.wr 0x0019#16 v :: acts) = hostRun { s with carIn := v } acts :=
  hostRun_cons (t := { s.loadActions acts with carIn := v }) rfl rfl

end Sys2Proof.Machine
end

section
/-! `NOP`, `SAMPLE` and `SRESET` (R412 to R414): their words, and `SAMPLE` as `SYNTH` and then `VOCODE`. -/

namespace Sys2Proof.Machine

open Sys2Proof Sys2Proof.Spec

/-! ## The words -/

/-- The words of an opcode of format N but for the one with no operand bit (R125, R126). -/
theorem illegalRange_opcodeN {opc : Nat} {i : Instr} (h : ∀ w : Word, bitsOf w 31 26 = opc → decode w = decodeN w i) :
    IllegalRange (opc * 2 ^ 26 + 1) (opc * 2 ^ 26 + (2 ^ 26 - 1)) := by
  refine illegalRange_formatN (i := i) fun w hlow hhigh => ⟨h w ?opcode, ?operand⟩
  case opcode =>
    simp only [bitsOf]
    omega
  case operand =>
    simp only [bitsOf]
    omega

theorem illegalRange_nop : IllegalRange 0x00000001 0x03FFFFFF :=
  illegalRange_opcodeN (opc := 0x00) (i := .nop) fun w hopc => by simp only [decode, hopc]

theorem illegalRange_sample : IllegalRange 0x18000001 0x1BFFFFFF :=
  illegalRange_opcodeN (opc := 0x06) (i := .sample) fun w hopc => by simp only [decode, hopc]

theorem illegalRange_sreset : IllegalRange 0xFC000001 0xFFFFFFFF :=
  illegalRange_opcodeN (opc := 0x3F) (i := .sreset) fun w hopc => by simp only [decode, hopc]

/-- Settles O12: both commands are their rules; every other word of the two opcodes has an operand bit. -/
theorem nopKeepsAndSresetResetsEverything : Obligations.NopKeepsAndSresetResetsEverything :=
  ⟨by decide, illegalRange_nop, by decide, illegalRange_sreset, fun _ => ⟨rfl, rfl⟩⟩

/-! ## `SAMPLE` (R413) -/

/-- The state after `VOCODE` (R340). -/
def State.afterVocode (s : State) : State := s.writeVoc (vocoderProcess s.snapshot s.modIn s.carIn s)

/-- The state after `SAMPLE` (R413). -/
def State.afterSample (s : State) : State := sampleOnce s.snapshot s

/-- The state after `wr CAR_IN, SYN_OUT`. -/
def State.feedCarrier (s : State) : State := { s with carIn := s.synOut }

theorem exec_vocode_afterVocode (s : State) : exec .vocode s = .next s.afterVocode := exec_vocode s

theorem exec_sample (s : State) : exec .sample s = .next s.afterSample := rfl

/-- `SYNTH` writes nothing of the snapshot, so one taken after it is the same (R45, R388). -/
theorem afterSynth_snapshot (s : State) : s.afterSynth.snapshot = s.snapshot := rfl

/-- `VOCODE` after `wr CAR_IN, SYN_OUT` takes the carrier from `SYN_OUT` and reads `CAR_IN` for nothing else. -/
theorem feedCarrier_afterVocode (s : State) :
    s.feedCarrier.afterVocode =
      { s.writeVoc (vocoderProcess s.snapshot s.modIn s.synOut s) with carIn := s.synOut } := rfl

/-- `SAMPLE` is `SYNTH`, then `VOCODE` on `SYN_OUT`, but for `CAR_IN` (R413). -/
theorem afterSample_eq (s : State) :
    s.afterSample = { s.afterSynth.feedCarrier.afterVocode with carIn := s.carIn } := by
  rw [feedCarrier_afterVocode, afterSynth_snapshot]
  rfl

/-! ## `SAMPLE` in a run of the host (R413, R418) -/

/-! Neither unit reads the host's action list or `CMD`. -/

theorem afterSynth_atCommand (s : State) (acts : List HostAction) (w : Word) :
    (s.atCommand acts w).afterSynth = s.afterSynth.atCommand acts w := rfl

theorem afterVocode_atCommand (s : State) (acts : List HostAction) (w : Word) :
    (s.atCommand acts w).afterVocode = s.afterVocode.atCommand acts w := rfl

theorem afterSample_atCommand (s : State) (acts : List HostAction) (w : Word) :
    (s.atCommand acts w).afterSample = s.afterSample.atCommand acts w := by
  rw [afterSample_eq, afterSample_eq, afterSynth_atCommand]
  exact congrArg (fun t : State => { t with carIn := s.carIn }) (afterVocode_atCommand s.afterSynth.feedCarrier acts w)

theorem atCommand_atCommand (s : State) (earlier acts : List HostAction) (v w : Word) :
    (s.atCommand earlier v).atCommand acts w = s.atCommand acts w := rfl

/-! The check of `STATUS.FAULT` (R411) passes as before: none of these writes `STATUS`. -/

@[simp] theorem atCommand_faulted (s : State) (acts : List HostAction) (w : Word) :
    (s.atCommand acts w).faulted = s.faulted := rfl
@[simp] theorem feedCarrier_faulted (s : State) : s.feedCarrier.faulted = s.faulted := rfl
@[simp] theorem afterSynth_faulted (s : State) : s.afterSynth.faulted = s.faulted := rfl

theorem hostRun_feedCarrier (s : State) (earlier acts : List HostAction) (w : Word) :
    hostRun (s.atCommand earlier w) (.wr 0x0019#16 s.synOut :: acts) =
      hostRun (s.feedCarrier.atCommand earlier w) acts := hostRun_writeCarIn _ _ _

section
variable {s : State} (hlive : s.faulted = false) (acts : List HostAction)
include hlive

theorem step_synth :
    step (s.loadActions [.wr 0x0000#16 0x10000000#32]) = .next (s.afterSynth.atCommand [] 0x10000000#32) :=
  performAction_of_decodable (i := .synth) hlive (by decide) (exec_synth _)

theorem hostRun_synth :
    hostRun s (.wr 0x0000#16 0x10000000#32 :: acts) = hostRun (s.afterSynth.atCommand acts 0x10000000#32) acts :=
  hostRun_command (i := .synth) hlive (by decide) (exec_synth _)

theorem hostRun_vocode :
    hostRun s (.wr 0x0000#16 0x14000000#32 :: acts) = hostRun (s.afterVocode.atCommand acts 0x14000000#32) acts :=
  hostRun_command (i := .vocode) hlive (by decide) (exec_vocode_afterVocode _)

theorem hostRun_sample :
    hostRun s (.wr 0x0000#16 0x18000000#32 :: acts) = hostRun (s.afterSample.atCommand acts 0x18000000#32) acts := by
  rw [hostRun_command (i := .sample) hlive (by decide) (exec_sample _), afterSample_atCommand]

/-- `SYNTH`, `wr CAR_IN, SYN_OUT`, `VOCODE` as one run: none of the three raises a fault. -/
theorem hostRun_synth_carrier_vocode :
    hostRun s [.wr 0x0000#16 0x10000000#32, .wr 0x0019#16 s.afterSynth.synOut, .wr 0x0000#16 0x14000000#32] =
      .next (s.afterSynth.feedCarrier.afterVocode.atCommand [] 0x14000000#32) := by
  rw [hostRun_synth hlive, hostRun_feedCarrier, hostRun_vocode (by simpa using hlive), afterVocode_atCommand,
    atCommand_atCommand, hostRun_nil rfl]

end

/-- Settles O57: `afterSample_eq`, read once on the commands and once on the runs of the host. -/
theorem sampleIsSynthThenVocode : Obligations.SampleIsSynthThenVocode := by
  refine ⟨by decide, illegalRange_sample, fun s => ⟨?commands, fun hlive => ?runs⟩⟩
  case commands =>
    refine ⟨s.afterSynth, s.afterSynth.feedCarrier.afterVocode, exec_synth s, exec_vocode_afterVocode _, ?_⟩
    rw [exec_sample, afterSample_eq]
  case runs =>
    refine ⟨_, _, step_synth hlive, hostRun_synth_carrier_vocode hlive, ?_⟩
    rw [hostRun_sample hlive, hostRun_nil rfl, afterSample_eq]
    rfl

end Sys2Proof.Machine
end

section
/-! The fault record while a fault stands (R502, R505): every transition of a faulted block keeps it, but for the
`SRESET` command, which clears it. From the command's issue to the host action and the step. -/

namespace Sys2Proof.Machine

open Sys2Proof Sys2Proof.Spec

/-- The fault record of R502, `STATUS.FAULT` with code and info, is the same in both states. -/
structure State.SameRecord (s t : State) : Prop where
  faulted : t.faulted = s.faulted
  code : t.faultCode = s.faultCode
  info : t.faultInfo = s.faultInfo

theorem State.SameRecord.trans {s t u : State} (h : s.SameRecord t) (k : t.SameRecord u) : s.SameRecord u :=
  ⟨k.faulted.trans h.faulted, k.code.trans h.code, k.info.trans h.info⟩

/-- Nothing is recorded (R601). -/
structure State.NoRecord (t : State) : Prop where
  faulted : t.faulted = false
  code : t.faultCode = 0
  info : t.faultInfo = 0

theorem State.noRecord_doReset (s : State) : s.doReset.NoRecord := ⟨doReset_faulted s, rfl, rfl⟩

theorem State.sameRecord_writeSlot (s : State) (v : Word) (sl : Slot) : s.SameRecord (writeSlot s v sl) :=
  ⟨writeSlot_faulted s v sl, writeSlot_faultCode s v sl, writeSlot_faultInfo s v sl⟩

/-- A second fault does not replace the first (R505). -/
theorem State.sameRecord_raise {s : State} (hf : s.faulted = true) (c : FaultCode) (info : Word) :
    s.SameRecord (s.raise c info) := by
  rw [State.raise_of_faulted hf]
  exact ⟨rfl, rfl, rfl⟩

/-- The command words that a faulted block takes: `SRESET`'s resets, every other is only kept in `CMD` (R411). -/
theorem issueCommand_record {w : Word} {s t : State} (hf : s.faulted = true) (h : issueCommand w s = .next t) :
    s.SameRecord t ∨ w = sresetWord ∧ t.NoRecord := by
  rcases issueCommand_cases w s with ⟨-, -, hkept⟩ | ⟨-, hw, hreset⟩ | ⟨hlive, -⟩ | ⟨hlive, -⟩
  · obtain rfl := Host.Outcome.next.inj (hkept.symm.trans h)
    exact .inl ⟨rfl, rfl, rfl⟩
  · obtain rfl := Host.Outcome.next.inj (hreset.symm.trans h)
    exact .inr ⟨hw, State.noRecord_doReset _⟩
  · cases hf.symm.trans hlive
  · cases hf.symm.trans hlive

/-- The host action that issues the command is the only one that can end a fault (R417, R505). -/
theorem performAction_record {act : HostAction} {s t : State} (hf : s.faulted = true)
    (h : performAction act s = .next t) :
    s.SameRecord t ∨ act = .wr 0x0000#16 sresetWord ∧ t.NoRecord := by
  rcases performAction_cases act s with ⟨w, rfl, hissue⟩ | ⟨addr, v, -, -, -, hwrite⟩ | ⟨addr, v, -, -, -, hbad⟩ |
    ⟨addr, -, -, hread⟩ | ⟨addr, -, -, hbad⟩
  · exact (issueCommand_record hf (hissue.symm.trans h)).imp_right fun ⟨hw, hclear⟩ => ⟨by rw [hw], hclear⟩
  · obtain rfl := Host.Outcome.next.inj (hwrite.symm.trans h)
    exact .inl (s.sameRecord_writeSlot v _)
  · obtain rfl := Host.Outcome.next.inj (hbad.symm.trans h)
    exact .inl (State.sameRecord_raise hf _ _)
  · obtain rfl := Host.Outcome.next.inj (hread.symm.trans h)
    exact .inl ⟨rfl, rfl, rfl⟩
  · obtain rfl := Host.Outcome.next.inj (hbad.symm.trans h)
    have hobs : s.SameRecord { s with observed := s.observed ++ [0] } := ⟨rfl, rfl, rfl⟩
    exact .inl (hobs.trans (State.sameRecord_raise (hobs.faulted.trans hf) _ _))

theorem step_record {s t : State} (hf : s.faulted = true) (h : step s = .next t) :
    s.SameRecord t ∨ s.pending.head? = some (.wr 0x0000#16 sresetWord) ∧ t.NoRecord := by
  rcases step_cases s with ⟨-, hidle⟩ | ⟨act, rest, hcons, htake⟩
  · obtain rfl := Host.Outcome.next.inj (hidle.symm.trans h)
    exact .inl ⟨rfl, rfl, rfl⟩
  · have hrest : s.SameRecord { s with pending := rest } := ⟨rfl, rfl, rfl⟩
    rcases performAction_record (hrest.faulted.trans hf) (htake.symm.trans h) with hkept | ⟨rfl, hclear⟩
    · exact .inl (hrest.trans hkept)
    · exact .inr ⟨by rw [hcons, List.head?_cons], hclear⟩

/-- Settles O10: `step_record`, with the kept record read as a fault that still stands. -/
theorem firstFaultIsKeptUntilSreset : Obligations.FirstFaultIsKeptUntilSreset := by
  intro s t hf h
  rcases step_record hf h with ⟨hfaulted, hcode, hinfo⟩ | ⟨hsreset, hnone, hcode, hinfo⟩
  · exact .inl ⟨hfaulted.trans hf, hcode, hinfo⟩
  · exact .inr ⟨hsreset, hnone, hcode, hinfo⟩

end Sys2Proof.Machine
end

section
/-! The state after reset (R600, R601): what each band and each voice holds. The registers are
fields of `State.resetWith` as they stand. -/

namespace Sys2Proof.Machine

open Sys2Proof Sys2Proof.Spec

/-- The coefficients of both roles are zero at reset (R46). -/
@[simp] theorem Band.zero_coef (ns : Nat) (r : Role) : (Band.zero ns).coef r = Coef.zero ns := by
  cases r <;> rfl

/-- The histories of both roles are zero at reset (R47). -/
@[simp] theorem Band.zero_hist (ns : Nat) (r : Role) : (Band.zero ns).hist r = Hist.zero ns := by
  cases r <;> rfl

theorem resetWith_bands_length (p : Params) : (State.resetWith p).bands.length = p.bands :=
  List.length_replicate

theorem resetWith_voices_length (p : Params) : (State.resetWith p).voices.length = p.voices := by
  simp only [State.resetWith, List.length_map, List.length_range]

theorem eq_zero_of_mem_resetWith_bands {p : Params} {bd : Band} (h : bd ∈ (State.resetWith p).bands) :
    bd = Band.zero p.ns :=
  List.eq_of_mem_replicate h

theorem resetWith_voice_iff {p : Params} {v : Nat} {u : Voice} :
    (State.resetWith p).voices[v]? = some u ↔ v < p.voices ∧ Voice.reset v = u := by
  simp [State.resetWith, List.getElem?_eq_some_iff]

/-- A pool of at most 512 voices (R15) has a noise seed `v + 1` that fits the 32 bits (R49). -/
theorem Voice.reset_noise_toNat {p : Params} (hp : p.Valid) {v : Nat} (hv : v < p.voices) :
    (Voice.reset v).noise.toNat = v + 1 := by
  have hpool := hp.voices_high
  have hfits : v + 1 < 2 ^ 32 := by omega
  rw [Voice.reset, BitVec.toNat_ofNat, Nat.mod_eq_of_lt hfits]

theorem exec_sreset (s : State) : exec .sreset s = .next s.doReset := rfl

/-- Settles O11: a band of the reset block is `Band.zero`, its voice `v` is `Voice.reset v`, and only the noise
seed needs the parameters to be legal. -/
theorem resetValues : Obligations.ResetValues := by
  intro p hp
  refine ⟨?registers, resetWith_bands_length p, resetWith_voices_length p, fun bd hbd => ?band,
    fun t => ⟨t.doReset, exec_sreset t, rfl⟩, fun v u hu => ?voice⟩
  case registers => and_intros <;> rfl
  case band =>
    obtain rfl := eq_zero_of_mem_resetWith_bands hbd
    refine ⟨rfl, fun r => ?_⟩
    rw [Band.zero_coef, Band.zero_hist]
    exact ⟨rfl, rfl, rfl, rfl⟩
  case voice =>
    obtain ⟨hv, rfl⟩ := resetWith_voice_iff.1 hu
    exact ⟨rfl, rfl, rfl, rfl, rfl, rfl, Voice.reset_noise_toNat hp hv, rfl⟩

end Sys2Proof.Machine
end

section
/-! The decoder and the encoder as inverses (R121 to R128), and the legal words as the 27 rows of the opcode table
(R126). An accepted word is put together again from its fields, format by format; a word of a row is the encoding of an
instruction of the row. -/

namespace Sys2Proof

/-! ## Decoding an encoding -/

/-- Decoding gives back every instruction that has an encoding (R128). -/
theorem decode_encode {i : Instr} (h : i.wellFormed = true) : decode (encode i) = .ok i := by
  cases i with
  | aluShl k => exact (decode_encode_shift (of_decide_eq_true h)).left
  | aluShr k => exact (decode_encode_shift (of_decide_eq_true h)).right
  | press note => exact decode_encode_press note
  | release note => exact decode_encode_release note
  | cstepMod band => exact (decode_encode_cstep band).left
  | cstepCar band => exact (decode_encode_cstep band).right
  | designMod band => obtain ⟨hmod, -, -⟩ := decode_encode_design band; exact hmod
  | designCar band => obtain ⟨-, hcar, -⟩ := decode_encode_design band; exact hcar
  | designBoth band => obtain ⟨-, -, hboth⟩ := decode_encode_design band; exact hboth
  | nop | synth | vocode | sample | vinit | sreset => rfl
  | aluAdd | aluSub | aluMul | aluDiv | aluMulw | aluMacw | aluMsuw | aluAddw | aluCompact | aluAbs | aluFromf
  | aluTof => rfl

/-- Settles O1: instruction by instruction; the shifts need their constant below 32. -/
theorem decodeOfEncode : Obligations.DecodeOfEncode := fun _ => decode_encode

/-- Settles O4: the decoder evaluated on the nine words. -/
theorem specWordsDecode : Obligations.SpecWordsDecode := by
  refine ⟨?nop, ?macw, ?shr, ?press, ?cstep, ?design, ?sreset, ?shiftBy32, ?bothRoles⟩ <;> rfl

/-! ## A word is its fields (R121) -/

section
variable {w : Word} {opc : Nat} (hopc : bitsOf w 31 26 = opc)
include hopc

theorem eq_of_formatN (hoperand : bitsOf w 25 0 = 0) : w = BitVec.ofNat 32 (opc * 2 ^ 26) := by
  apply BitVec.eq_of_toNat_eq
  simp only [bitsOf] at hopc hoperand
  rw [BitVec.toNat_ofNat]
  omega

theorem eq_encodeV (hreserved : bitsOf w 25 16 = 0) : w = encodeV opc (BitVec.ofNat 16 (bitsOf w 15 0)) := by
  apply BitVec.eq_of_toNat_eq
  simp only [bitsOf] at hopc hreserved
  simp only [encodeV, bitsOf, BitVec.toNat_ofNat]
  omega

theorem eq_encodeB {rm : Nat} (hreserved : bitsOf w 23 16 = 0) (hrm : bitsOf w 25 24 = rm) :
    w = encodeB opc rm (BitVec.ofNat 16 (bitsOf w 15 0)) := by
  apply BitVec.eq_of_toNat_eq
  simp only [bitsOf] at hopc hreserved hrm
  simp only [encodeB, bitsOf, BitVec.toNat_ofNat]
  omega

end

theorem eq_encodeA {w : Word} {aop k : Nat} (hopc : bitsOf w 31 26 = 1) (haop : bitsOf w 25 21 = aop)
    (hk : bitsOf w 20 15 = k) (hreserved : bitsOf w 14 0 = 0) : w = encodeA aop k := by
  apply BitVec.eq_of_toNat_eq
  simp only [bitsOf] at hopc haop hk hreserved
  simp only [encodeA, BitVec.toNat_ofNat]
  omega

/-! ## What a decoded word is -/

/-- The word is the encoding of the instruction, which has one. -/
def Encodes (i : Instr) (w : Word) : Prop := i.wellFormed = true ∧ encode i = w

section
variable {w : Word} {i : Instr}

/-- What format N accepts (R121). -/
theorem encodes_of_decodeN {opc : Nat} {j : Instr} (hopc : bitsOf w 31 26 = opc) (hwf : j.wellFormed = true)
    (hj : encode j = BitVec.ofNat 32 (opc * 2 ^ 26)) (h : decodeN w j = .ok i) : Encodes i w := by
  unfold decodeN at h
  split at h
  case isTrue hoperand =>
    obtain rfl := Except.ok.inj h
    exact ⟨hwf, hj.trans (eq_of_formatN hopc hoperand).symm⟩
  case isFalse => cases h

/-- What format V accepts (R121). -/
theorem encodes_of_decodeV {opc : Nat} {mk : BitVec 16 → Instr} (hopc : bitsOf w 31 26 = opc)
    (hmk : ∀ note, Encodes (mk note) (encodeV opc note)) (h : decodeV w mk = .ok i) : Encodes i w := by
  unfold decodeV at h
  split at h
  case isTrue hreserved =>
    obtain rfl := Except.ok.inj h
    have hword := hmk (BitVec.ofNat 16 (bitsOf w 15 0))
    rwa [← eq_encodeV hopc hreserved] at hword
  case isFalse => cases h

/-- What format A accepts for an operation without a shift amount (R121, R125). -/
theorem encodes_of_decodeA {aop : Nat} {j : Instr} (hopc : bitsOf w 31 26 = 1) (haop : bitsOf w 25 21 = aop)
    (hj : Encodes j (encodeA aop 0)) (h : decodeA w j = .ok i) : Encodes i w := by
  unfold decodeA at h
  split_ifs at h with hreserved hshift
  obtain rfl := Except.ok.inj h
  rwa [eq_encodeA hopc haop (not_not.1 hshift) (not_not.1 hreserved)]

/-- What format A accepts for a shift (R121, R125). -/
theorem encodes_of_decodeShift {aop : Nat} {mk : BitVec 6 → Instr} (hopc : bitsOf w 31 26 = 1)
    (haop : bitsOf w 25 21 = aop) (hmk : ∀ k, k.toNat < 32 → Encodes (mk k) (encodeA aop k.toNat))
    (h : decodeShift w mk = .ok i) : Encodes i w := by
  unfold decodeShift at h
  split_ifs at h with hreserved hshift
  obtain rfl := Except.ok.inj h
  have hlt : bitsOf w 20 15 < 32 := Nat.not_le.1 hshift
  have hk : (BitVec.ofNat 6 (bitsOf w 20 15)).toNat = bitsOf w 20 15 := by
    rw [BitVec.toNat_ofNat]
    exact Nat.mod_eq_of_lt (by omega)
  have hword := hmk (BitVec.ofNat 6 (bitsOf w 20 15)) (by rw [hk]; exact hlt)
  rwa [hk, ← eq_encodeA hopc haop rfl (not_not.1 hreserved)] at hword

/-- What the ALU opcode accepts (R124): the operations of format A, of which `SHL` and `SHR` take an amount. -/
theorem encodes_of_decodeAlu (hopc : bitsOf w 31 26 = 1) (h : decodeAlu w = .ok i) : Encodes i w := by
  have hshift {aop : Nat} {mk : BitVec 6 → Instr} (haop : bitsOf w 25 21 = aop)
      (hwf : ∀ k, (mk k).wellFormed = decide (k.toNat < 32)) (henc : ∀ k, encode (mk k) = encodeA aop k.toNat) :
      decodeShift w mk = .ok i → Encodes i w :=
    encodes_of_decodeShift hopc haop fun k hk => ⟨(hwf k).trans (decide_eq_true hk), henc k⟩
  unfold decodeAlu at h
  split at h
  case h_11 haop => exact hshift haop (fun _ => rfl) (fun _ => rfl) h
  case h_12 haop => exact hshift haop (fun _ => rfl) (fun _ => rfl) h
  case h_15 => cases h
  all_goals exact encodes_of_decodeA hopc ‹_› ⟨rfl, rfl⟩ h

/-- What `CSTEP` accepts (R125): exactly one role. -/
theorem encodes_of_decodeCstep (hopc : bitsOf w 31 26 = 7) (h : decodeCstep w = .ok i) : Encodes i w := by
  unfold decodeCstep at h
  split_ifs at h with hreserved
  split at h
  case h_1 hrole =>
    obtain rfl := Except.ok.inj h
    exact ⟨rfl, (eq_encodeB hopc (not_not.1 hreserved) hrole).symm⟩
  case h_2 hrole =>
    obtain rfl := Except.ok.inj h
    exact ⟨rfl, (eq_encodeB hopc (not_not.1 hreserved) hrole).symm⟩
  case h_3 => cases h

/-- What `DESIGN` accepts (R125): at least one role. -/
theorem encodes_of_decodeDesign (hopc : bitsOf w 31 26 = 8) (h : decodeDesign w = .ok i) : Encodes i w := by
  unfold decodeDesign at h
  split_ifs at h with hreserved
  split at h
  case h_4 => cases h
  all_goals
    obtain rfl := Except.ok.inj h
    exact ⟨rfl, (eq_encodeB hopc (not_not.1 hreserved) ‹_›).symm⟩

/-- No bit of a legal word is ignored (R126): by the opcode, then by the format. -/
theorem encodes_of_decode (h : decode w = .ok i) : Encodes i w := by
  unfold decode at h
  split at h
  case h_2 hopc => exact encodes_of_decodeAlu hopc h
  case h_3 hopc => exact encodes_of_decodeV hopc (fun _ => ⟨rfl, rfl⟩) h
  case h_4 hopc => exact encodes_of_decodeV hopc (fun _ => ⟨rfl, rfl⟩) h
  case h_8 hopc => exact encodes_of_decodeCstep hopc h
  case h_9 hopc => exact encodes_of_decodeDesign hopc h
  case h_12 => cases h
  all_goals exact encodes_of_decodeN ‹_› rfl rfl h

end

/-- Settles O2: each opcode's words are put together again from the fields that its format accepts. -/
theorem encodeOfDecode : Obligations.EncodeOfDecode := fun _ _ => encodes_of_decode

/-! ## The rows of the opcode table (R126) -/

/-- The encoding of every instruction that has one meets its row. -/
theorem encode_meets_row {i : Instr} (h : i.wellFormed = true) : encode i &&& (rowOf i).mask = (rowOf i).pattern :=
  match i with
  | .nop => Laws.EncodeRow.nop h
  | .aluAdd => Laws.EncodeRow.aluAdd h
  | .aluSub => Laws.EncodeRow.aluSub h
  | .aluMul => Laws.EncodeRow.aluMul h
  | .aluDiv => Laws.EncodeRow.aluDiv h
  | .aluMulw => Laws.EncodeRow.aluMulw h
  | .aluMacw => Laws.EncodeRow.aluMacw h
  | .aluMsuw => Laws.EncodeRow.aluMsuw h
  | .aluAddw => Laws.EncodeRow.aluAddw h
  | .aluCompact => Laws.EncodeRow.aluCompact h
  | .aluAbs => Laws.EncodeRow.aluAbs h
  | .aluShl k => Laws.EncodeRow.aluShl k h
  | .aluShr k => Laws.EncodeRow.aluShr k h
  | .aluFromf => Laws.EncodeRow.aluFromf h
  | .aluTof => Laws.EncodeRow.aluTof h
  | .press note => Laws.EncodeRow.press note h
  | .release note => Laws.EncodeRow.release note h
  | .synth => Laws.EncodeRow.synth h
  | .vocode => Laws.EncodeRow.vocode h
  | .sample => Laws.EncodeRow.sample h
  | .cstepMod band => Laws.EncodeRow.cstepMod band h
  | .cstepCar band => Laws.EncodeRow.cstepCar band h
  | .designMod band => Laws.EncodeRow.designMod band h
  | .designCar band => Laws.EncodeRow.designCar band h
  | .designBoth band => Laws.EncodeRow.designBoth band h
  | .vinit => Laws.EncodeRow.vinit h
  | .sreset => Laws.EncodeRow.sreset h

/-- The row of an instruction does not depend on its operand, so it is one of the table. -/
theorem rowOf_mem_opcodeRows (i : Instr) : rowOf i ∈ opcodeRows := by
  cases i <;> simp only [opcodeRows, rowOf, List.mem_cons, true_or, or_true]

/-- Some instruction of the row decodes from the word. -/
def DecodesInRow (w : Word) (r : OpcodeRow) : Prop := ∃ i, decode w = .ok i ∧ rowOf i = r

section
variable {w pattern : Word}

theorem Encodes.decodesInRow {i : Instr} (h : Encodes i w) : DecodesInRow w (rowOf i) := by
  obtain ⟨hwf, rfl⟩ := h
  exact ⟨i, decode_encode hwf, rfl⟩

/-- A row whose mask is the whole word has one word. -/
theorem decodesInRow_of_word {i : Instr} (h : w &&& (rowOf i).mask = (rowOf i).pattern) (hwf : i.wellFormed = true)
    (hrow : rowOf i = ⟨0xFFFFFFFF#32, encode i⟩) : DecodesInRow w (rowOf i) := by
  simp only [hrow, and_allOnes] at h
  exact Encodes.decodesInRow ⟨hwf, h.symm⟩

/-- A row of format V or B leaves the lower half of the word to the operand. -/
theorem decodesInRow_of_upperHalf {mk : BitVec 16 → Instr} (h : w &&& (rowOf (mk 0)).mask = (rowOf (mk 0)).pattern)
    (hwf : ∀ n, (mk n).wellFormed = true) (hrow : ∀ n, rowOf (mk n) = ⟨0xFFFF0000#32, pattern⟩)
    (henc : ∀ n, encode (mk n) = BitVec.ofNat 32 (pattern.toNat + n.toNat)) : DecodesInRow w (rowOf (mk 0)) := by
  have hsame (n : BitVec 16) : rowOf (mk 0) = rowOf (mk n) := (hrow 0).trans (hrow n).symm
  simp only [hrow, and_upperHalf] at h
  rw [hsame (BitVec.ofNat 16 w.toNat)]
  refine Encodes.decodesInRow ⟨hwf _, ?_⟩
  apply BitVec.eq_of_toNat_eq
  rw [henc, ← h]
  simp only [BitVec.toNat_ofNat]
  omega

/-- The rows of `SHL` and `SHR` leave bits 19 to 15 to the amount. -/
theorem decodesInRow_of_shift {mk : BitVec 6 → Instr} (h : w &&& (rowOf (mk 0)).mask = (rowOf (mk 0)).pattern)
    (hwf : ∀ k, (mk k).wellFormed = decide (k.toNat < 32)) (hrow : ∀ k, rowOf (mk k) = ⟨0xFFF07FFF#32, pattern⟩)
    (henc : ∀ k, encode (mk k) = BitVec.ofNat 32 (pattern.toNat + k.toNat * 2 ^ 15)) :
    DecodesInRow w (rowOf (mk 0)) := by
  have hsame (k : BitVec 6) : rowOf (mk 0) = rowOf (mk k) := (hrow 0).trans (hrow k).symm
  have hk : (BitVec.ofNat 6 (w.toNat / 2 ^ 15 % 2 ^ 5)).toNat = w.toNat / 2 ^ 15 % 2 ^ 5 := by
    rw [BitVec.toNat_ofNat]
    omega
  simp only [hrow, and_shiftMask] at h
  rw [hsame (BitVec.ofNat 6 (w.toNat / 2 ^ 15 % 2 ^ 5))]
  refine Encodes.decodesInRow ⟨?legal, ?word⟩
  case legal =>
    rw [hwf, hk, decide_eq_true_eq]
    omega
  case word =>
    apply BitVec.eq_of_toNat_eq
    rw [henc, hk, ← h]
    simp only [BitVec.toNat_ofNat]
    omega

end

/-- A word that meets a row decodes to an instruction of the row. -/
theorem decodesInRow_of_mem {w : Word} : ∀ r ∈ opcodeRows, w &&& r.mask = r.pattern → DecodesInRow w r := by
  simp only [opcodeRows, List.forall_mem_cons]
  refine ⟨?_, ?_, ?_, ?_, ?_, ?_, ?_, ?_, ?_, ?_, ?_, ?shl, ?shr, ?_, ?_, ?press, ?release, ?_, ?_, ?_, ?cstepMod,
    ?cstepCar, ?designMod, ?designCar, ?designBoth, ?_, ?_, List.forall_mem_nil _⟩
  case shl | shr =>
    exact fun h => decodesInRow_of_shift h (fun _ => rfl) (fun _ => rfl) (fun _ => rfl)
  case press | release | cstepMod | cstepCar | designMod | designCar | designBoth =>
    exact fun h => decodesInRow_of_upperHalf h (fun _ => rfl) (fun _ => rfl) (fun _ => rfl)
  all_goals exact fun h => decodesInRow_of_word h rfl rfl

/-- Settles O3: a legal word is the encoding of its instruction, which meets its row; a word of a row is the encoding of
an instruction of the row. -/
theorem legalWordsAreTheTableRows : Obligations.LegalWordsAreTheTableRows := by
  refine fun w => ⟨fun i h => ⟨rowOf_mem_opcodeRows i, ?_⟩, decodesInRow_of_mem⟩
  obtain ⟨hwf, rfl⟩ := encodes_of_decode h
  exact encode_meets_row hwf

end Sys2Proof
end

section
/-! The issue of a command (R410, R411, R502) and the host's reads and failing accesses (R82, R86, R417): what one step
leaves, for each kind of host action but the write that stores a word. -/

namespace Sys2Proof.Machine

open Sys2Proof Sys2Proof.Spec

/-! ## A write of a command word -/

section
variable {s : State} {w : Word} {rest : List HostAction} (hcmd : s.pending = .wr 0x0000#16 w :: rest)
include hcmd

theorem step_of_decodable {i : Instr} (hlive : s.faulted = false) (hword : decode w = .ok i) :
    step s = exec i { s with pending := rest, cmd := w } := by
  rw [step_of_command hcmd, issueCommand_of_decodable (s := { s with pending := rest }) hlive hword]

theorem step_of_undecodable {e : Illegal} (hlive : s.faulted = false) (hword : decode w = .error e) :
    step s = .next (faultedWith { s with pending := rest, cmd := w } 5#32 w) := by
  rw [step_of_command hcmd, issueCommand_of_undecodable (s := { s with pending := rest }) hlive hword]

/-- A faulted block takes the word of `SRESET` and no other (R411). -/
theorem step_of_faulted (hf : s.faulted = true) :
    (w ≠ sresetWord → step s = .next { s with pending := rest, cmd := w }) ∧
    (w = sresetWord → step s = .next (State.doReset { s with pending := rest, cmd := w })) := by
  rw [step_of_command hcmd]
  rcases issueCommand_cases w { s with pending := rest } with ⟨-, hw, hkept⟩ | ⟨-, hw, hreset⟩ | ⟨hlive, -⟩ | ⟨hlive, -⟩
  · exact ⟨fun _ => hkept, fun h => absurd h hw⟩
  · exact ⟨fun h => absurd hw h, fun _ => hreset⟩
  · cases hf.symm.trans hlive
  · cases hf.symm.trans hlive

end

/-- Settles O5: a legal word on a live block goes to `exec`. -/
theorem stepRunsTheDecodedCommand : Obligations.StepRunsTheDecodedCommand :=
  fun _ _ _ _ hcmd hlive hword => step_of_decodable hcmd hlive hword

/-- Settles O6: a word that decodes to no instruction has a reason for it, and is recorded. -/
theorem illegalWordFaults : Obligations.IllegalWordFaults := by
  intro s w rest hcmd hlive hnone
  cases hword : decode w with
  | ok i => exact absurd hword (hnone i)
  | error e => exact step_of_undecodable hcmd hlive hword

/-- Settles O7: `0xFC000000` is `SRESET`'s word, and the reset does not read what `CMD` held. -/
theorem faultedBlockTakesOnlySreset : Obligations.FaultedBlockTakesOnlySreset :=
  fun _ _ _ hcmd hf => step_of_faulted hcmd hf

/-! ## A command that raises a fault -/

/-- A code of R500 as a number. -/
theorem FaultCode.exists_ofNat (c : FaultCode) : ∃ n : Nat, 1 ≤ n ∧ n ≤ 9 ∧ c.toWord = BitVec.ofNat 32 n := by
  obtain ⟨hlow, hhigh⟩ := c.toWord_range
  exact ⟨c.toWord.toNat, hlow, hhigh, by rw [BitVec.ofNat_toNat, BitVec.setWidth_eq]⟩

/-- A command that leaves a live block faulted has written the fault record only (R410, R502): the reset leaves it live,
and the commands that raise nothing leave `FAULT` as it was. -/
theorem exec_eq_raiseCmd_of_faulted {i : Instr} {s t : State} (hlive : s.faulted = false) (h : exec i s = .next t)
    (hf : t.faulted = true) : ∃ c : FaultCode, t = faultedWith s c.toWord s.cmd := by
  rcases exec_cases i s with ⟨c, hraise⟩ | ⟨-, hreset⟩ | ⟨u, hnext, hkeeps⟩
  · obtain rfl := Host.Outcome.next.inj (hraise.symm.trans h)
    exact ⟨c, State.raiseCmd_of_live hlive c⟩
  · obtain rfl := Host.Outcome.next.inj (hreset.symm.trans h)
    cases hf.symm.trans (doReset_faulted s)
  · obtain rfl := Host.Outcome.next.inj (hnext.symm.trans h)
    cases hf.symm.trans (hkeeps.faulted.trans hlive)

/-- Settles O9: an illegal word records code 5; a legal one is a command, and one that faults has only recorded. -/
theorem faultingCommandWritesOnlyTheRecord : Obligations.FaultingCommandWritesOnlyTheRecord := by
  intro s t w rest hcmd hlive hstep hf
  cases hword : decode w with
  | error e =>
    rw [step_of_undecodable hcmd hlive hword] at hstep
    exact ⟨5, by decide, by decide, (Host.Outcome.next.inj hstep).symm⟩
  | ok i =>
    rw [step_of_decodable hcmd hlive hword] at hstep
    obtain ⟨c, rfl⟩ := exec_eq_raiseCmd_of_faulted (s := { s with pending := rest, cmd := w }) hlive hstep hf
    obtain ⟨n, hlow, hhigh, hcode⟩ := c.exists_ofNat
    exact ⟨n, hlow, hhigh, by rw [hcode]⟩

/-! ## The registers of the host -/

theorem sameHostRegisters_raise (s : State) (c : FaultCode) (info : Word) : SameHostRegisters s (s.raise c info) := by
  rcases s.raise_cases c info with ⟨-, hkept⟩ | ⟨-, hrecord⟩
  · rw [hkept]
    and_intros <;> rfl
  · rw [hrecord]
    and_intros <;> rfl

theorem State.Keeps.sameHostRegisters {s t : State} (h : s.Keeps t) : SameHostRegisters s t :=
  ⟨h.a, h.b, h.g, h.modIn, h.carIn, h.attackRate, h.decayRate, h.sustainLevel, h.releaseRate, h.outputGain, h.noiseGain,
    h.tuning, h.shape, h.fTop, h.ctrl, h.cmd⟩

theorem raise_observed (s : State) (c : FaultCode) (info : Word) : (s.raise c info).observed = s.observed := by
  rcases s.raise_cases c info with ⟨-, hkept⟩ | ⟨-, hrecord⟩
  · rw [hkept]
  · rw [hrecord]

/-- Settles O16: a fault record, the reset, and every other command on its own. -/
theorem commandsLeaveHostRegisters : Obligations.CommandsLeaveHostRegisters := by
  intro i s t h
  rcases exec_cases i s with ⟨c, hraise⟩ | ⟨hsreset, hreset⟩ | ⟨u, hnext, hkeeps⟩
  · obtain rfl := Host.Outcome.next.inj (hraise.symm.trans h)
    exact ⟨raise_pending s c _, raise_observed s c _, fun _ => sameHostRegisters_raise s c _⟩
  · obtain rfl := Host.Outcome.next.inj (hreset.symm.trans h)
    exact ⟨rfl, rfl, fun hother => absurd hsreset hother⟩
  · obtain rfl := Host.Outcome.next.inj (hnext.symm.trans h)
    exact ⟨hkeeps.pending, hkeeps.observed, fun _ => hkeeps.sameHostRegisters⟩

/-! ## Host accesses -/

theorem step_of_action {s : State} {act : HostAction} {rest : List HostAction} (h : s.pending = act :: rest) :
    step s = performAction act { s with pending := rest } := by
  rcases step_cases s with ⟨hnil, -⟩ | ⟨act', rest', hcons, hstep⟩
  · cases h.symm.trans hnil
  · obtain ⟨rfl, rfl⟩ := List.cons.inj (h.symm.trans hcons)
    exact hstep

/-- A read of a mapped address (R86). -/
theorem performAction_read {s : State} {addr : Addr} (h : slotOf s.params addr ≠ .unmapped) :
    performAction (.rd addr) s = .next { s with observed := s.observed ++ [peek s addr] } := if_neg h

/-- A read of an unmapped address returns 0 (R82, R417). -/
theorem performAction_badRead {s : State} {addr : Addr} (h : slotOf s.params addr = .unmapped) :
    performAction (.rd addr) s =
      .next (State.raise { s with observed := s.observed ++ [0] } .badAddress (addrWord addr)) := by
  have hzero : peek s addr = 0 := peek_of_slotOf h
  rw [performAction, hostRead, if_pos h, hzero]

/-- A write of an address that is not writable (R82, R417). `CMD` is writable, so it is no write of `CMD`. -/
theorem performAction_badWrite {s : State} {addr : Addr} {v : Word} (h : (slotOf s.params addr).writable = false) :
    performAction (.wr addr v) s = .next (s.raise .badAddress (addrWord addr)) := by
  have hcmd : slotOf s.params addr ≠ .reg .cmd := fun heq => Bool.false_ne_true (h.symm.trans (by rw [heq]; rfl))
  rw [performAction, hostWrite, if_neg hcmd, h]
  rfl

/-- Settles O18: a mapped read adds what `peek` shows. -/
theorem mappedReadOnlyReturns : Obligations.MappedReadOnlyReturns := fun _ _ _ hpending hmapped =>
  (step_of_action hpending).trans (performAction_read hmapped)

/-- A failing access is recorded on a live block and ignored on a faulted one (R417). -/
theorem next_raise_badAddress (s : State) (addr : Addr) :
    (s.faulted = false → Host.Outcome.next (φ := Fault) (ρ := Refusal) (s.raise .badAddress (addrWord addr)) =
      .next (faultedWith s 8#32 (BitVec.ofNat 32 addr.toNat))) ∧
    (s.faulted = true →
      Host.Outcome.next (φ := Fault) (ρ := Refusal) (s.raise .badAddress (addrWord addr)) = .next s) :=
  ⟨fun hlive => congrArg _ (State.raise_of_live hlive _ _), fun hf => congrArg _ (State.raise_of_faulted hf _ _)⟩

/-- Settles O19: a failing access is a `raise` of the state with the action taken. -/
theorem failingAccesses : Obligations.FailingAccesses := by
  refine fun s addr v rest => ⟨fun hpending hunmapped => ?read, fun hpending hlocked => ?write⟩
  case read =>
    rw [step_of_action hpending, performAction_badRead (s := { s with pending := rest }) hunmapped]
    exact next_raise_badAddress { s with pending := rest, observed := s.observed ++ [0] } addr
  case write =>
    rw [step_of_action hpending, performAction_badWrite (s := { s with pending := rest }) hlocked]
    exact next_raise_badAddress { s with pending := rest } addr

end Sys2Proof.Machine
end

section
/-! What each command writes of the units' state (R33 to R35, R39, R42, R46 to R49): the inversion of `exec` that
the frames of the result registers and the invariant are read from. -/

namespace Sys2Proof.Machine

open Sys2Proof Sys2Proof.Spec

/-- The result registers, `AGE_CNT` and `CFG_DONE` are the same in both states. -/
structure State.SameResults (s t : State) : Prop where
  y : t.y = s.y
  acc : t.acc = s.acc
  f : t.f = s.f
  ageCnt : t.ageCnt = s.ageCnt
  cfgDone : t.cfgDone = s.cfgDone

/-- So are the bands and the voices. -/
structure State.SameUnits (s t : State) : Prop extends s.SameResults t where
  bands : t.bands = s.bands
  voices : t.voices = s.voices

/-- `CFG_DONE` is a bit of `STATUS` (R39). -/
theorem State.SameUnits.of_eq {s t : State} (hy : t.y = s.y) (hacc : t.acc = s.acc) (hf : t.f = s.f)
    (hage : t.ageCnt = s.ageCnt) (hstatus : t.status = s.status) (hbands : t.bands = s.bands)
    (hvoices : t.voices = s.voices) : s.SameUnits t :=
  ⟨⟨hy, hacc, hf, hage, congrArg (BitVec.getLsbD · 1) hstatus⟩, hbands, hvoices⟩

theorem State.SameUnits.refl (s : State) : s.SameUnits s := .of_eq rfl rfl rfl rfl rfl rfl rfl

theorem State.SameResults.trans {s t u : State} (h : s.SameResults t) (k : t.SameResults u) : s.SameResults u :=
  ⟨k.y.trans h.y, k.acc.trans h.acc, k.f.trans h.f, k.ageCnt.trans h.ageCnt, k.cfgDone.trans h.cfgDone⟩

/-- A fault record touches none of them: of `STATUS` it sets `FAULT` only (R502). -/
theorem State.sameUnits_raise (s : State) (c : FaultCode) (info : Word) : s.SameUnits (s.raise c info) := by
  rcases s.raise_cases c info with ⟨-, hkept⟩ | ⟨-, hrecord⟩
  · rw [hkept]
    exact .refl s
  · rw [hrecord]
    exact ⟨⟨rfl, rfl, rfl, rfl, (statusSetFault_bits s.status).right⟩, rfl, rfl⟩

/-- The ALU operations that write `Y` (R206). -/
def IsNarrow (i : Instr) : Prop :=
  i ∈ [.aluAdd, .aluSub, .aluMul, .aluDiv, .aluCompact, .aluAbs, .aluFromf] ∨ ∃ k, i = .aluShl k ∨ i = .aluShr k

/-- The ALU operations that write `ACC` (R206). -/
def IsWide (i : Instr) : Prop := i ∈ [.aluMulw, .aluMacw, .aluMsuw, .aluAddw]

/-- Every way a command other than `SRESET` can leave the units' state: `same` is that of a fault, too. -/
inductive Effect (s t : State) : Instr → Prop
  | same {i : Instr} (h : s.SameUnits t) : Effect s t i
  | narrow {i : Instr} (hi : IsNarrow i) (h : s.SameUnits { t with y := s.y }) : Effect s t i
  | wide {i : Instr} (hi : IsWide i) (h : s.SameUnits { t with acc := s.acc }) : Effect s t i
  | tof (h : s.SameUnits { t with f := s.f }) : Effect s t .aluTof
  | press (note : BitVec 16) (h : s.SameUnits { t with ageCnt := s.ageCnt, voices := s.voices })
      (hnote : note.toNat < s.params.numNotes)
      (hvoices : t.voices = s.voices.modify (selectVoice s.voices)
        (Voice.press note (s.params.noteInc.getD note.toNat 0) (s.ageCnt + 1))) : Effect s t (.press note)
  | release (note : BitVec 16) (h : s.SameUnits { t with voices := s.voices })
      (hvoices : t.voices = s.voices.map (Voice.releaseNote note)) : Effect s t (.release note)
  | audio {i : Instr} (h : s.SameResults t)
      (hvoices : t.voices = s.voices ∨ ∃ sn, t.voices = s.voices.map fun v => (voiceTick s.params sn v).val)
      (hbands : t.bands = s.bands ∨ ∃ k m c, t.bands = s.bands.map (bandAfter k m c)) : Effect s t i
  | cstep (r : Role) (band : BitVec 16) (h : s.SameUnits { t with y := s.y, bands := s.bands }) (hist : Hist)
      (hlength : hist.yh.length = ((s.band band.toNat).hist r).yh.length) (hband : band.toNat < s.params.bands)
      (hbands : t.bands = s.bands.modify band.toNat fun bd => bd.setHist r hist) : Effect s t (cstepOf r band)
  | design {i : Instr} (band : BitVec 16) (hi : i ∈ [.designMod band, .designCar band, .designBoth band])
      (h : s.SameUnits { t with bands := s.bands }) (c : Coef) (store : Coef → Band → Band)
      (hstore : store ∈ [storeMod, storeCar, storeBoth]) (hc : design Config.libm s.f s.g s.params.ns = .ok c)
      (hbands : t.bands = s.bands.modify band.toNat (store c)) : Effect s t i
  | vinit (h : s.SameUnits { t with status := s.status, bands := s.bands }) (cs : List Coef)
      (hcs : designAll (planDesign Config.libm s) 0 s.params.bands = .ok cs)
      (hbands : t.bands = cs.map (restBand s.params.ns)) : Effect s t .vinit

theorem State.sameUnits_writeY (s : State) (r : Marked Word) : s.SameUnits { s.writeY r with y := s.y } :=
  .of_eq rfl rfl rfl rfl rfl rfl rfl

theorem State.sameUnits_writeAcc (s : State) (r : Marked Wide) : s.SameUnits { s.writeAcc r with acc := s.acc } :=
  .of_eq rfl rfl rfl rfl rfl rfl rfl

section
variable (s : State)

theorem effect_raiseCmd (i : Instr) (c : FaultCode) : Effect s (s.raiseCmd c) i := .same (s.sameUnits_raise c s.cmd)

theorem effect_writeY {i : Instr} (hi : IsNarrow i) (r : Marked Word) : Effect s (s.writeY r) i :=
  .narrow hi (s.sameUnits_writeY r)

theorem effect_writeAcc {i : Instr} (hi : IsWide i) (r : Marked Wide) : Effect s (s.writeAcc r) i :=
  .wide hi (s.sameUnits_writeAcc r)

theorem pressNote_effect (note : BitVec 16) : Effect s (pressNote note s) (.press note) := by
  by_cases h : note.toNat < s.params.numNotes
  · rw [pressNote, if_pos h]
    exact .press note (.of_eq rfl rfl rfl rfl rfl rfl rfl) h rfl
  · rw [pressNote_of_ge (Nat.not_lt.1 h)]
    exact effect_raiseCmd s _ _

theorem cstep_effect (r : Role) (band : BitVec 16) : Effect s (cstep r band.toNat s) (cstepOf r band) := by
  by_cases h : band.toNat < s.params.bands
  · rw [cstep_of_lt s r _ h]
    exact .cstep r band (.of_eq rfl rfl rfl rfl rfl rfl rfl) _ (cascadeStep_length _ _ _) h rfl
  · rw [cstep_of_ge r (Nat.not_lt.1 h)]
    exact effect_raiseCmd s _ _

theorem designBand_effect {i : Instr} (band : BitVec 16) (hi : i ∈ [.designMod band, .designCar band, .designBoth band])
    {store : Coef → Band → Band} (hstore : store ∈ [storeMod, storeCar, storeBoth]) :
    Effect s (designBand Config.libm store band.toNat s) i := by
  by_cases h : band.toNat < s.params.bands
  · cases hc : design Config.libm s.f s.g s.params.ns with
    | error e =>
      rw [designBand_of_error store h hc]
      exact effect_raiseCmd s _ _
    | ok c =>
      rw [designBand, if_pos h, hc]
      exact .design band hi (.of_eq rfl rfl rfl rfl rfl rfl rfl) c store hstore hc rfl
  · rw [designBand_of_ge Config.libm store (Nat.not_lt.1 h)]
    exact effect_raiseCmd s _ _

theorem vinit_effect : Effect s (vinit Config.libm s) .vinit := by
  cases hcs : designAll (planDesign Config.libm s) 0 s.params.bands with
  | error e =>
    rw [vinit_of_error hcs]
    exact effect_raiseCmd s _ _
  | ok cs =>
    rw [vinit_of_ok hcs]
    exact .vinit (.of_eq rfl rfl rfl rfl rfl rfl rfl) cs hcs rfl

/-- `SYNTH` ticks every voice (R388). -/
theorem afterSynth_voices : s.afterSynth.voices = s.voices.map fun v => (voiceTick s.params s.snapshot v).val :=
  synthProcess_voices s.snapshot s

/-- `VOCODE` steps every band (R340). -/
theorem afterVocode_bands :
    s.afterVocode.bands = s.bands.map (bandAfter s.params.kEnv s.afterVocode.modS s.afterVocode.carS) :=
  vocoderProcess_bands s.snapshot s.modIn s.carIn s

theorem sameResults_writeSyn (r : Marked SynOut) : s.SameResults (s.writeSyn r) := ⟨rfl, rfl, rfl, rfl, rfl⟩

theorem sameResults_writeVoc (r : Marked VocOut) : s.SameResults (s.writeVoc r) := ⟨rfl, rfl, rfl, rfl, rfl⟩

theorem afterSynth_effect : Effect s s.afterSynth .synth :=
  .audio (sameResults_writeSyn s _) (.inr ⟨_, afterSynth_voices s⟩) (.inl rfl)

theorem afterVocode_effect : Effect s s.afterVocode .vocode :=
  .audio (sameResults_writeVoc s _) (.inl rfl) (.inr ⟨_, _, _, afterVocode_bands s⟩)

theorem afterSample_effect : Effect s s.afterSample .sample :=
  .audio ((sameResults_writeSyn s _).trans (sameResults_writeVoc s.afterSynth _)) (.inr ⟨_, afterSynth_voices s⟩)
    (.inr ⟨_, _, _, vocoderProcess_bands s.snapshot s.afterSynth.modIn s.afterSynth.synOut s.afterSynth⟩)

/-- What a next state of `exec` has written, command by command. -/
theorem exec_effect {i : Instr} {t : State} (hi : i ≠ .sreset) (h : exec i s = .next t) : Effect s t i := by
  have ends {u : State} (hu : exec i s = .next u) (heff : Effect s u i) : Effect s t i :=
    Host.Outcome.next.inj (hu.symm.trans h) ▸ heff
  cases i with
  | nop => exact ends rfl (.same (.refl s))
  | aluAdd | aluSub | aluMul | aluCompact | aluAbs => exact ends rfl (effect_writeY s (.inl (by decide)) _)
  | aluMulw | aluMacw | aluMsuw | aluAddw => exact ends rfl (effect_writeAcc s (by unfold IsWide; decide) _)
  | aluDiv =>
    by_cases hb : s.b = 0
    · exact ends (exec_aluDiv_of_eq_zero hb) (effect_raiseCmd s _ _)
    · exact ends (exec_aluDiv_of_ne_zero hb) (effect_writeY s (.inl (by decide)) _)
  | aluFromf =>
    cases hf : fxFromf s.f with
    | none => exact ends (exec_aluFromf_of_none hf) (effect_raiseCmd s _ _)
    | some y => exact ends (exec_aluFromf_of_some hf) (.narrow (.inl (by decide)) (.of_eq rfl rfl rfl rfl rfl rfl rfl))
  | aluShl k =>
    rcases Nat.lt_or_ge k.toNat 32 with hk | hk
    · exact ends (exec_shift_of_lt hk s).left (effect_writeY s (.inr ⟨k, .inl rfl⟩) _)
    · exact ends (exec_shift_of_ge hk s).left (effect_raiseCmd s _ _)
  | aluShr k =>
    rcases Nat.lt_or_ge k.toNat 32 with hk | hk
    · exact ends (exec_shift_of_lt hk s).right (.narrow (.inr ⟨k, .inr rfl⟩) (.of_eq rfl rfl rfl rfl rfl rfl rfl))
    · exact ends (exec_shift_of_ge hk s).right (effect_raiseCmd s _ _)
  | aluTof => exact ends rfl (.tof (.of_eq rfl rfl rfl rfl rfl rfl rfl))
  | press note => exact ends rfl (pressNote_effect s note)
  | release note =>
    rcases Nat.lt_or_ge note.toNat s.params.numNotes with hnote | hnote
    · exact ends (exec_release_of_lt hnote) (.release note (.of_eq rfl rfl rfl rfl rfl rfl rfl) rfl)
    · exact ends (execRelease_of_ge hnote) (effect_raiseCmd s _ _)
  | synth => exact ends (exec_synth s) (afterSynth_effect s)
  | vocode => exact ends (exec_vocode_afterVocode s) (afterVocode_effect s)
  | sample => exact ends (exec_sample s) (afterSample_effect s)
  | cstepMod band => exact ends rfl (cstep_effect s .modulator band)
  | cstepCar band => exact ends rfl (cstep_effect s .carrier band)
  | designMod band => exact ends rfl (designBand_effect s band (by simp) (by simp))
  | designCar band => exact ends rfl (designBand_effect s band (by simp) (by simp))
  | designBoth band => exact ends rfl (designBand_effect s band (by simp) (by simp))
  | vinit => exact ends rfl (vinit_effect s)
  | sreset => exact absurd rfl hi

end

/-! ## The coefficients -/

/-- The coefficients of a band (R46). -/
def Band.coefs (bd : Band) : Coef × Coef := (bd.coefMod, bd.coefCar)

theorem map_coefs_bandAfter (k m c : Word) (bands : List Band) :
    (bands.map (bandAfter k m c)).map Band.coefs = bands.map Band.coefs := List.map_map

theorem map_coefs_modify_setHist (bands : List Band) (n : Nat) (r : Role) (h : Hist) :
    (bands.modify n fun bd => bd.setHist r h).map Band.coefs = bands.map Band.coefs := by
  apply List.ext_getElem?
  intro i
  rw [List.getElem?_map, List.getElem?_map, List.getElem?_modify]
  cases bands[i]? with
  | none => rfl
  | some bd => cases r <;> by_cases hn : n = i <;> simp [hn, Band.setHist, Band.coefs]

/-- Settles O17: each effect leaves all but its own registers; a history or an envelope is no coefficient. -/
theorem resultRegistersHaveTheirWriters : Obligations.ResultRegistersHaveTheirWriters := by
  intro i s t hi hexec
  change _ ∧ _ ∧ _ ∧ _ ∧ _ ∧ (_ → _ → t.bands.map Band.coefs = s.bands.map Band.coefs)
  cases exec_effect s hi hexec with
  | same h =>
    exact ⟨fun _ _ _ => h.y, fun _ => h.acc, fun _ => h.f, fun _ => h.ageCnt, fun _ => h.cfgDone,
      fun _ _ => congrArg _ h.bands⟩
  | narrow hi h =>
    refine ⟨fun hother hshift _ => ?_, fun _ => h.acc, fun _ => h.f, fun _ => h.ageCnt, fun _ => h.cfgDone,
      fun _ _ => congrArg _ h.bands⟩
    rcases hi with hi | ⟨k, hi | hi⟩
    · exact absurd hi hother
    · exact absurd hi (hshift k).left
    · exact absurd hi (hshift k).right
  | wide hi h =>
    exact ⟨fun _ _ _ => h.y, fun hother => absurd hi hother, fun _ => h.f, fun _ => h.ageCnt, fun _ => h.cfgDone,
      fun _ _ => congrArg _ h.bands⟩
  | tof h =>
    exact ⟨fun _ _ _ => h.y, fun _ => h.acc, fun hother => absurd rfl hother, fun _ => h.ageCnt, fun _ => h.cfgDone,
      fun _ _ => congrArg _ h.bands⟩
  | press note h =>
    exact ⟨fun _ _ _ => h.y, fun _ => h.acc, fun _ => h.f, fun hother => absurd rfl (hother note), fun _ => h.cfgDone,
      fun _ _ => congrArg _ h.bands⟩
  | release note h =>
    exact ⟨fun _ _ _ => h.y, fun _ => h.acc, fun _ => h.f, fun _ => h.ageCnt, fun _ => h.cfgDone,
      fun _ _ => congrArg _ h.bands⟩
  | audio h hvoices hbands =>
    refine ⟨fun _ _ _ => h.y, fun _ => h.acc, fun _ => h.f, fun _ => h.ageCnt, fun _ => h.cfgDone, fun _ _ => ?_⟩
    rcases hbands with hbands | ⟨k, m, c, hbands⟩
    · rw [hbands]
    · rw [hbands, map_coefs_bandAfter]
  | cstep r band h hist hlength hband hbands =>
    refine ⟨fun _ _ hother => ?_, fun _ => h.acc, fun _ => h.f, fun _ => h.ageCnt, fun _ => h.cfgDone, fun _ _ => ?_⟩
    · cases r with
      | modulator => exact absurd rfl (hother band).left
      | carrier => exact absurd rfl (hother band).right
    · rw [hbands, map_coefs_modify_setHist]
  | design band hi h =>
    refine ⟨fun _ _ _ => h.y, fun _ => h.acc, fun _ => h.f, fun _ => h.ageCnt, fun _ => h.cfgDone,
      fun _ hother => ?_⟩
    obtain ⟨hmod, hcar, hboth⟩ := hother band
    simp [hmod, hcar, hboth] at hi
  | vinit h =>
    exact ⟨fun _ _ _ => h.y, fun _ => h.acc, fun _ => h.f, fun _ => h.ageCnt, fun hother => absurd rfl hother,
      fun hother => absurd rfl hother⟩

end Sys2Proof.Machine
end

section
/-! The invariant of the machine (R39, R40, R41, R46, R47, R49, R379): what reset establishes and every command, host
access and step keeps. It is taken apart into the control registers, the band store and the voice pool, and each part
is kept on its own. -/

namespace Sys2Proof.Machine

open Sys2Proof Sys2Proof.Spec

/-! ## The parts of the invariant -/

/-- The reserved bits are 0 (R39, R41) and the fault record agrees with `STATUS.FAULT` (R40). -/
structure State.ControlOk (s : State) : Prop where
  status : s.status.toNat < 4
  ctrl : s.ctrl.toNat < 2
  record : s.FaultRecord

theorem writeSlot_ctrl (s : State) (v : Word) (sl : Slot) :
    (writeSlot s v sl).ctrl = s.ctrl ∨ (writeSlot s v sl).ctrl = v &&& 1#32 := by
  cases sl with
  | reg r => cases r with
    | ctrl => exact .inr rfl
    | _ => exact .inl rfl
  | _ => exact .inl rfl

/-- The band store fits the parameters (R46, R47). -/
structure BandsOk (p : Params) (bands : List Band) : Prop where
  count : bands.length = p.bands
  shape : ∀ bd ∈ bands, bd.Shaped p.ns

/-- The voice pool fits the parameters (R49, R379). -/
structure VoicesOk (p : Params) (voices : List Voice) : Prop where
  count : voices.length = p.voices
  shape : ∀ v ∈ voices, v.Shaped p

theorem State.Inv.control {s : State} (h : s.Inv) : s.ControlOk := ⟨h.status, h.ctrl, h.record⟩

theorem State.Inv.bandsOk {s : State} (h : s.Inv) : BandsOk s.params s.bands := ⟨h.bandCount, h.bandShape⟩

theorem State.Inv.voicesOk {s : State} (h : s.Inv) : VoicesOk s.params s.voices := ⟨h.voiceCount, h.voiceShape⟩

theorem State.Inv.of_parts {s : State} (hp : s.params.Valid) (hcontrol : s.ControlOk) (hbands : BandsOk s.params s.bands)
    (hvoices : VoicesOk s.params s.voices) : s.Inv :=
  ⟨hp, hbands.count, hbands.shape, hvoices.count, hvoices.shape, hcontrol.status, hcontrol.ctrl, hcontrol.record⟩

/-! ## The control registers -/

/-- A state with the same registers of control. -/
theorem State.ControlOk.congr {s t : State} (h : s.ControlOk) (hstatus : t.status = s.status) (hctrl : t.ctrl = s.ctrl)
    (hcode : t.faultCode = s.faultCode) (hinfo : t.faultInfo = s.faultInfo) : t.ControlOk := by
  refine ⟨hstatus ▸ h.status, hctrl ▸ h.ctrl, ?_⟩
  have hrecord := h.record
  rwa [State.FaultRecord, ← faulted_of_status hstatus, ← hcode, ← hinfo] at hrecord

theorem statusSetFault_toNat_lt {st : Word} (h : st.toNat < 4) : (statusSetFault st).toNat < 4 := by
  rw [statusSetFault, BitVec.toNat_or]
  exact Nat.or_lt_two_pow (n := 2) h (by decide)

theorem statusSetCfgDone_toNat_lt {st : Word} (h : st.toNat < 4) : (statusSetCfgDone st).toNat < 4 := by
  rw [statusSetCfgDone, BitVec.toNat_or]
  exact Nat.or_lt_two_pow (n := 2) h (by decide)

section
variable {s : State} (h : s.ControlOk)
include h

theorem State.ControlOk.raise (c : FaultCode) (info : Word) : (s.raise c info).ControlOk := by
  rcases s.raise_cases c info with ⟨-, hkept⟩ | ⟨-, hrecord⟩
  · rwa [hkept]
  · rw [hrecord]
    exact ⟨statusSetFault_toNat_lt h.status, h.ctrl, .inr ⟨(statusSetFault_bits s.status).left, c, rfl⟩⟩

theorem State.ControlOk.keeps {t : State} (hkeeps : s.Keeps t) : t.ControlOk := by
  refine ⟨?status, hkeeps.ctrl ▸ h.ctrl, ?record⟩
  case status =>
    rcases hkeeps.status with hsame | hdone
    · exact hsame ▸ h.status
    · exact hdone ▸ statusSetCfgDone_toNat_lt h.status
  case record =>
    have hrecord := h.record
    rwa [State.FaultRecord, ← hkeeps.faulted, ← hkeeps.faultCode, ← hkeeps.faultInfo] at hrecord

/-- Of the control registers a host writes `CTRL` only, and of `CTRL` bit 0 (R41). -/
theorem State.ControlOk.writeSlot (v : Word) (sl : Slot) : (writeSlot s v sl).ControlOk := by
  refine ⟨(writeSlot_status s v sl).symm ▸ h.status, ?ctrl, ?record⟩
  case ctrl =>
    rcases writeSlot_ctrl s v sl with hsame | hbit
    · exact hsame ▸ h.ctrl
    · rw [hbit, BitVec.toNat_and]
      exact Nat.and_lt_two_pow (n := 1) _ (by decide)
  case record =>
    rw [State.FaultRecord, writeSlot_faulted, writeSlot_faultCode, writeSlot_faultInfo]
    exact h.record

end

theorem resetWith_control (p : Params) : (State.resetWith p).ControlOk :=
  ⟨Nat.zero_lt_succ _, Nat.zero_lt_succ _, .inl ⟨resetWith_faulted p, rfl, rfl⟩⟩

/-! ## The band store -/

/-- A list with one element changed holds elements of the list and the changed one. -/
theorem mem_modify {α : Type} {l : List α} {n : Nat} {g : α → α} {a : α} (h : a ∈ l.modify n g) :
    a ∈ l ∨ ∃ b, l[n]? = some b ∧ a = g b := by
  obtain ⟨i, hi⟩ := List.getElem?_of_mem h
  rw [List.getElem?_modify] at hi
  obtain ⟨b, hb, rfl⟩ := Option.map_eq_some_iff.1 hi
  by_cases hn : n = i
  · subst hn
    exact .inr ⟨b, hb, if_pos rfl⟩
  · rw [if_neg hn]
    exact .inl (List.mem_of_getElem? hb)

/-- The store with a band changed into one of the same shape. -/
theorem BandsOk.modify {p : Params} {bands : List Band} (h : BandsOk p bands) (n : Nat) {g : Band → Band}
    (hg : ∀ bd, bd.Shaped p.ns → (g bd).Shaped p.ns) : BandsOk p (bands.modify n g) := by
  refine ⟨(List.length_modify _ _ _).trans h.count, fun bd hbd => ?_⟩
  rcases mem_modify hbd with hold | ⟨old, hold, rfl⟩
  · exact h.shape bd hold
  · exact hg old (h.shape old (List.mem_of_getElem? hold))

/-- The store with every band changed into one of the same shape. -/
theorem BandsOk.map {p : Params} {bands : List Band} (h : BandsOk p bands) {g : Band → Band}
    (hg : ∀ bd, bd.Shaped p.ns → (g bd).Shaped p.ns) : BandsOk p (bands.map g) := by
  refine ⟨(List.length_map _).trans h.count, fun bd hbd => ?_⟩
  obtain ⟨old, hold, rfl⟩ := List.mem_map.1 hbd
  exact hg old (h.shape old hold)

theorem Coef.zero_length (ns : Nat) : (Coef.zero ns).stages.length = ns := List.length_replicate

theorem Hist.zero_length (ns : Nat) : (Hist.zero ns).yh.length = ns := List.length_replicate

theorem Band.zero_shaped (ns : Nat) : (Band.zero ns).Shaped ns :=
  ⟨Coef.zero_length ns, Coef.zero_length ns, Hist.zero_length ns, Hist.zero_length ns⟩

/-- A band that starts from rest (R276). -/
theorem restBand_shaped {ns : Nat} {c : Coef} (hc : c.stages.length = ns) : (restBand ns c).Shaped ns :=
  ⟨hc, hc, Hist.zero_length ns, Hist.zero_length ns⟩

section
variable {ns : Nat} {bd : Band} (h : bd.Shaped ns)
include h

/-- One sample keeps the number of stages (R332). -/
theorem Band.Shaped.after (k m c : Word) : (bandAfter k m c bd).Shaped ns :=
  ⟨h.coefMod, h.coefCar, (cascadeStep_length _ _ _).trans h.histMod, (cascadeStep_length _ _ _).trans h.histCar⟩

theorem Band.Shaped.setHist (r : Role) {hist : Hist} (hlength : hist.yh.length = ns) : (bd.setHist r hist).Shaped ns := by
  cases r with
  | modulator => exact ⟨h.coefMod, h.coefCar, hlength, h.histCar⟩
  | carrier => exact ⟨h.coefMod, h.coefCar, h.histMod, hlength⟩

theorem Band.Shaped.setCoef (r : Role) {c : Coef} (hlength : c.stages.length = ns) : (bd.setCoef r c).Shaped ns := by
  cases r with
  | modulator => exact ⟨hlength, h.coefCar, h.histMod, h.histCar⟩
  | carrier => exact ⟨h.coefMod, hlength, h.histMod, h.histCar⟩

/-- What `DESIGN` stores, for each role mask (R272). -/
theorem Band.Shaped.store {store : Coef → Band → Band} (hstore : store ∈ [storeMod, storeCar, storeBoth]) {c : Coef}
    (hlength : c.stages.length = ns) : (store c bd).Shaped ns := by
  simp only [List.mem_cons, List.not_mem_nil, or_false] at hstore
  rcases hstore with rfl | rfl | rfl
  · exact h.setCoef .modulator hlength
  · exact h.setCoef .carrier hlength
  · exact (h.setCoef .modulator hlength).setCoef .carrier hlength

end

theorem Coef.setA1_length (n : Nat) (v : Word) (c : Coef) : (c.setA1 n v).stages.length = c.stages.length :=
  List.length_modify _ _ _

theorem Coef.setA2_length (n : Nat) (v : Word) (c : Coef) : (c.setA2 n v).stages.length = c.stages.length :=
  List.length_modify _ _ _

section
variable {p : Params} {s : State} (h : BandsOk p s.bands)
include h

/-- A host write stores a coefficient word at most (R90). -/
theorem BandsOk.writeSlot (v : Word) (sl : Slot) : BandsOk p (writeSlot s v sl).bands := by
  cases sl with
  | reg r =>
    rw [Machine.writeSlot, writeReg_bands]
    exact h
  | scale r b => exact h.modify b fun bd hbd => hbd.setCoef r (hbd.coef_length r)
  | a1 r b n => exact h.modify b fun bd hbd => hbd.setCoef r ((Coef.setA1_length _ _ _).trans (hbd.coef_length r))
  | a2 r b n => exact h.modify b fun bd hbd => hbd.setCoef r ((Coef.setA2_length _ _ _).trans (hbd.coef_length r))
  | env | xin | yh | voice | unmapped => exact h

end

theorem resetWith_bandsOk (p : Params) : BandsOk p (State.resetWith p).bands :=
  ⟨resetWith_bands_length p, fun _ hbd => eq_zero_of_mem_resetWith_bands hbd ▸ Band.zero_shaped p.ns⟩

/-- A whole `VINIT` designs a record of `NS` stages for every band of the plan (R250, R276). -/
theorem bandsOk_of_designAll {L : Libm} {s : State} (hp : s.params.Valid) {cs : List Coef}
    (h : designAll (planDesign L s) 0 s.params.bands = .ok cs) : BandsOk s.params (cs.map (restBand s.params.ns)) := by
  rcases designAll_cases (planDesign L s) 0 s.params.bands with ⟨cs', hok, hlength, hget⟩ | ⟨k, -, e, herror, -⟩
  · obtain rfl := Except.ok.inj (hok.symm.trans h)
    refine ⟨(List.length_map _).trans hlength, fun bd hbd => ?_⟩
    obtain ⟨c, hc, rfl⟩ := List.mem_map.1 hbd
    obtain ⟨k, hk⟩ := List.getElem?_of_mem hc
    exact restBand_shaped (design_length hp.ns_even (hget k c hk))
  · cases herror.symm.trans h

/-- Every command keeps the shape of the bands. -/
theorem exec_bandsOk {i : Instr} {s t : State} (hinv : s.Inv) (hexec : exec i s = .next t) :
    BandsOk s.params t.bands := by
  by_cases hi : i = .sreset
  · subst hi
    obtain rfl := Host.Outcome.next.inj ((exec_sreset s).symm.trans hexec)
    exact resetWith_bandsOk s.params
  · have hbands := hinv.bandsOk
    cases exec_effect s hi hexec with
    | same h | narrow _ h | wide _ h | tof h | press _ h | release _ h => exact h.bands ▸ hbands
    | audio _ _ hafter =>
      rcases hafter with hsame | ⟨k, m, c, hafter⟩
      · exact hsame ▸ hbands
      · exact hafter ▸ hbands.map fun bd hbd => hbd.after k m c
    | cstep r band _ hist hlength hband hafter =>
      rw [hafter]
      exact hbands.modify _ fun bd hbd => hbd.setHist r (hlength.trans ((hinv.band_shaped hband).hist_length r))
    | design band _ _ c store hstore hc hafter =>
      rw [hafter]
      exact hbands.modify _ fun bd hbd => hbd.store hstore (design_length hinv.params.ns_even hc)
    | vinit _ cs hcs hafter => exact hafter ▸ bandsOk_of_designAll hinv.params hcs

/-! ## The voice pool -/

/-- A voice at reset holds no note, at phase 0 (R601). -/
theorem Voice.reset_shaped (p : Params) (v : Nat) : (Voice.reset v).Shaped p :=
  ⟨Nat.two_pow_pos _, .inl ⟨rfl, rfl⟩⟩

section
variable {p : Params} {v : Voice} (h : v.Shaped p)
include h

/-- A press gives the voice a note of the table, at its increment (R360). -/
theorem Voice.Shaped.press {note : BitVec 16} (hnote : note.toNat < p.numNotes) (age : BitVec 32) :
    (v.press note (p.noteInc.getD note.toNat 0) age).Shaped p :=
  ⟨h.phase, .inr ⟨hnote, rfl⟩⟩

theorem Voice.Shaped.releaseNote (note : BitVec 16) : (v.releaseNote note).Shaped p := by
  unfold Voice.releaseNote
  split
  · exact ⟨h.phase, h.note⟩
  · exact h

/-- A sample leaves the note and its increment, and a phase modulo `ONE` (R379, R388). -/
theorem Voice.Shaped.tick (q : Params) (sn : Snap) : (voiceTick q sn v).val.Shaped p := by
  obtain ⟨hnote, -, hinc, -, -, -, hphase⟩ := voiceTick_fields q sn v
  refine ⟨hphase ▸ modOne_lt _, ?_⟩
  rw [hnote, hinc]
  exact h.note

end

theorem VoicesOk.map {p : Params} {voices : List Voice} (h : VoicesOk p voices) {g : Voice → Voice}
    (hg : ∀ v, v.Shaped p → (g v).Shaped p) : VoicesOk p (voices.map g) := by
  refine ⟨(List.length_map _).trans h.count, fun v hv => ?_⟩
  obtain ⟨old, hold, rfl⟩ := List.mem_map.1 hv
  exact hg old (h.shape old hold)

theorem VoicesOk.modify {p : Params} {voices : List Voice} (h : VoicesOk p voices) (n : Nat) {g : Voice → Voice}
    (hg : ∀ v, v.Shaped p → (g v).Shaped p) : VoicesOk p (voices.modify n g) := by
  refine ⟨(List.length_modify _ _ _).trans h.count, fun v hv => ?_⟩
  rcases mem_modify hv with hold | ⟨old, hold, rfl⟩
  · exact h.shape v hold
  · exact hg old (h.shape old (List.mem_of_getElem? hold))

theorem resetWith_voicesOk (p : Params) : VoicesOk p (State.resetWith p).voices := by
  refine ⟨resetWith_voices_length p, fun v hv => ?_⟩
  obtain ⟨k, hk⟩ := List.getElem?_of_mem hv
  obtain ⟨-, rfl⟩ := resetWith_voice_iff.1 hk
  exact Voice.reset_shaped p k

/-- Every command keeps the shape of the voices. -/
theorem exec_voicesOk {i : Instr} {s t : State} (hinv : s.Inv) (hexec : exec i s = .next t) :
    VoicesOk s.params t.voices := by
  by_cases hi : i = .sreset
  · subst hi
    obtain rfl := Host.Outcome.next.inj ((exec_sreset s).symm.trans hexec)
    exact resetWith_voicesOk s.params
  · have hvoices := hinv.voicesOk
    cases exec_effect s hi hexec with
    | same h | narrow _ h | wide _ h | tof h | cstep _ _ h | design _ _ h | vinit h => exact h.voices ▸ hvoices
    | press note _ hnote hafter => exact hafter ▸ hvoices.modify _ fun v hv => hv.press hnote _
    | release note _ hafter => exact hafter ▸ hvoices.map fun v hv => hv.releaseNote note
    | audio _ hafter =>
      rcases hafter with hsame | ⟨sn, hafter⟩
      · exact hsame ▸ hvoices
      · exact hafter ▸ hvoices.map fun v hv => hv.tick s.params sn

/-! ## Reset, commands and steps -/

theorem resetWith_inv {p : Params} (hp : p.Valid) : (State.resetWith p).Inv :=
  .of_parts hp (resetWith_control p) (resetWith_bandsOk p) (resetWith_voicesOk p)

/-- Settles O13: the reset state, part by part, and the parameters of the machine are legal. -/
theorem resetMeetsTheInvariant : Obligations.ResetMeetsTheInvariant :=
  ⟨resetWith_inv Config.params_valid, fun _ => resetWith_inv⟩

section
variable {s t : State} (h : s.Inv)
include h

/-- The invariant says nothing of the host's side and of `CMD`. -/
theorem State.Inv.withHost (acts : List HostAction) (obs : List Word) (w : Word) :
    State.Inv { s with pending := acts, observed := obs, cmd := w } :=
  .of_parts h.params (h.control.congr rfl rfl rfl rfl) h.bandsOk h.voicesOk

theorem State.Inv.raise (c : FaultCode) (info : Word) : (s.raise c info).Inv := by
  have hunits := s.sameUnits_raise c info
  refine .of_parts ?_ (h.control.raise c info) ?_ ?_
  · exact (raise_params s c info).symm ▸ h.params
  · rw [raise_params, hunits.bands]
    exact h.bandsOk
  · rw [raise_params, hunits.voices]
    exact h.voicesOk

theorem State.Inv.doReset : s.doReset.Inv :=
  .of_parts h.params ((resetWith_control s.params).congr rfl rfl rfl rfl) (resetWith_bandsOk s.params)
    (resetWith_voicesOk s.params)

theorem State.Inv.writeSlot (v : Word) (sl : Slot) : (writeSlot s v sl).Inv := by
  refine .of_parts ?_ (h.control.writeSlot v sl) ?_ ?_
  · exact (writeSlot_params s v sl).symm ▸ h.params
  · rw [writeSlot_params]
    exact h.bandsOk.writeSlot v sl
  · rw [writeSlot_params, writeSlot_voices]
    exact h.voicesOk

/-- Every command keeps the invariant. -/
theorem exec_inv {i : Instr} (hexec : exec i s = .next t) : t.Inv := by
  have hbands := exec_bandsOk h hexec
  have hvoices := exec_voicesOk h hexec
  rcases exec_cases i s with ⟨c, hraise⟩ | ⟨-, hreset⟩ | ⟨u, hnext, hkeeps⟩
  · obtain rfl := Host.Outcome.next.inj (hraise.symm.trans hexec)
    exact h.raise c s.cmd
  · obtain rfl := Host.Outcome.next.inj (hreset.symm.trans hexec)
    exact h.doReset
  · obtain rfl := Host.Outcome.next.inj (hnext.symm.trans hexec)
    rw [← hkeeps.params] at hbands hvoices
    exact .of_parts (hkeeps.params.symm ▸ h.params) (h.control.keeps hkeeps) hbands hvoices

theorem issueCommand_inv {w : Word} (hissue : issueCommand w s = .next t) : t.Inv := by
  have hcmd := h.withHost s.pending s.observed w
  rcases issueCommand_cases w s with ⟨-, -, e⟩ | ⟨-, -, e⟩ | ⟨-, -, e⟩ | ⟨-, i, -, e⟩
  · exact Host.Outcome.next.inj (e.symm.trans hissue) ▸ hcmd
  · exact Host.Outcome.next.inj (e.symm.trans hissue) ▸ hcmd.doReset
  · exact Host.Outcome.next.inj (e.symm.trans hissue) ▸ hcmd.raise _ _
  · exact exec_inv hcmd (e.symm.trans hissue)

theorem performAction_inv {act : HostAction} (hact : performAction act s = .next t) : t.Inv := by
  have hobs (word : Word) := h.withHost s.pending (s.observed ++ [word]) s.cmd
  rcases performAction_cases act s with ⟨w, -, e⟩ | ⟨addr, v, -, -, -, e⟩ | ⟨addr, v, -, -, -, e⟩ |
    ⟨addr, -, -, e⟩ | ⟨addr, -, -, e⟩
  · exact issueCommand_inv h (e.symm.trans hact)
  · exact Host.Outcome.next.inj (e.symm.trans hact) ▸ h.writeSlot v _
  · exact Host.Outcome.next.inj (e.symm.trans hact) ▸ h.raise _ _
  · exact Host.Outcome.next.inj (e.symm.trans hact) ▸ hobs _
  · exact Host.Outcome.next.inj (e.symm.trans hact) ▸ (hobs _).raise _ _

theorem step_inv (hstep : step s = .next t) : t.Inv := by
  rcases step_cases s with ⟨-, e⟩ | ⟨act, rest, -, e⟩
  · exact Host.Outcome.next.inj (e.symm.trans hstep) ▸ h
  · exact performAction_inv (h.withHost rest s.observed s.cmd) (e.symm.trans hstep)

end

/-- Settles O14: from the command through its issue and the host action to the step. -/
theorem stepKeepsTheInvariant : Obligations.StepKeepsTheInvariant := fun _ _ => step_inv

end Sys2Proof.Machine
end

section
/-! The fixed registers and the coefficient region of the register space (R81, R90): where each word stands. -/

namespace Sys2Proof.Machine

open Sys2Proof Sys2Proof.Spec

/-! ## The fixed registers (R81) -/

/-- The last fixed register stands at `0x33`. -/
theorem regAt_of_ge {n : Nat} (h : 0x34 ≤ n) : regAt n = none := by
  unfold regAt
  split
  case h_34 => rfl
  all_goals omega

/-- Below `0x1000` an address names a fixed register or nothing. -/
theorem slotOf_fixed (p : Params) {n : Nat} (h : n < 0x1000) :
    slotOf p (BitVec.ofNat 16 n) = (regAt n).elim .unmapped .reg := by
  have haddr : (BitVec.ofNat 16 n).toNat = n := by
    rw [BitVec.toNat_ofNat]
    exact Nat.mod_eq_of_lt (by omega)
  simp only [slotOf, haddr, if_pos h]
  cases regAt n <;> rfl

/-- The writable ones of the listed addresses. -/
theorem regAt_writable_iff : ∀ n < 0x34, (regAt n).elim false Reg.writable = true ↔
    n ∈ [0x00, 0x04, 0x08, 0x09, 0x0B, 0x0C, 0x0D, 0x0E, 0x0F, 0x10, 0x18, 0x19, 0x20, 0x21, 0x22, 0x23, 0x24, 0x25,
      0x26, 0x27, 0x28, 0x29] := by decide

/-- The holes between the listed addresses. -/
theorem regAt_eq_none_iff : ∀ n < 0x34, regAt n = none ↔
    n ∈ [0x06, 0x07, 0x1C, 0x1D, 0x1E, 0x1F, 0x2A, 0x2B, 0x2C, 0x2D, 0x2E, 0x2F] ∨ (0x11 ≤ n ∧ n ≤ 0x17) := by decide

theorem writable_elim (o : Option Reg) :
    (o.elim Slot.unmapped Slot.reg).writable = o.elim false Reg.writable := by
  cases o <;> rfl

theorem elim_eq_unmapped_iff (o : Option Reg) : o.elim Slot.unmapped Slot.reg = .unmapped ↔ o = none := by
  cases o <;> simp

/-- A mask of the low bits of a register (R39 to R41). -/
theorem and_lowMask_toNat (x : Word) (k : Nat) (hk : k < 32) :
    (x &&& BitVec.ofNat 32 (2 ^ k - 1)).toNat = x.toNat % 2 ^ k := by
  have hmask : (2 ^ k - 1) % 2 ^ 32 = 2 ^ k - 1 :=
    Nat.mod_eq_of_lt ((Nat.sub_lt (Nat.two_pow_pos k) Nat.one_pos).trans (Nat.pow_lt_pow_right (by decide) hk))
  rw [BitVec.toNat_and, BitVec.toNat_ofNat, hmask, Nat.and_two_pow_sub_one_eq_mod]

/-- Settles O21: each register at its address, and the table of R81 read entry by entry up to `0x33`. -/
theorem fixedRegisterMap : Obligations.FixedRegisterMap := by
  intro s
  refine ⟨rfl, and_lowMask_toNat s.status 2 (by decide), and_lowMask_toNat s.faultCode 8 (by decide), rfl,
    and_lowMask_toNat s.ctrl 1 (by decide), rfl, rfl, rfl, rfl, hiWord_append_loWord s.acc, hiWord_append_loWord s.f,
    hiWord_append_loWord s.g, hiWord_append_loWord s.fTop, rfl, rfl, rfl, rfl, rfl, rfl, rfl, rfl, rfl, rfl, rfl, rfl,
    rfl, rfl, rfl, rfl, fun n hn => ?map⟩
  case map =>
    rw [slotOf_fixed s.params hn, writable_elim, elim_eq_unmapped_iff]
    rcases Nat.lt_or_ge n 0x34 with hlisted | hbeyond
    · refine ⟨regAt_writable_iff n hlisted, (regAt_eq_none_iff n hlisted).trans ?_⟩
      rw [or_iff_left (Nat.not_le.2 hlisted)]
    · rw [regAt_of_ge hbeyond]
      refine ⟨iff_of_false Bool.false_ne_true fun hmem => ?_, iff_of_true rfl (.inr (.inr hbeyond))⟩
      simp only [List.mem_cons, List.not_mem_nil, or_false] at hmem
      omega

/-! ## The coefficient region (R90) -/

theorem slotOf_coefRegion (p : Params) {n : Nat} (hlow : 0x1000 ≤ n) (hhigh : n < 0x4000) :
    slotOf p (BitVec.ofNat 16 n) = coefSlot p (n - 0x1000) := by
  have haddr : (BitVec.ofNat 16 n).toNat = n := by
    rw [BitVec.toNat_ofNat]
    exact Nat.mod_eq_of_lt (by omega)
  simp only [slotOf, haddr, if_neg (show ¬n < 0x1000 by omega), if_pos hhigh]

/-- The 64 words of one block of the coefficient region. -/
theorem coefSlot_block (p : Params) (r : Role) {band off : Nat} (hb : band < p.bands) (hoff : off < 64) :
    coefSlot p ((r.index * p.bands + band) * 64 + off) =
      if off = 0 then .scale r band
      else if p.ns ≤ (off - 1) / 2 then .unmapped
      else if off % 2 = 1 then .a1 r band ((off - 1) / 2)
      else .a2 r band ((off - 1) / 2) := by
  have hlt := index_mul_add_lt r hb
  have hdiv : ((r.index * p.bands + band) * 64 + off) / 64 = r.index * p.bands + band := by omega
  have hmod : ((r.index * p.bands + band) * 64 + off) % 64 = off := by omega
  simp only [coefSlot, hdiv, hmod, roleBand_index r hb, if_neg (Nat.not_le.2 hlt)]

theorem coefSlot_beyond_bands (p : Params) {off : Nat} (h : 2 * p.bands * 64 ≤ off) : coefSlot p off = .unmapped := by
  unfold coefSlot
  exact if_pos (by omega)

section
variable {p : Params} (hp : p.Valid) (r : Role) {band : Nat} (hb : band < p.bands)
include hp hb

/-- What the words of a block name, by their addresses. -/
theorem slotOf_coefBlock {off : Nat} (hoff : off < 64) :
    slotOf p (BitVec.ofNat 16 (0x1000 + (r.index * p.bands + band) * 64 + off)) =
      if off = 0 then .scale r band
      else if p.ns ≤ (off - 1) / 2 then .unmapped
      else if off % 2 = 1 then .a1 r band ((off - 1) / 2)
      else .a2 r band ((off - 1) / 2) := by
  have hlt := index_mul_add_lt r hb
  have hbands := hp.bands_high
  rw [slotOf_coefRegion p (by omega) (by omega), Nat.add_assoc, Nat.add_sub_cancel_left, coefSlot_block p r hb hoff]

theorem slotOf_scale : slotOf p (BitVec.ofNat 16 (0x1000 + (r.index * p.bands + band) * 64 + 0)) = .scale r band := by
  rw [slotOf_coefBlock hp r hb (by decide), if_pos rfl]

theorem slotOf_a1 {stage : Nat} (hs : stage < p.ns) :
    slotOf p (BitVec.ofNat 16 (0x1000 + (r.index * p.bands + band) * 64 + (1 + 2 * stage))) = .a1 r band stage := by
  have hns := hp.ns_high
  have hdiv : (1 + 2 * stage - 1) / 2 = stage := by omega
  rw [slotOf_coefBlock hp r hb (by omega), if_neg (by omega), hdiv, if_neg (by omega), if_pos (by omega)]

theorem slotOf_a2 {stage : Nat} (hs : stage < p.ns) :
    slotOf p (BitVec.ofNat 16 (0x1000 + (r.index * p.bands + band) * 64 + (2 + 2 * stage))) = .a2 r band stage := by
  have hns := hp.ns_high
  have hdiv : (2 + 2 * stage - 1) / 2 = stage := by omega
  rw [slotOf_coefBlock hp r hb (by omega), if_neg (by omega), hdiv, if_neg (by omega), if_neg (by omega)]

theorem slotOf_coefBlock_writable {off : Nat} (hoff : off ≤ 2 * p.ns) :
    (slotOf p (BitVec.ofNat 16 (0x1000 + (r.index * p.bands + band) * 64 + off))).writable = true := by
  have hns := hp.ns_high
  rw [slotOf_coefBlock hp r hb (by omega)]
  split_ifs with hzero hbeyond
  · rfl
  · omega
  · rfl
  · rfl

theorem slotOf_coefBlock_beyond_stages {off : Nat} (hlow : 2 * p.ns + 1 ≤ off) (hhigh : off ≤ 63) :
    slotOf p (BitVec.ofNat 16 (0x1000 + (r.index * p.bands + band) * 64 + off)) = .unmapped := by
  rw [slotOf_coefBlock hp r hb (by omega), if_neg (by omega), if_pos (by omega)]

end

/-- Settles O22: the words of a block by their offsets, and the region beyond the `2 · BANDS` blocks. -/
theorem coefficientLayout : Obligations.CoefficientLayout := by
  intro s r band hinv hb
  have hp := hinv.params
  refine ⟨peek_of_slotOf (slotOf_scale hp r hb), fun stage hs => ⟨peek_of_slotOf (slotOf_a1 hp r hb hs),
    peek_of_slotOf (slotOf_a2 hp r hb hs)⟩, fun off hoff => slotOf_coefBlock_writable hp r hb hoff,
    fun off hlow hhigh => slotOf_coefBlock_beyond_stages hp r hb hlow hhigh, fun n hlow hhigh => ?beyond⟩
  case beyond => rw [slotOf_coefRegion s.params (by omega) hhigh, coefSlot_beyond_bands s.params (by omega)]

end Sys2Proof.Machine
end

section
/-! A host write is read back, and no other address changes (R85, R87, R90, R95). Three parts: a writable slot stands at
one address only, a register keeps its word when another is written, and a coefficient word keeps its place in the
store. -/

namespace Sys2Proof.Machine

open Sys2Proof Sys2Proof.Spec

/-! ## A writable slot has one address -/

/-- A fixed register stands at one address (R81). -/
theorem regAt_injective : ∀ m < 0x34, ∀ n < 0x34, regAt m = regAt n → regAt m = none ∨ m = n := by decide

theorem regAt_eq_of_some {m n : Nat} {r : Reg} (hm : regAt m = some r) (hn : regAt n = some r) : m = n := by
  have hlisted {k : Nat} (hk : regAt k = some r) : k < 0x34 := by
    by_contra hge
    rw [regAt_of_ge (Nat.not_lt.1 hge)] at hk
    cases hk
  rcases regAt_injective m (hlisted hm) n (hlisted hn) (hm.trans hn.symm) with hnone | heq
  · cases hm.symm.trans hnone
  · exact heq

/-- The offset of a coefficient word in its region (R90). -/
def coefOffset (p : Params) : Slot → Nat
  | .scale r b => (r.index * p.bands + b) * 64
  | .a1 r b stage => (r.index * p.bands + b) * 64 + (1 + 2 * stage)
  | .a2 r b stage => (r.index * p.bands + b) * 64 + (2 + 2 * stage)
  | _ => 0

/-- The parameters have a band, and a stage, of the slot's number. -/
def CoefSlotExists (p : Params) : Slot → Prop
  | .scale _ b => b < p.bands
  | .a1 _ b stage => b < p.bands ∧ stage < p.ns
  | .a2 _ b stage => b < p.bands ∧ stage < p.ns
  | _ => False

/-- `roleBand` takes a block's number apart into role and band (R90). -/
theorem roleBand_spec {bands idx : Nat} (h : idx < 2 * bands) :
    (roleBand bands idx).1.index * bands + (roleBand bands idx).2 = idx ∧ (roleBand bands idx).2 < bands := by
  unfold roleBand
  split
  · simp only [Role.index]
    omega
  · simp only [Role.index]
    omega

/-- A mapped word of the coefficient region is that of an existing band and stage, and stands at its own offset. -/
theorem coefSlot_spec (p : Params) (off : Nat) :
    coefSlot p off = .unmapped ∨
      (CoefSlotExists p (coefSlot p off) ∧ coefOffset p (coefSlot p off) = off) := by
  unfold coefSlot
  dsimp only
  split_ifs with hbands hzero hstages hodd
  · exact .inl rfl
  · obtain ⟨hindex, hlt⟩ := roleBand_spec (Nat.not_le.1 hbands)
    refine .inr ⟨hlt, ?_⟩
    rw [coefOffset, hindex]
    omega
  · exact .inl rfl
  · obtain ⟨hindex, hlt⟩ := roleBand_spec (Nat.not_le.1 hbands)
    refine .inr ⟨⟨hlt, Nat.not_le.1 hstages⟩, ?_⟩
    rw [coefOffset, hindex]
    omega
  · obtain ⟨hindex, hlt⟩ := roleBand_spec (Nat.not_le.1 hbands)
    refine .inr ⟨⟨hlt, Nat.not_le.1 hstages⟩, ?_⟩
    rw [coefOffset, hindex]
    omega

/-- The two kinds of writable slots, with their addresses (R81, R90). -/
theorem slotOf_writable_cases {p : Params} (hp : p.Valid) {addr : Addr} (h : (slotOf p addr).writable = true) :
    (∃ r, regAt addr.toNat = some r ∧ slotOf p addr = .reg r ∧ r.writable = true) ∨
    (CoefSlotExists p (slotOf p addr) ∧ addr.toNat = 0x1000 + coefOffset p (slotOf p addr)) := by
  have haddr : BitVec.ofNat 16 addr.toNat = addr := by rw [BitVec.ofNat_toNat, BitVec.setWidth_eq]
  have hlt := addr.isLt
  rcases (by omega : addr.toNat < 0x1000 ∨ (0x1000 ≤ addr.toNat ∧ addr.toNat < 0x4000) ∨ 0x4000 ≤ addr.toNat) with
    hfixed | ⟨hlow, hhigh⟩ | hviews
  · have hslot := slotOf_fixed p hfixed
    rw [haddr] at hslot
    rw [hslot] at h
    cases hreg : regAt addr.toNat with
    | none =>
      rw [hreg] at h
      cases h
    | some r =>
      rw [hreg] at hslot h
      exact .inl ⟨r, rfl, hslot, h⟩
  · have hslot := slotOf_coefRegion p hlow hhigh
    rw [haddr] at hslot
    rcases coefSlot_spec p (addr.toNat - 0x1000) with hunmapped | ⟨hexists, hoffset⟩
    · rw [hslot, hunmapped] at h
      cases h
    · refine .inr ⟨hslot ▸ hexists, ?_⟩
      rw [hslot, hoffset]
      omega
  · have hlocked := slotOf_views_not_writable hp hviews hlt
    rw [haddr, h] at hlocked
    cases hlocked

theorem slotOf_injective {p : Params} (hp : p.Valid) {a b : Addr} (h : (slotOf p a).writable = true)
    (heq : slotOf p b = slotOf p a) : b = a := by
  apply BitVec.eq_of_toNat_eq
  rcases slotOf_writable_cases hp h with ⟨r, hreg, hslot, -⟩ | ⟨hexists, hoffset⟩
  · rcases slotOf_writable_cases hp (heq ▸ h) with ⟨r', hreg', hslot', -⟩ | ⟨hexists', -⟩
    · obtain rfl : r' = r := Slot.reg.inj (hslot'.symm.trans (heq.trans hslot))
      exact regAt_eq_of_some hreg' hreg
    · rw [heq, hslot] at hexists'
      exact hexists'.elim
  · rcases slotOf_writable_cases hp (heq ▸ h) with ⟨r', -, hslot', -⟩ | ⟨-, hoffset'⟩
    · rw [← heq, hslot'] at hexists
      exact hexists.elim
    · rw [hoffset, hoffset', heq]

/-! ## The registers -/

/-- A written register is read back; `CTRL` keeps bit 0 (R41, R85). -/
theorem readReg_writeReg_same (s : State) (v : Word) {r : Reg} (h : r.writable = true) (hcmd : r ≠ .cmd) :
    readReg (writeReg s v r) r = if r = .ctrl then v &&& 1#32 else v := by
  cases r with
  | cmd => exact absurd rfl hcmd
  | ctrl => simp [readReg, writeReg, BitVec.and_assoc]
  | accLo | fLo | gLo | fTopLo => exact loWord_withLo _ _
  | accHi | fHi | gHi | fTopHi => exact hiWord_withHi _ _
  | status | faultCode | faultInfo | ageCnt | y | synOut | vocOut | modS | carS | gm | go => cases h
  | _ => rfl

/-- A write of one register leaves every other; the two words of a 64-bit register are two (R34, R87). -/
theorem readReg_writeReg_ne (s : State) (v : Word) {r r' : Reg} (h : r' ≠ r) :
    readReg (writeReg s v r) r' = readReg s r' := by
  cases r <;> cases r' <;>
    first
    | exact absurd rfl h
    | rfl
    | simp only [readReg, writeReg, hiWord_withLo, loWord_withHi]

/-! ## The coefficient words -/

theorem getD_modify {α : Type} (l : List α) (n m : Nat) (f : α → α) (d : α) :
    (l.modify n f).getD m d = if n = m ∧ m < l.length then f (l.getD m d) else l.getD m d := by
  rw [List.getD_eq_getElem?_getD, List.getD_eq_getElem?_getD, List.getElem?_modify]
  by_cases hm : m < l.length
  · by_cases hn : n = m <;> simp [hn, hm]
  · simp [hm]

theorem band_modifyBand (s : State) (n m : Nat) (g : Band → Band) :
    (s.modifyBand n g).band m = if n = m ∧ m < s.bands.length then g (s.band m) else s.band m :=
  getD_modify s.bands n m g _

section
variable (v : Word) (c : Coef)

theorem Coef.setA1_stage (n m : Nat) : (c.setA1 n v).stage m =
    if n = m ∧ m < c.stages.length then { c.stage m with a1 := v } else c.stage m := getD_modify c.stages n m _ _

theorem Coef.setA2_stage (n m : Nat) : (c.setA2 n v).stage m =
    if n = m ∧ m < c.stages.length then { c.stage m with a2 := v } else c.stage m := getD_modify c.stages n m _ _

end

/-- The band of a slot that is a word of a band. -/
def Slot.band? : Slot → Option Nat
  | .scale _ b | .a1 _ b _ | .a2 _ b _ | .env b | .xin _ b _ | .yh _ b _ _ => some b
  | .reg _ | .voice _ _ | .unmapped => none

/-- The role of a slot that is a coefficient word. -/
def Slot.coefRole? : Slot → Option Role
  | .scale r _ | .a1 r _ _ | .a2 r _ _ => some r
  | .reg _ | .env _ | .xin _ _ _ | .yh _ _ _ _ | .voice _ _ | .unmapped => none

/-- The coefficient that a slot shows, of the record of its band and role; 0 for a slot that is no coefficient. -/
def Coef.word (c : Coef) : Slot → Word
  | .scale _ _ => c.scale
  | .a1 _ _ n => (c.stage n).a1
  | .a2 _ _ n => (c.stage n).a2
  | _ => 0

/-- Stores the coefficient that a slot names. -/
def Coef.put (v : Word) (c : Coef) : Slot → Coef
  | .scale _ _ => c.setScale v
  | .a1 _ _ n => c.setA1 n v
  | .a2 _ _ n => c.setA2 n v
  | _ => c

/-- The word of a band that a slot shows; 0 for a slot that is no word of a band. -/
def Band.word (bd : Band) : Slot → Word
  | .env _ => bd.env
  | .xin r _ i => (bd.hist r).xin.at i
  | .yh r _ n i => ((bd.hist r).yh.getD n Win.zero).at i
  | sl => (sl.coefRole?.elim ⟨0, []⟩ bd.coef).word sl

theorem Coef.word_put_same (v : Word) {c : Coef} {sl : Slot} {p : Params} (hsl : CoefSlotExists p sl)
    (hc : c.stages.length = p.ns) : (c.put v sl).word sl = v := by
  cases sl with
  | scale => rfl
  | a1 r b n => rw [Coef.put, Coef.word, Coef.setA1_stage, if_pos ⟨rfl, hc ▸ hsl.right⟩]
  | a2 r b n => rw [Coef.put, Coef.word, Coef.setA2_stage, if_pos ⟨rfl, hc ▸ hsl.right⟩]
  | reg | env | xin | yh | voice | unmapped => exact hsl.elim

/-- A coefficient is kept when another one of its record is stored. -/
theorem Coef.word_put_ne (v : Word) (c : Coef) {sl sl' : Slot} (hne : sl' ≠ sl) (hband : sl'.band? = sl.band?)
    (hrole : sl'.coefRole? = sl.coefRole?) : (c.put v sl).word sl' = c.word sl' := by
  cases sl with
  | scale r b =>
    cases sl' with
    | scale r' b' => cases hband; cases hrole; exact absurd rfl hne
    | _ => rfl
  | a1 r b n =>
    cases sl' with
    | a1 r' b' n' =>
      have hn : n ≠ n' := fun h => by cases hband; cases hrole; exact hne (h ▸ rfl)
      rw [Coef.put, Coef.word, Coef.word, Coef.setA1_stage, if_neg fun h => hn h.left]
    | a2 r' b' n' =>
      rw [Coef.put, Coef.word, Coef.word, Coef.setA1_stage]
      split <;> rfl
    | _ => rfl
  | a2 r b n =>
    cases sl' with
    | a2 r' b' n' =>
      have hn : n ≠ n' := fun h => by cases hband; cases hrole; exact hne (h ▸ rfl)
      rw [Coef.put, Coef.word, Coef.word, Coef.setA2_stage, if_neg fun h => hn h.left]
    | a1 r' b' n' =>
      rw [Coef.put, Coef.word, Coef.word, Coef.setA2_stage]
      split <;> rfl
    | _ => rfl
  | reg | env | xin | yh | voice | unmapped => rfl

section
variable (bd : Band) (c : Coef) {r : Role}

theorem Band.setCoef_coef_same : (bd.setCoef r c).coef r = c := by cases r <;> rfl

theorem Band.setCoef_coef_ne {r' : Role} (h : r' ≠ r) : (bd.setCoef r c).coef r' = bd.coef r' := by
  cases r with
  | modulator => cases r' with
    | modulator => exact absurd rfl h
    | carrier => rfl
  | carrier => cases r' with
    | modulator => rfl
    | carrier => exact absurd rfl h

theorem Band.setCoef_hist (r' : Role) : (bd.setCoef r c).hist r' = bd.hist r' := by cases r <;> cases r' <;> rfl

/-- A coefficient of the role is shown by the new record. -/
theorem Band.word_of_role {sl : Slot} (h : sl.coefRole? = some r) : bd.word sl = (bd.coef r).word sl := by
  cases sl with
  | scale | a1 | a2 => cases h; rfl
  | reg | env | xin | yh | voice | unmapped => cases h

/-- Every other word of the band stays. -/
theorem Band.word_setCoef_of_role_ne {sl : Slot} (h : sl.coefRole? ≠ some r) :
    (bd.setCoef r c).word sl = bd.word sl := by
  cases sl with
  | scale r' | a1 r' | a2 r' =>
    have hr : r' ≠ r := fun heq => h (congrArg some heq)
    simp only [Band.word, Slot.coefRole?, Option.elim_some, Band.setCoef_coef_ne bd c hr]
  | env => cases r <;> rfl
  | xin | yh => simp only [Band.word, Band.setCoef_hist]
  | reg | voice | unmapped => rfl

end

/-! ## The register space after a write -/

theorem readSlot_of_band {s : State} {sl : Slot} {b : Nat} (h : sl.band? = some b) :
    readSlot s sl = (s.band b).word sl := by
  cases sl with
  | scale | a1 | a2 | env | xin | yh => cases h; rfl
  | reg | voice | unmapped => cases h

theorem readSlot_modifyBand_of_none {s : State} {sl : Slot} (h : sl.band? = none) (n : Nat) (g : Band → Band) :
    readSlot (s.modifyBand n g) sl = readSlot s sl := by
  cases sl with
  | reg r => cases r <;> rfl
  | voice | unmapped => rfl
  | scale | a1 | a2 | env | xin | yh => cases h

/-- What the write of a coefficient word does (R90). -/
theorem writeSlot_coef {s : State} {v : Word} {sl : Slot} (h : CoefSlotExists s.params sl) :
    ∃ b r, sl.band? = some b ∧ sl.coefRole? = some r ∧ b < s.params.bands ∧
      writeSlot s v sl = s.modifyBand b fun bd => bd.setCoef r ((bd.coef r).put v sl) := by
  cases sl with
  | scale r b => exact ⟨b, r, rfl, rfl, h, rfl⟩
  | a1 r b n => exact ⟨b, r, rfl, rfl, h.left, rfl⟩
  | a2 r b n => exact ⟨b, r, rfl, rfl, h.left, rfl⟩
  | reg | env | xin | yh | voice | unmapped => exact h.elim

/-- A written coefficient is read back. -/
theorem readSlot_writeSlot_coef_same {s : State} (hinv : s.Inv) (v : Word) {sl : Slot}
    (h : CoefSlotExists s.params sl) : readSlot (writeSlot s v sl) sl = v := by
  obtain ⟨b, r, hband, hrole, hb, hwrite⟩ := writeSlot_coef (v := v) h
  rw [hwrite, readSlot_of_band hband, band_modifyBand, if_pos ⟨rfl, hinv.bandCount ▸ hb⟩, Band.word_of_role _ hrole,
    Band.setCoef_coef_same, Coef.word_put_same v h ((hinv.band_shaped hb).coef_length r)]

/-- No other slot changes with it. -/
theorem readSlot_writeSlot_coef_ne {s : State} (v : Word) {sl sl' : Slot} (h : CoefSlotExists s.params sl)
    (hne : sl' ≠ sl) : readSlot (writeSlot s v sl) sl' = readSlot s sl' := by
  obtain ⟨b, r, hband, hrole, -, hwrite⟩ := writeSlot_coef (v := v) h
  rw [hwrite]
  cases hband' : sl'.band? with
  | none => exact readSlot_modifyBand_of_none hband' b _
  | some b' =>
    rw [readSlot_of_band hband', readSlot_of_band hband', band_modifyBand]
    split
    case isFalse => rfl
    case isTrue hin =>
      obtain ⟨rfl, -⟩ := hin
      by_cases hrole' : sl'.coefRole? = some r
      · rw [Band.word_of_role _ hrole', Band.setCoef_coef_same, Band.word_of_role _ hrole',
          Coef.word_put_ne v _ hne (hband'.trans hband.symm) (hrole'.trans hrole.symm)]
      · exact Band.word_setCoef_of_role_ne _ _ hrole'

/-- A register write changes no other slot. -/
theorem readSlot_writeReg_ne (s : State) (v : Word) {r : Reg} {sl : Slot} (h : sl ≠ .reg r) :
    readSlot (writeReg s v r) sl = readSlot s sl := by
  cases hband : sl.band? with
  | some b => rw [readSlot_of_band hband, readSlot_of_band hband, State.band, State.band, writeReg_bands, writeReg_params]
  | none =>
    cases sl with
    | reg r' => exact readReg_writeReg_ne s v fun heq => h (heq ▸ rfl)
    | voice k fld => rw [readSlot, readSlot, writeReg_voices]
    | unmapped => rfl
    | scale | a1 | a2 | env | xin | yh => cases hband

/-! ## The host write -/

theorem performAction_write {s : State} {addr : Addr} {v : Word} (h : (slotOf s.params addr).writable = true)
    (hcmd : addr ≠ 0x0000#16) : performAction (.wr addr v) s = .next (writeSlot s v (slotOf s.params addr)) := by
  have hslot : slotOf s.params addr ≠ .reg .cmd := fun heq => hcmd ((slotOf_eq_cmd _ _).1 heq)
  rw [performAction, hostWrite, if_neg hslot, if_pos h]

/-- `CTRL` is the one register that keeps only a bit, and it stands at `0x0004` (R41, R81). -/
theorem slotOf_eq_ctrl {p : Params} (hp : p.Valid) {addr : Addr} : slotOf p addr = .reg .ctrl ↔ addr = 0x0004#16 :=
  ⟨fun h => slotOf_injective (a := 0x0004#16) hp rfl h, fun h => h ▸ rfl⟩

/-- What a host write to a writable slot other than `CMD` leaves to be read. -/
theorem peek_writeSlot {s : State} (hinv : s.Inv) (v : Word) {addr : Addr}
    (h : (slotOf s.params addr).writable = true) (hcmd : addr ≠ 0x0000#16) :
    peek (writeSlot s v (slotOf s.params addr)) addr = (if addr = 0x0004#16 then v &&& 1#32 else v) ∧
      ∀ other, other ≠ addr → peek (writeSlot s v (slotOf s.params addr)) other = peek s other := by
  have hother {other : Addr} (hne : other ≠ addr) : slotOf s.params other ≠ slotOf s.params addr :=
    fun heq => hne (slotOf_injective hinv.params h heq)
  simp only [peek, writeSlot_params]
  rcases slotOf_writable_cases hinv.params h with ⟨r, -, hslot, hr⟩ | ⟨hexists, -⟩
  · have hnotcmd : r ≠ .cmd := fun heq => hcmd ((slotOf_eq_cmd s.params addr).1 (heq ▸ hslot))
    have hctrl : r = .ctrl ↔ addr = 0x0004#16 := by
      rw [← slotOf_eq_ctrl hinv.params, hslot, Slot.reg.injEq]
    refine ⟨?_, fun other hne => ?_⟩
    · rw [hslot, readSlot, writeSlot, readReg_writeReg_same s v hr hnotcmd]
      simp only [hctrl]
    · have hne' := hother hne
      rw [hslot] at hne' ⊢
      exact readSlot_writeReg_ne s v hne'
  · have hnotctrl : addr ≠ 0x0004#16 := fun heq => by
      rw [(slotOf_eq_ctrl hinv.params).2 heq] at hexists
      exact hexists
    rw [if_neg hnotctrl]
    exact ⟨readSlot_writeSlot_coef_same hinv v hexists,
      fun other hne => readSlot_writeSlot_coef_ne v hexists (hother hne)⟩

/-- Settles O20: the store of the action's slot, in the state with the action taken. -/
theorem writeThenRead : Obligations.WriteThenRead := by
  intro s addr v rest hinv hpending hwritable hcmd
  have hrest : State.Inv { s with pending := rest } := hinv.withHost rest s.observed s.cmd
  obtain ⟨hread, hothers⟩ := peek_writeSlot hrest v hwritable hcmd
  exact ⟨_, (step_of_action hpending).trans (performAction_write hwritable hcmd), hread, hothers,
    writeSlot_pending _ _ _, writeSlot_observed _ _ _, writeSlot_viol _ _ _, writeSlot_params _ _ _⟩

end Sys2Proof.Machine
end

section
/-! The fixed-point functions on zeros, two sequences of ALU commands (R217, R218), and `VINIT` before `F_TOP` is set
(R44, R275). -/

namespace Sys2Proof.Machine

open Sys2Proof Sys2Proof.Spec

/-! ## Words that the fixed-point functions keep -/

/-- The value of a word is the word, without a mark. -/
theorem narrow_toInt (a : Word) : narrow a.toInt = Marked.pure a := by
  obtain ⟨hlow, hhigh⟩ := word_toInt_range a
  obtain ⟨hval, hmarks⟩ := narrow_of_fits hlow hhigh
  exact Marked.ext_val (BitVec.toInt_inj.1 hval) hmarks

theorem widen_toInt (acc : Wide) : widen acc.toInt = Marked.pure acc := by
  obtain ⟨hlow, hhigh⟩ := wide_toInt_range acc
  obtain ⟨hval, hmarks⟩ := widen_of_fits hlow hhigh
  exact Marked.ext_val (BitVec.toInt_inj.1 hval) hmarks

theorem word_zero_toInt : (0 : Word).toInt = 0 := BitVec.toInt_zero

theorem wide_zero_toInt : (0 : Wide).toInt = 0 := BitVec.toInt_zero

theorem narrow_zero : narrow 0 = Marked.pure 0 := narrow_toInt 0

theorem widen_zero : widen 0 = Marked.pure 0 := widen_toInt 0

theorem fxMul_zero (a : Word) : fxMul a 0 = Marked.pure 0 := by
  rw [fxMul, word_zero_toInt, mul_zero, asr, Int.zero_ediv, narrow_zero]

theorem zero_fxMul (a : Word) : fxMul 0 a = Marked.pure 0 := by
  rw [fxMul, word_zero_toInt, zero_mul, asr, Int.zero_ediv, narrow_zero]

theorem fxAdd_zero (a : Word) : fxAdd a 0 = Marked.pure a := by
  rw [fxAdd, word_zero_toInt, add_zero, narrow_toInt]

theorem fxAbs_zero : fxAbs 0 = Marked.pure 0 := narrow_zero

theorem fxCompact_zero : fxCompact 0 = Marked.pure 0 := narrow_zero

theorem fxMacw_zero (acc : Wide) (a : Word) : fxMacw acc a 0 = Marked.pure acc := by
  rw [fxMacw, word_zero_toInt, mul_zero, add_zero, widen_toInt]

theorem zero_fxMacw (acc : Wide) (a : Word) : fxMacw acc 0 a = Marked.pure acc := by
  rw [fxMacw, word_zero_toInt, zero_mul, add_zero, widen_toInt]

theorem fxMsuw_zero (acc : Wide) (a : Word) : fxMsuw acc a 0 = Marked.pure acc := by
  rw [fxMsuw, word_zero_toInt, mul_zero, sub_zero, widen_toInt]

theorem fxLerp_self (s k : Word) : fxLerp s s k = Marked.pure s := by
  have hsub : fxSub s s = Marked.pure 0 := by rw [fxSub, sub_self, narrow_zero]
  rw [fxLerp, hsub, Marked.pure_bind, zero_fxMul, Marked.pure_bind, fxAdd_zero]

/-! ## `COMPACT` at product scale -/

/-- The product is exact, so compacting it narrows the same floor as `MUL` (R205, R212, R218). -/
theorem fxCompact_fxMulw (a b : Word) : fxCompact (fxMulw a b) = fxMul a b := by
  rw [fxCompact, fxMulw_toInt, fxMul]

/-- A word brought to product scale on a zero accumulator fits it (R217). -/
theorem fxAddw_zero (a : Word) : (fxAddw 0 a).val.toInt = a.toInt * 2 ^ 29 ∧ (fxAddw 0 a).marks = Marks.empty := by
  obtain ⟨hlow, hhigh⟩ := word_toInt_range a
  rw [fxAddw, wide_zero_toInt, zero_add, shl, pointPos]
  exact widen_of_fits (by omega) (by omega)

/-- Compacting a word at product scale gives it back without a mark (R218). -/
theorem fxCompact_of_scaled {acc : Wide} {a : Word} (h : acc.toInt = a.toInt * 2 ^ 29) :
    fxCompact acc = Marked.pure a := by
  have hfloor : asr acc.toInt pointPos = a.toInt := by rw [h, asr, pointPos, Int.mul_ediv_cancel _ (by norm_num)]
  rw [fxCompact, hfloor, narrow_toInt]

/-- Settles O32: `MULW` marks nothing and is exact; `ADDW` on a zero accumulator neither, at product scale. -/
theorem compactUndoesProductScale : Obligations.CompactUndoesProductScale := by
  refine fun s => ⟨⟨_, _, _, rfl, rfl, rfl, ?y, ?viol⟩, fun hacc => ⟨_, rfl, ?compact, ?unmarked⟩⟩
  case y => exact congrArg Marked.val (fxCompact_fxMulw s.a s.b)
  case viol =>
    rw [State.writeY_viol, State.writeY_viol, State.writeAcc_viol, State.writeAcc_acc, Marked.pure_marks,
      Marks.union_empty, Marked.pure_val, fxCompact_fxMulw]
  case compact =>
    rw [hacc]
    obtain ⟨hval, -⟩ := fxAddw_zero s.a
    have h : execAluCompact (s.writeAcc (fxAddw 0 s.a)) = .next ((s.writeAcc (fxAddw 0 s.a)).writeY (.pure s.a)) :=
      congrArg (fun r => Host.Outcome.next (State.writeY _ r)) (fxCompact_of_scaled hval)
    exact h.trans (congrArg _ (State.writeY_pure _ _))
  case unmarked =>
    rw [State.writeAcc_viol, hacc, (fxAddw_zero s.a).right, Marks.union_empty]

/-! ## `VINIT` with `F_TOP` at zero -/

/-- A zero or a NaN, which is what the band plan of a zero `F_TOP` consists of. -/
def Vanishes (x : F64) : Prop := f64IsNaN x = true ∨ f64Mag x = 0

theorem vanishes_of_eq_f64NaN {x : F64} (h : x = f64NaN) : Vanishes x := .inl (by rw [h]; decide)

theorem vanishes_of_eq_zero {x : F64} {neg : Bool} (h : x = f64Pack neg 0) : Vanishes x :=
  .inr (by rw [h, f64Mag_pack neg (by decide)])

theorem f64AbsUnits_eq_zero {x : F64} (h : f64Mag x = 0) : f64AbsUnits x = 0 := by
  simp only [f64AbsUnits, h, Nat.zero_div, if_pos, Nat.zero_mod]

/-- No unit at all rounds to a zero. -/
theorem f64Round_zero (neg : Bool) (den : Nat) : f64Round neg 0 den = f64Pack neg 0 := by
  have hround (d : Nat) : roundNearestEven 0 d = 0 := by
    have hdown : 2 * (0 % d) < d ∨ (2 * (0 % d) = d ∧ 0 / d % 2 = 0) := by
      rw [Nat.zero_mod, Nat.zero_div]
      omega
    rw [roundNearestEven, if_pos hdown, Nat.zero_div]
  have hshift : (0 / den).log2 - 52 = 0 := by rw [Nat.zero_div]; rfl
  simp only [f64Round, hround, hshift, Nat.zero_mul, Nat.zero_add, Nat.zero_min]

/-- A zero is finite. -/
theorem not_special_of_mag_zero {x : F64} (h : f64Mag x = 0) : f64IsNaN x = false ∧ f64IsInf x = false := by
  constructor <;> simp [f64IsNaN, f64IsInf, h, f64InfMag]

theorem f64Div_vanishes {x : F64} (h : f64Mag x = 0) (y : F64) : Vanishes (f64Div x y) := by
  obtain ⟨hnan, hinf⟩ := not_special_of_mag_zero h
  simp only [f64Div, hnan, hinf, Bool.false_or, Bool.false_eq_true, if_false, h, if_true, f64AbsUnits_eq_zero h,
    Nat.zero_mul, f64Round_zero]
  split_ifs
  · exact vanishes_of_eq_f64NaN rfl
  · exact vanishes_of_eq_zero rfl
  · exact vanishes_of_eq_f64NaN rfl
  · exact vanishes_of_eq_zero rfl

theorem f64Mul_vanishes (x : F64) {y : F64} (h : Vanishes y) : Vanishes (f64Mul x y) := by
  rcases h with hnan | hzero
  · refine vanishes_of_eq_f64NaN ?_
    simp only [f64Mul, hnan, Bool.or_true, if_true]
  · obtain ⟨hnan, hinf⟩ := not_special_of_mag_zero hzero
    simp only [f64Mul, hnan, hinf, Bool.or_false, hzero, or_true, if_true, f64AbsUnits_eq_zero hzero, Nat.mul_zero,
      f64Round_zero]
    split_ifs
    · exact vanishes_of_eq_f64NaN rfl
    · exact vanishes_of_eq_f64NaN rfl
    · exact vanishes_of_eq_zero rfl

/-- Such a centre is not in `(0, 0.5)` (R251). -/
theorem fcInRange_of_vanishes {fc : F64} (h : Vanishes fc) : fcInRange fc = false := by
  have hlt : f64Lt f64Zero fc = false := by
    rcases h with hnan | hzero
    · simp [f64Lt, hnan]
    · have hkey : f64Key fc = 0 := by simp [f64Key, hzero]
      have hkey0 : f64Key f64Zero = 0 := by decide
      simp [f64Lt, hkey, hkey0]
  rw [fcInRange, hlt, Bool.false_and]

/-- With `F_TOP` at zero no band of the plan has a legal centre (R275). -/
theorem planDesign_of_fTop_zero (L : Libm) {s : State} (h : s.fTop = 0) (b : Nat) :
    planDesign L s b = .error .cfgFcRange := by
  have hmag : f64Mag s.fTop = 0 := by rw [h]; decide
  have hcentre := f64Mul_vanishes (f64OfNat (b + 1)) (f64Div_vanishes hmag (f64OfNat (s.params.bands + 1)))
  rcases design_cases L _ (f64Div s.fTop (f64OfNat (s.params.bands + 1))) s.params.ns with
    ⟨-, herror⟩ | ⟨hin, -⟩ | ⟨hin, -⟩
  · exact herror
  · cases hin.symm.trans (fcInRange_of_vanishes hcentre)
  · cases hin.symm.trans (fcInRange_of_vanishes hcentre)

/-- Settles O41: the plan has a first band, and its centre is a zero or a NaN. -/
theorem vinitFaultsUntilTopIsSet : Obligations.VinitFaultsUntilTopIsSet := by
  intro s hp hlive htop
  have hall : designAll (planDesign Config.libm s) 0 s.params.bands = .error .cfgFcRange :=
    designAll_of_error hp.bands_low (fun _ hlt => absurd hlt (Nat.not_lt_zero _)) (planDesign_of_fTop_zero _ htop 0)
  have hexec : exec .vinit s = .next (vinit Config.libm s) := rfl
  rw [hexec, vinit_of_error hall, State.raiseCmd_of_live hlive, FaultCode.toWord]

end Sys2Proof.Machine
end

section
/-! Silence in the cascade and in the vocoder (R306, R336), and the output of a vocoder sample without a mark (R332,
R333, R339). -/

namespace Sys2Proof.Machine

open Sys2Proof Sys2Proof.Spec

/-! ## A cascade at rest -/

/-- The taps of stage 0 with no scale (R303). -/
theorem scaledTaps_of_scale_zero (stage : Nat) (x : Win) : scaledTaps stage x 0 = Marked.pure 0 := by
  have hmulw (a : Word) : (fxMulw 0 a).toInt = 0 := by rw [fxMulw_toInt, word_zero_toInt, zero_mul]
  rw [scaledTaps, hmulw, hmulw, mul_zero, add_zero, widen_zero, Marked.pure_bind, zero_fxMacw]

theorem scaledTaps_of_window_zero (stage : Nat) (scale : Word) : scaledTaps stage Win.zero scale = Marked.pure 0 := by
  have hmulw (a : Word) : (fxMulw a 0).toInt = 0 := by rw [fxMulw_toInt, word_zero_toInt, mul_zero]
  simp only [scaledTaps, Win.zero, hmulw, mul_zero, add_zero, widen_zero, Marked.pure_bind, fxMacw_zero]

theorem plainTaps_of_window_zero (stage : Nat) : plainTaps stage Win.zero = Marked.pure 0 := by
  have haddw : fxAddw 0 0 = Marked.pure 0 := widen_zero
  have hmiddle : (0 : Wide).toInt + stageSign stage * shl (0 : Word).toInt (pointPos + 1) = 0 := by
    rw [wide_zero_toInt, word_zero_toInt, shl, zero_mul, mul_zero, add_zero]
  simp only [plainTaps, Win.zero, haddw, Marked.pure_bind, hmiddle, widen_zero]

/-- A stage with zero taps and zero outputs stays at 0, whatever its coefficients. -/
theorem stageOut_of_taps_zero {stage : Nat} {x : Win} {scale : Word}
    (h : (if stage = 0 then scaledTaps stage x scale else plainTaps stage x) = Marked.pure 0) (c : StageCoef) :
    stageOut stage x 0 0 scale c = Marked.pure 0 := by
  rw [stageOut, h, Marked.pure_bind, fxMsuw_zero, Marked.pure_bind, fxMsuw_zero, Marked.pure_bind, fxCompact_zero]

theorem stageOut_at_rest (stage : Nat) (scale : Word) (c : StageCoef) :
    stageOut stage Win.zero 0 0 scale c = Marked.pure 0 := by
  refine stageOut_of_taps_zero ?_ c
  rw [scaledTaps_of_window_zero, plainTaps_of_window_zero, ite_self]

/-- Stages at rest that are fed with zeros stay at rest. -/
theorem runStages_at_rest (scale : Word) (stage : Nat) (cs : List StageCoef) {ys : List Win}
    (hys : ∀ y ∈ ys, y = Win.zero) : runStages scale stage Win.zero cs ys = Marked.pure ys := by
  induction cs generalizing stage ys with
  | nil => cases ys <;> rfl
  | cons c cs ih =>
    cases ys with
    | nil => rfl
    | cons y ys =>
      obtain ⟨rfl, hrest⟩ := List.forall_mem_cons.1 hys
      have hstage : stageOut stage Win.zero Win.zero.w0 Win.zero.w1 scale c = Marked.pure 0 := stageOut_at_rest stage scale c
      rw [runStages, hstage, Marked.pure_bind]
      exact congrArg (Marked.map _) (ih (stage + 1) hrest)

/-- Only the first stage sees the input. -/
theorem runStages_of_first_zero {scale : Word} {x : Win} {cs : List StageCoef} {ys : List Win}
    (hx : scaledTaps 0 x scale = Marked.pure 0) (hys : ∀ y ∈ ys, y = Win.zero) :
    runStages scale 0 x cs ys = Marked.pure ys := by
  cases cs with
  | nil => cases ys <;> rfl
  | cons c cs =>
    cases ys with
    | nil => rfl
    | cons y ys =>
      obtain ⟨rfl, hrest⟩ := List.forall_mem_cons.1 hys
      have hstage : stageOut 0 x Win.zero.w0 Win.zero.w1 scale c = Marked.pure 0 :=
        stageOut_of_taps_zero ((if_pos rfl).trans hx) c
      rw [runStages, hstage, Marked.pure_bind]
      exact congrArg (Marked.map _) (runStages_at_rest scale 1 cs hrest)

/-- A cascade at rest that takes nothing from its input window outputs 0 and records the input. -/
theorem cascadeStep_at_rest {c : Coef} {h : Hist} {u : Word}
    (hx : scaledTaps 0 ⟨u, h.xin.w0, h.xin.w1⟩ c.scale = Marked.pure 0) (hyh : ∀ w ∈ h.yh, w = Win.zero) :
    cascadeStep c h u = Marked.pure (⟨⟨u, h.xin.w0, h.xin.w1⟩, h.yh⟩, 0) := by
  have hlast : h.yh.getLastD Win.zero = Win.zero := by
    rw [List.getLastD_eq_getLast?]
    cases hl : h.yh.getLast? with
    | none => rfl
    | some w => exact hyh w (List.mem_of_getLast? hl)
  rw [cascadeStep, runStages_of_first_zero hx hyh, Marked.map]
  simp only [Marked.pure_val, hlast]
  rfl

/-- Settles O37: with `SCALE` zero the first stage takes nothing from the input, and the others see its zeros. -/
theorem zeroCoefficientsOutputZero : Obligations.ZeroCoefficientsOutputZero := by
  intro c h u hscale _ hyh
  exact cascadeStep_at_rest (by rw [hscale, scaledTaps_of_scale_zero]) hyh

/-! ## A modulator at rest (R336) -/

/-- The modulator side of a band is at rest. -/
structure Band.ModulatorAtRest (bd : Band) : Prop where
  env : bd.env = 0
  xin : bd.histMod.xin = Win.zero
  yh : ∀ w ∈ bd.histMod.yh, w = Win.zero

theorem modulatorSilent_iff (s : State) :
    ModulatorSilent s ↔ s.modIn = 0 ∧ s.modS = 0 ∧ ∀ bd ∈ s.bands, bd.ModulatorAtRest :=
  and_congr_right' (and_congr_right' (forall₂_congr fun _ _ =>
    ⟨fun ⟨henv, hxin, hyh⟩ => ⟨henv, hxin, hyh⟩, fun h => ⟨h.env, h.xin, h.yh⟩⟩))

/-- One silent sample leaves the modulator side of a band at rest, whatever the carrier does. -/
theorem Band.ModulatorAtRest.after {bd : Band} (h : bd.ModulatorAtRest) (k c : Word) :
    (bandAfter k 0 c bd).ModulatorAtRest := by
  have hwin : (⟨0, bd.histMod.xin.w0, bd.histMod.xin.w1⟩ : Win) = Win.zero := by rw [h.xin]; rfl
  have hcascade : cascadeStep bd.coefMod bd.histMod 0 = Marked.pure (⟨Win.zero, bd.histMod.yh⟩, 0) := by
    rw [cascadeStep_at_rest (by rw [hwin, scaledTaps_of_window_zero]) h.yh, hwin]
  refine ⟨?env, ?xin, ?yh⟩
  case env => rw [bandAfter, hcascade, h.env, Marked.pure_val, fxAbs_zero, Marked.pure_val, fxLerp_self, Marked.pure_val]
  case xin => rw [bandAfter, hcascade, Marked.pure_val]
  case yh =>
    rw [bandAfter, hcascade, Marked.pure_val]
    exact h.yh

/-- Bands with zero envelopes add nothing to the sum (R332). -/
theorem runBands_of_env_zero {k m c : Word} (acc : Wide) {bds : List Band}
    (h : ∀ bd ∈ bds, (bandAfter k m c bd).env = 0) : (runBands k m c acc bds).val.1 = acc := by
  induction bds generalizing acc with
  | nil => rfl
  | cons bd bds ih =>
    obtain ⟨henv, hrest⟩ := List.forall_mem_cons.1 h
    simp only [runBands, Marked.bind_val, Marked.map_val]
    rw [ih _ hrest, bandStep_acc, henv, fxMacw_zero, Marked.pure_val]

/-- Auto-gain scales, so it keeps a zero output (R338). -/
theorem autoGain_out_zero (enabled : Bool) (k m : Word) {g : Gain} (h : g.out = 0) :
    (autoGain enabled k m g).val.out = 0 := by
  cases enabled with
  | false => rw [autoGain_off, Marked.pure_val, h]
  | true =>
    cases hratio : fxDiv (autoGain true k m g).val.gm (autoGain true k m g).val.go with
    | none => rw [autoGain_on_out_of_none k m g hratio, h]
    | some ratio => rw [autoGain_on_out_of_some k m g hratio, h, zero_fxMul, Marked.pure_val]

/-- Settles O45: the smoothing state, every band and the band sum stay at 0, and the gains only scale. -/
theorem silentModulatorStaysSilent : Obligations.SilentModulatorStaysSilent := by
  intro s hsilent
  obtain ⟨hmodIn, hmodS, hbands⟩ := (modulatorSilent_iff s).1 hsilent
  have hlerp : (fxLerp s.modS s.modIn s.params.kPre).val = 0 := by rw [hmodS, hmodIn, fxLerp_self, Marked.pure_val]
  have hsum : compactedBandSum s.modIn s.carIn s = 0 := by
    rw [compactedBandSum, hlerp, runBands_of_env_zero 0 fun bd hbd => ((hbands bd hbd).after _ _).env, fxCompact_zero,
      Marked.pure_val]
  refine ⟨s.afterVocode, exec_vocode_afterVocode s, ?out, (modulatorSilent_iff _).2 ⟨hmodIn, hlerp, ?bands⟩⟩
  case out =>
    obtain ⟨-, -, hout⟩ := vocoderProcess_gain s.snapshot s.modIn s.carIn s
    have hzero := autoGain_out_zero s.snapshot.autoGainEn s.params.kAg s.modIn
      (g := ⟨compactedBandSum s.modIn s.carIn s, s.gm, s.go⟩) hsum
    rw [hzero, zero_fxMul] at hout
    exact hout
  case bands =>
    have hmodS' : s.afterVocode.modS = 0 := hlerp
    rw [afterVocode_bands, hmodS']
    intro bd hbd
    obtain ⟨old, hold, rfl⟩ := List.mem_map.1 hbd
    exact (hbands old hold).after _ _

/-! ## The output without a mark -/

/-- The parts of a sample without a mark and without auto-gain that make the output are without a mark. -/
theorem vocoderProcess_clean {sn : Snap} {m c : Word} {s : State} (hoff : sn.autoGainEn = false)
    (h : (vocoderProcess sn m c s).marks = Marks.empty) :
    let bank := runBands s.params.kEnv (fxLerp s.modS m s.params.kPre).val (fxLerp s.carS c s.params.kPre).val 0 s.bands
    bank.marks = Marks.empty ∧ (fxCompact bank.val.1).marks = Marks.empty ∧
      (fxMul (fxCompact bank.val.1).val sn.outputGain).marks = Marks.empty := by
  simp only [vocoderProcess, hoff, autoGain_off, Marked.pure_bind, Marked.bind_marks, Marked.map_marks,
    Marks.union_eq_empty] at h
  obtain ⟨-, -, hbank, hcompact, hgain⟩ := h
  exact ⟨hbank, hcompact, hgain⟩

/-- The compacted band sum without a mark is the floor of the exact one (R332, R333). -/
theorem isFloor_compactedBandSum {m c : Word} {s : State}
    (hbank : (runBands s.params.kEnv (fxLerp s.modS m s.params.kPre).val (fxLerp s.carS c s.params.kPre).val 0
      s.bands).marks = Marks.empty)
    (hcompact : (fxCompact (runBands s.params.kEnv (fxLerp s.modS m s.params.kPre).val
      (fxLerp s.carS c s.params.kPre).val 0 s.bands).val.1).marks = Marks.empty) (sn : Snap) :
    IsFloor (compactedBandSum m c s).toInt
      (((vocoderProcess sn m c s).val.bands.map fun bd => (lastOutput bd.histCar).toInt * bd.env.toInt).sum)
      (2 ^ 29) := by
  have hsum := runBands_clean hbank
  rw [wide_zero_toInt, zero_add] at hsum
  rw [compactedBandSum, fxCompact, (narrow_clean hcompact).left, hsum, vocoderProcess_bands]
  exact isFloor_asr _ pointPos

/-- Settles O43: the band sum and its compaction are exact, and the gain is one product more. -/
theorem vocodeOutputIsTheGainedBandSum : Obligations.VocodeOutputIsTheGainedBandSum := by
  refine fun s hoff => ⟨s.afterVocode, exec_vocode_afterVocode s, fun hviol => ?_⟩
  rw [State.afterVocode, State.writeVoc_viol, Marks.union_eq_empty] at hviol
  obtain ⟨-, hclean⟩ := hviol
  obtain ⟨hbank, hcompact, hgain⟩ := vocoderProcess_clean (sn := s.snapshot) hoff hclean
  obtain ⟨-, -, hout⟩ := vocoderProcess_gain_off (sn := s.snapshot) hoff s.modIn s.carIn s
  refine ⟨_, isFloor_compactedBandSum hbank hcompact s.snapshot, ?_⟩
  have hvoc : s.afterVocode.vocOut.toInt = asr ((compactedBandSum s.modIn s.carIn s).toInt * s.outputGain.toInt) 29 :=
    (congrArg BitVec.toInt hout).trans (narrow_clean hgain).left
  exact hvoc ▸ isFloor_asr _ 29

end Sys2Proof.Machine
end

section
/-! The synthesizer over a sample and over many (R370 to R372, R382, R387 to R389): the voice sum, the idle pool, the
range of the samples and of the envelopes, and the end of a release. -/

namespace Sys2Proof.Machine

open Sys2Proof Sys2Proof.Spec

/-! ## The voice sum (R387) -/

/-- A voice after `SYNTH` is the tick of the voice before. -/
theorem forall_mem_afterSynth {s : State} {P : Voice → Prop}
    (h : ∀ v ∈ s.voices, P (voiceTick s.params s.snapshot v).val) : ∀ v ∈ s.afterSynth.voices, P v := by
  intro v hv
  rw [afterSynth_voices] at hv
  obtain ⟨old, hold, rfl⟩ := List.mem_map.1 hv
  exact h old hold

/-- Settles O50: without a mark the sum is exact, and its compaction is the one floor. -/
theorem synthOutputIsTheVoiceSum : Obligations.SynthOutputIsTheVoiceSum := by
  refine fun s => ⟨s.afterSynth, exec_synth s, fun hviol => ?_⟩
  rw [State.afterSynth, State.writeSyn_viol, Marks.union_eq_empty] at hviol
  obtain ⟨-, hclean⟩ := hviol
  rw [synthProcess, Marked.bind_marks, Marked.map_marks, Marks.union_eq_empty] at hclean
  obtain ⟨hpool, hcompact⟩ := hclean
  have hsum := runVoices_clean hpool
  rw [wide_zero_toInt, zero_add] at hsum
  have hout : s.afterSynth.synOut.toInt = asr (runVoices s.params s.snapshot 0 s.voices).val.1.toInt 29 :=
    (narrow_clean hcompact).left
  rw [hout, hsum, afterSynth_voices]
  exact isFloor_asr _ 29

/-! ## The idle pool (R388, R603) -/

/-- A voice that does not sound. -/
def Voice.Idle (v : Voice) : Prop := v.env = 0 ∧ (v.state = .sustain ∨ v.state = .release)

/-- An idle voice holds in `SUSTAIN` and snaps to the 0 it is at in `RELEASE`. -/
theorem Voice.Idle.tick {p : Params} {sn : Snap} {v : Voice} (h : v.Idle) (heps : 0 ≤ p.eps.toInt) :
    (voiceTick p sn v).val.Idle := by
  obtain ⟨henv, hstate⟩ := h
  rcases hstate with hsustain | hrelease
  · obtain ⟨henv', hstate'⟩ := voiceTick_of_sustain (p := p) (sn := sn) hsustain
    exact ⟨henv'.trans henv, .inl hstate'⟩
  · have hrow : adsrRow sn v.state = some (0, sn.releaseRate, .release) := by rw [hrelease]; rfl
    obtain ⟨hsnap, -, -, -⟩ := voiceTick_ticksToward (p := p) (clean := False) hrow False.elim
    have hdist : (fxAbs (fxSub 0 v.env).val).val.toInt = 0 := by
      rw [henv]
      rfl
    obtain ⟨henv', hstate'⟩ := hsnap (hdist ▸ heps)
    exact ⟨henv', .inr hstate'⟩

/-- Voices whose envelope ends at 0 add nothing to the sum (R387). -/
theorem runVoices_of_env_zero {p : Params} {sn : Snap} (acc : Wide) {vs : List Voice}
    (h : ∀ v ∈ vs, (voiceTick p sn v).val.env = 0) : (runVoices p sn acc vs).val.1 = acc := by
  induction vs generalizing acc with
  | nil => rfl
  | cons v vs ih =>
    obtain ⟨henv, hrest⟩ := List.forall_mem_cons.1 h
    simp only [runVoices, Marked.bind_val, Marked.map_val]
    rw [ih _ hrest, henv, fxMacw_zero, Marked.pure_val]

/-- Settles O51: every voice stays idle, so the sum is that of no voice. -/
theorem idlePoolOutputsZero : Obligations.IdlePoolOutputsZero := by
  intro s heps hidle
  have htick : ∀ v ∈ s.voices, (voiceTick s.params s.snapshot v).val.Idle := fun v hv =>
    Voice.Idle.tick (hidle v hv) heps
  refine ⟨s.afterSynth, exec_synth s, ?out, forall_mem_afterSynth htick⟩
  case out =>
    have hout : s.afterSynth.synOut = (fxCompact (runVoices s.params s.snapshot 0 s.voices).val.1).val := rfl
    rw [hout, runVoices_of_env_zero 0 fun v hv => (htick v hv).left, fxCompact_zero, Marked.pure_val]

/-! ## Full scale (R382) -/

/-- A word in `[-ONE, ONE]`. -/
def FullScale (w : Word) : Prop := -2 ^ 29 ≤ w.toInt ∧ w.toInt ≤ 2 ^ 29

/-- The waveform is read at a phase modulo `ONE`, so it is in full scale wherever the tap is (R380, R381). -/
theorem naive_fullScale (ph : Word) {shape : Word} (h : InUnit shape) : FullScale (naive (modOne ph) shape).val := by
  obtain ⟨-, h0, h1⟩ := modOne_toInt ph
  obtain ⟨-, -, hlow, hhigh, -, -⟩ := naiveWaveformBlends (modOne ph) shape h0 h1 h
  exact ⟨hlow, hhigh⟩

/-- The magnitude of a tap's product is at most its weight's, at product scale. -/
theorem abs_mul_le_of_fullScale {w x : Word} (h : FullScale x) : |w.toInt * x.toInt| ≤ |w.toInt| * 2 ^ 29 := by
  rw [abs_mul]
  exact mul_le_mul_of_nonneg_left (abs_le.2 h) (abs_nonneg _)

/-- The tap loop stays within the sum of the weights' magnitudes, at product scale, as long as that fits the
accumulator. -/
theorem runTaps_abs_le {phase step shape : Word} (hshape : InUnit shape) {acc : Wide} {ts : List Tap}
    (h : |acc.toInt| + (ts.map fun t => |t.weight.toInt|).sum * 2 ^ 29 < 2 ^ 63) :
    |(runTaps phase step shape acc ts).val.toInt| ≤
      |acc.toInt| + (ts.map fun t => |t.weight.toInt|).sum * 2 ^ 29 := by
  induction ts generalizing acc with
  | nil =>
    rw [runTaps, Marked.pure_val, List.map_nil, List.sum_nil, zero_mul, add_zero]
  | cons t ts ih =>
    simp only [runTaps, Marked.bind_val, List.map_cons, List.sum_cons] at h ⊢
    have hterm := abs_mul_le_of_fullScale (w := t.weight)
      (naive_fullScale (fxAdd phase (fxMul t.offset step).val).val hshape)
    have hrest : 0 ≤ (ts.map fun t => |t.weight.toInt|).sum := by
      refine List.sum_nonneg fun x hx => ?_
      obtain ⟨u, -, rfl⟩ := List.mem_map.1 hx
      exact abs_nonneg _
    generalize (naive (modOne (fxAdd phase (fxMul t.offset step).val).val) shape).val = w at hterm ⊢
    have hsum := abs_add_le acc.toInt (t.weight.toInt * w.toInt)
    have hfits := abs_lt.1 (show |acc.toInt + t.weight.toInt * w.toInt| < 2 ^ 63 by omega)
    have hacc : (fxMacw acc t.weight w).val.toInt = acc.toInt + t.weight.toInt * w.toInt :=
      (widen_of_fits (by omega) hfits.right).left
    have hstep := ih (acc := (fxMacw acc t.weight w).val) (by rw [hacc]; omega)
    rw [hacc] at hstep
    exact hstep.trans (by omega)

/-- With weights that sum to at most `ONE` in magnitude the band-limited sample is in full scale (R382). -/
theorem oscSample_fullScale {taps : List Tap} {shape : Word} (htaps : (taps.map fun t => |t.weight.toInt|).sum ≤ 2 ^ 29)
    (hshape : InUnit shape) (phase step : Word) : FullScale (oscSample taps phase step shape).val := by
  have hzero : |(0 : Wide).toInt| = 0 := by rw [wide_zero_toInt, abs_zero]
  have hsum := runTaps_abs_le (phase := phase) (step := step) hshape (acc := 0) (ts := taps) (by omega)
  obtain ⟨hlow, hhigh⟩ := abs_le.1 hsum
  obtain ⟨hfloor, hceil⟩ := isFloor_asr (runTaps phase step shape 0 taps).val.toInt 29
  have hval : (oscSample taps phase step shape).val.toInt = asr (runTaps phase step shape 0 taps).val.toInt 29 :=
    (narrow_of_fits (by rw [pointPos]; omega) (by rw [pointPos]; omega)).left
  rw [FullScale, hval]
  omega

/-- Without noise gain the mix is the sample (R385). -/
theorem mixNoise_of_gain_zero (osc noise : Word) : (mixNoise osc noise 0).val = osc := by
  rw [mixNoise, Marked.bind_val, fxMul_zero, Marked.pure_bind, fxAdd_zero, Marked.pure_val]

/-- Without noise gain `LAST` is a band-limited sample of the taps (R386). -/
theorem voiceTick_last_of_gain_zero {p : Params} {sn : Snap} (h : sn.noiseGain = 0) (v : Voice) :
    ∃ phase step, (voiceTick p sn v).val.last = (oscSample p.taps phase step sn.shape).val := by
  have hlast : (voiceTick p sn v).val.last = (voiceSound p sn (adsrTick p.eps sn v).val).val.last := rfl
  rw [hlast]
  simp only [voiceSound, Marked.bind_val, Marked.map_val, h, mixNoise_of_gain_zero]
  exact ⟨_, _, rfl⟩

/-- Settles O53: every waveform is in full scale, so the tap sum fits the accumulator and its floor is in full scale. -/
theorem oscillatorStaysInFullScale : Obligations.OscillatorStaysInFullScale := by
  refine fun s htaps hshape hgain => ⟨s.afterSynth, exec_synth s, forall_mem_afterSynth fun v _ => ?_⟩
  obtain ⟨phase, step, hlast⟩ := voiceTick_last_of_gain_zero (p := s.params) (sn := s.snapshot) hgain v
  rw [hlast]
  exact oscSample_fullScale htaps hshape phase step

/-! ## The range of the envelopes (R370, R371, R389) -/

/-- A step between two words of `[0, ONE]` at a rate of `[0, ONE]` ends between them. -/
theorem fxLerp_inUnit {s x k : Word} (hs : InUnit s) (hx : InUnit x) (hk : InUnit k) : InUnit (fxLerp s x k).val := by
  obtain ⟨hs0, hs1⟩ := hs
  obtain ⟨hx0, hx1⟩ := hx
  obtain ⟨hup, hdown⟩ := asr_unit_between (x.toInt - s.toInt) k.toInt hk.left hk.right
  have hval := fxLerp_toInt (s := s) (x := x) hk.left hk.right (by omega) (by omega)
  rw [InUnit, hval]
  omega

/-- The parameters of the envelope are in `[0, ONE]`. -/
structure Snap.EnvelopeInUnit (sn : Snap) : Prop where
  attack : InUnit sn.attackRate
  decay : InUnit sn.decayRate
  sustain : InUnit sn.sustainLevel
  release : InUnit sn.releaseRate

/-- The order of the ADSR states (R370). -/
def Adsr.Forward (old new : Adsr) : Prop :=
  new = old ∨ (old = .attack ∧ new = .decay) ∨ (old = .decay ∧ new = .sustain)

theorem zero_inUnit : InUnit 0 := ⟨le_refl _, by decide⟩

theorem oneWord_inUnit : InUnit oneWord := ⟨by decide, by decide⟩

/-- Every row of R370 has its target and rate in `[0, ONE]` and leads forward. -/
theorem adsrRow_inUnit {sn : Snap} (h : sn.EnvelopeInUnit) {st nxt : Adsr} {tgt rate : Word}
    (hrow : adsrRow sn st = some (tgt, rate, nxt)) : InUnit tgt ∧ InUnit rate ∧ st.Forward nxt := by
  cases st with
  | attack => cases hrow; exact ⟨oneWord_inUnit, h.attack, .inr (.inl ⟨rfl, rfl⟩)⟩
  | decay => cases hrow; exact ⟨h.sustain, h.decay, .inr (.inr ⟨rfl, rfl⟩)⟩
  | sustain => cases hrow
  | release => cases hrow; exact ⟨zero_inUnit, h.release, .inl rfl⟩

theorem adsrTick_inUnit {eps : Word} {sn : Snap} (h : sn.EnvelopeInUnit) {v : Voice} (henv : InUnit v.env) :
    InUnit (adsrTick eps sn v).val.env ∧ v.state.Forward (adsrTick eps sn v).val.state := by
  rcases adsrTick_cases eps sn v with ⟨-, hheld⟩ | ⟨tgt, rate, nxt, hrow, hmoving⟩
  · rw [hheld]
    exact ⟨henv, .inl rfl⟩
  · obtain ⟨htgt, hrate, hnext⟩ := adsrRow_inUnit h hrow
    rcases hmoving with ⟨-, hsnap⟩ | ⟨-, hmove⟩
    · rw [hsnap]
      exact ⟨htgt, hnext⟩
    · rw [hmove]
      exact ⟨fxLerp_inUnit henv htgt hrate, .inl rfl⟩

/-- Settles O56: the tick of each voice, which snaps to a target of `[0, ONE]` or steps toward one. -/
theorem envelopesStayInUnitRange : Obligations.EnvelopesStayInUnitRange := by
  refine fun s hattack hdecay hsustain hrelease hall => ⟨s.afterSynth, exec_synth s, fun k old new hold hnew => ?_⟩
  obtain rfl := eq_voiceTick_of_afterSynth hold hnew
  obtain ⟨-, -, -, henv, hstate, -, -⟩ := voiceTick_fields s.params s.snapshot old
  rw [henv, hstate]
  exact adsrTick_inUnit (sn := s.snapshot) ⟨hattack, hdecay, hsustain, hrelease⟩ (hall old (List.mem_of_getElem? hold))

/-! ## The end of a release (R372) -/

section
variable (p : Params) (sn : Snap) {v : Voice} (hstate : v.state = .release) (henv : 0 ≤ v.env.toInt)
include hstate henv

/-- The tick of a voice in `RELEASE`, by the distance of its envelope to 0. -/
theorem voiceTick_of_release :
    (voiceTick p sn v).val.state = .release ∧
    (v.env.toInt ≤ p.eps.toInt → (voiceTick p sn v).val.env = 0) ∧
    (p.eps.toInt < v.env.toInt → (voiceTick p sn v).val.env = (fxLerp v.env 0 sn.releaseRate).val) := by
  have hrow : adsrRow sn v.state = some (0, sn.releaseRate, .release) := by rw [hstate]; rfl
  obtain ⟨hsnap, hmove, -, -⟩ := voiceTick_ticksToward (p := p) (clean := False) hrow False.elim
  obtain ⟨-, hhigh⟩ := word_toInt_range v.env
  have hdist : (fxAbs (fxSub 0 v.env).val).val.toInt = v.env.toInt := by
    rw [distance_of_fits (by rw [word_zero_toInt]; omega) (by rw [word_zero_toInt]; omega), word_zero_toInt, zero_sub,
      abs_neg, abs_of_nonneg henv]
  rw [hdist] at hsnap hmove
  refine ⟨?_, fun hnear => (hsnap hnear).left, fun hfar => (hmove hfar).left⟩
  rcases Int.lt_or_le p.eps.toInt v.env.toInt with hfar | hnear
  · exact (hmove hfar).right.trans hstate
  · exact (hsnap hnear).right

/-- With a rate in `(0, ONE]` a sounding voice falls, and not below 0. -/
theorem voiceTick_release_falls (hrate0 : 0 < sn.releaseRate.toInt) (hrate1 : sn.releaseRate.toInt ≤ 2 ^ 29)
    (hsounds : 0 < v.env.toInt) :
    0 ≤ (voiceTick p sn v).val.env.toInt ∧ (voiceTick p sn v).val.env.toInt < v.env.toInt := by
  obtain ⟨-, hsnap, hmove⟩ := voiceTick_of_release p sn hstate henv
  rcases Int.lt_or_le p.eps.toInt v.env.toInt with hfar | hnear
  · obtain ⟨-, hhigh⟩ := word_toInt_range v.env
    have happroach : Approaches v.env 0 sn.releaseRate :=
      ⟨hrate0, hrate1, by rw [word_zero_toInt]; omega, by rw [word_zero_toInt]; omega⟩
    rw [hmove hfar]
    exact happroach.step_falls (word_zero_toInt ▸ hsounds)
  · rw [hsnap hnear, word_zero_toInt]
    exact ⟨le_refl 0, hsounds⟩

/-- A voice at 0 stays there. -/
theorem voiceTick_release_zero (heps : 0 ≤ p.eps.toInt) (hzero : v.env = 0) : (voiceTick p sn v).val.env = 0 := by
  obtain ⟨-, hsnap, -⟩ := voiceTick_of_release p sn hstate henv
  refine hsnap ?_
  rwa [hzero, word_zero_toInt]

/-- With rate 0 an envelope above `EPS` stays. -/
theorem voiceTick_release_rate_zero (hrate : sn.releaseRate = 0) (hfar : p.eps.toInt < v.env.toInt) :
    (voiceTick p sn v).val.env = v.env := by
  obtain ⟨-, -, hmove⟩ := voiceTick_of_release p sn hstate henv
  rw [hmove hfar, hrate, fxLerp_zero_rate]

end

/-- `n` samples bring a voice in `RELEASE` from an envelope of at most `n` units to 0. -/
theorem execAll_synth_released {n : Nat} {s : State} {k : Nat} {old : Voice} (hold : s.voices[k]? = some old)
    (hstate : old.state = .release) (henv : 0 ≤ old.env.toInt) (hunits : old.env.toInt ≤ n)
    (heps : 0 ≤ s.params.eps.toInt) (hrate0 : 0 < s.releaseRate.toInt) (hrate1 : s.releaseRate.toInt ≤ 2 ^ 29) :
    ∃ t new, execAll (List.replicate n .synth) s = .next t ∧ t.voices[k]? = some new ∧ new.env = 0 ∧
      new.state = .release := by
  induction n generalizing s old with
  | zero =>
    have hzero : old.env = 0 := BitVec.toInt_inj.1 (by rw [word_zero_toInt]; omega)
    exact ⟨s, old, rfl, hold, hzero, hstate⟩
  | succ n ih =>
    have hnext : execAll (List.replicate (n + 1) .synth) s = execAll (List.replicate n .synth) s.afterSynth := rfl
    obtain ⟨hstate', -, -⟩ := voiceTick_of_release s.params s.snapshot hstate henv
    rw [hnext]
    rcases henv.eq_or_lt with hrest | hsounds
    · have hzero := voiceTick_release_zero s.params s.snapshot hstate henv heps
        (BitVec.toInt_inj.1 (hrest.symm.trans word_zero_toInt.symm))
      have hvalue : (voiceTick s.params s.snapshot old).val.env.toInt = 0 := by rw [hzero, word_zero_toInt]
      exact ih (afterSynth_voice hold) hstate' (by omega) (by omega) heps hrate0 hrate1
    · obtain ⟨hlow, hfall⟩ := voiceTick_release_falls s.params s.snapshot hstate henv hrate0 hrate1 hsounds
      exact ih (afterSynth_voice hold) hstate' hlow (by push_cast at hunits; omega) heps hrate0 hrate1

/-- Settles O55: one tick by the envelope's distance to 0, and then one unit at least a sample. -/
theorem releasedVoiceBecomesFree : Obligations.ReleasedVoiceBecomesFree := by
  intro s k old hold hstate henv heps
  obtain ⟨hstate', -, -⟩ := voiceTick_of_release s.params s.snapshot hstate henv
  refine ⟨⟨s.afterSynth, _, exec_synth s, afterSynth_voice hold, hstate',
    voiceTick_release_falls s.params s.snapshot hstate henv,
    voiceTick_release_zero s.params s.snapshot hstate henv heps,
    voiceTick_release_rate_zero s.params s.snapshot hstate henv⟩,
    fun hrate0 hrate1 => ⟨old.env.toNat, le_refl _, fun n hn => ?_⟩⟩
  have hunits : old.env.toInt ≤ n := by
    rw [BitVec.toInt_eq_toNat_cond]
    split <;> omega
  exact execAll_synth_released hold hstate henv hunits heps hrate0 hrate1

end Sys2Proof.Machine
end

section
/-! Presses of distinct notes from reset (R361, R365): they take the voices in order, and the press after the last
voice is taken steals the oldest, voice 0. -/

namespace Sys2Proof.Machine

open Sys2Proof Sys2Proof.Spec

/-! ## Which voice R361 chooses -/

/-- The first free voice is chosen. -/
theorem selected_eq_of_first_free {vs : List Voice} {i k : Nat} {v : Voice} (h : Selected vs i) (hv : vs[k]? = some v)
    (hfree : IsFree v) (hbefore : ∀ j < k, ∀ u, vs[j]? = some u → ¬ IsFree u) : i = k := by
  obtain ⟨w, hw, ⟨hwfree, hfirst⟩ | ⟨hnone, -⟩⟩ := h
  · rcases Nat.lt_trichotomy i k with hlt | heq | hgt
    · exact absurd hwfree (hbefore i hlt w hw)
    · exact heq
    · exact absurd hfree (hfirst k hgt v hv)
  · exact absurd hfree (hnone v (List.mem_of_getElem? hv))

/-- With no voice free, one that is older than all others is chosen. -/
theorem selected_eq_of_oldest {vs : List Voice} {i k : Nat} {v : Voice} (h : Selected vs i) (hv : vs[k]? = some v)
    (hbusy : ∀ u ∈ vs, ¬ IsFree u) (hold : ∀ j ≠ k, ∀ u, vs[j]? = some u → v.age.toNat < u.age.toNat) :
    i = k := by
  obtain ⟨w, hw, ⟨hwfree, -⟩ | ⟨-, hmin⟩⟩ := h
  · exact absurd hwfree (hbusy w (List.mem_of_getElem? hw))
  · by_contra hne
    have hyounger := hold i hne w hw
    rcases hmin k v hv with hlt | ⟨heq, -⟩ <;> omega

/-! ## The pool while its voices are taken in order -/

/-- `v` was the `k`-th voice taken, with the note `n`, and its envelope has not been ticked. -/
structure Voice.Taken (v : Voice) (k : Nat) (n : BitVec 16) : Prop where
  note : v.note = n
  state : v.state = .attack
  age : v.age.toNat = k + 1

/-- From reset the notes `pressed` were pressed: each is at the voice of its place in the list, the other voices are
as at reset, and nothing was marked. -/
structure PressedPool (p : Params) (pressed : List (BitVec 16)) (s : State) : Prop where
  params : s.params = p
  ageCnt : s.ageCnt.toNat = pressed.length
  unmarked : s.viol = Marks.empty
  count : s.voices.length = p.voices
  taken : ∀ (k : Nat) (n : BitVec 16) (v : Voice), pressed[k]? = some n → s.voices[k]? = some v → v.Taken k n
  untaken : ∀ (k : Nat) (v : Voice), pressed[k]? = none → s.voices[k]? = some v → v = Voice.reset k

theorem pressedPool_resetWith (p : Params) : PressedPool p [] (State.resetWith p) where
  params := rfl
  ageCnt := rfl
  unmarked := rfl
  count := resetWith_voices_length p
  taken _ _ _ h := nomatch h
  untaken _ _ _ hv := (resetWith_voice_iff.1 hv).right.symm

/-- A voice taken is in `ATTACK`, so not free. -/
theorem Voice.Taken.not_isFree {v : Voice} {k : Nat} {n : BitVec 16} (h : v.Taken k n) : ¬ IsFree v := by
  simp [IsFree, h.state]

/-- A voice at reset is in `RELEASE` at 0, so free. -/
theorem Voice.reset_isFree (k : Nat) : IsFree (Voice.reset k) :=
  ⟨.inr rfl, rfl⟩

namespace PressedPool

variable {p : Params} {pressed : List (BitVec 16)} {s : State} (h : PressedPool p pressed s)
include h

/-- No voice holds a note that was not pressed: those at reset are in `RELEASE`. -/
theorem not_heldUnreleased {n : BitVec 16} (hn : n ∉ pressed) : ¬ HeldUnreleased n s.voices := by
  rintro ⟨v, hv, rfl, hstate⟩
  obtain ⟨k, hk⟩ := List.mem_iff_getElem?.1 hv
  cases hpressed : pressed[k]? with
  | none =>
    rw [h.untaken k v hpressed hk] at hstate
    exact hstate rfl
  | some m =>
    rw [(h.taken k m v hpressed hk).note] at hn
    exact hn (List.mem_of_getElem? hpressed)

/-- While a voice is left, the first one left is chosen. -/
theorem selectVoice_eq_length (hroom : pressed.length < p.voices) : selectVoice s.voices = pressed.length := by
  have hlast : pressed.length < s.voices.length := h.count ▸ hroom
  have hnonempty : s.voices ≠ [] := List.ne_nil_of_length_pos (Nat.zero_lt_of_lt hlast)
  have hv := List.getElem?_eq_getElem hlast
  have hreset := h.untaken _ _ (List.getElem?_length pressed) hv
  have hfree := hreset ▸ Voice.reset_isFree pressed.length
  refine selected_eq_of_first_free (selectVoice_selected hnonempty) hv hfree fun j hj u hu => ?_
  exact (h.taken j _ u (List.getElem?_eq_getElem hj) hu).not_isFree

/-- With every voice taken, voice 0 is chosen: its age is the smallest. -/
theorem selectVoice_eq_zero (hfull : pressed.length = p.voices) (hpos : 0 < p.voices) :
    selectVoice s.voices = 0 := by
  have hall : ∀ (j : Nat) (u : Voice), s.voices[j]? = some u → ∃ n, u.Taken j n := by
    intro j u hu
    have hj : j < pressed.length := by
      rw [hfull, ← h.count]
      exact (List.getElem?_eq_some_iff.1 hu).1
    exact ⟨_, h.taken j _ u (List.getElem?_eq_getElem hj) hu⟩
  have hfirst : 0 < s.voices.length := h.count ▸ hpos
  have hv := List.getElem?_eq_getElem hfirst
  have hchosen := selectVoice_selected (List.ne_nil_of_length_pos hfirst)
  refine selected_eq_of_oldest hchosen hv (fun u hu => ?_) fun j hj u hu => ?_
  · obtain ⟨j, hj⟩ := List.mem_iff_getElem?.1 hu
    obtain ⟨n, htaken⟩ := hall j u hj
    exact htaken.not_isFree
  · obtain ⟨n, htaken⟩ := hall j u hu
    obtain ⟨m, htaken0⟩ := hall 0 _ hv
    rw [htaken.age, htaken0.age]
    omega

/-- With every voice taken, the pool's notes are those pressed. -/
theorem notes_eq (hfull : pressed.length = p.voices) : s.voices.map Voice.note = pressed := by
  have hlength : s.voices.length = pressed.length := h.count.trans hfull.symm
  refine List.ext_getElem (by rw [List.length_map, hlength]) fun k hk hk' => ?_
  have hkv : k < s.voices.length := hlength ▸ hk'
  rw [List.getElem_map]
  exact (h.taken k _ _ (List.getElem?_eq_getElem hk') (List.getElem?_eq_getElem hkv)).note

section
variable {n : BitVec 16} (hn : n ∉ pressed) (hnote : n.toNat < p.numNotes) (hpool : p.Valid)
  (hroom : pressed.length ≤ p.voices)
include hn hnote hpool hroom

/-- The press of a note not pressed before marks nothing and gives the chosen voice the next age. -/
theorem exec_press : ∃ (t : State) (old : Voice) (inc : Word), exec (.press n) s = .next t ∧ t.params = p ∧
    t.ageCnt.toNat = pressed.length + 1 ∧ t.viol = Marks.empty ∧
    t.voices = s.voices.set (selectVoice s.voices) (old.press n inc t.ageCnt) := by
  have hlow := hpool.voices_low
  have hhigh := hpool.voices_high
  have hage := h.ageCnt
  have hnonempty : s.voices ≠ [] := List.ne_nil_of_length_pos (h.count ▸ hlow)
  obtain ⟨old, hold, -⟩ := selectVoice_selected hnonempty
  have hdouble : s.voices.any (Voice.holds n) = false :=
    Bool.eq_false_iff.2 (mt (any_holds_iff n s.voices).1 (h.not_heldUnreleased hn))
  have hwrap : s.ageCnt + 1 ≠ 0 := mt (age_succ_eq_zero_iff s.ageCnt).1 (by omega)
  refine ⟨_, old, _, exec_press_of_lt (h.params ▸ hnote) hold, h.params, ?age, ?unmarked, rfl⟩
  case age =>
    have hone : (1 : BitVec 32).toNat = 1 := rfl
    rw [BitVec.toNat_add, hage, hone, Nat.mod_eq_of_lt (by omega)]
  case unmarked =>
    rw [h.unmarked, hdouble, decide_eq_false hwrap]
    rfl

/-- A press while a voice is left takes the next voice. -/
theorem press (hleft : pressed.length < p.voices) :
    ∃ t, exec (.press n) s = .next t ∧ PressedPool p (pressed ++ [n]) t := by
  obtain ⟨t, old, inc, hexec, hparams, hage, hunmarked, hvoices⟩ := h.exec_press hn hnote hpool hroom
  rw [h.selectVoice_eq_length hleft] at hvoices
  refine ⟨t, hexec, hparams, ?ageCnt, hunmarked, ?count, fun k m v hm hv => ?taken, fun k v hm hv => ?untaken⟩
  case ageCnt => rw [hage, List.length_append, List.length_singleton]
  case count => rw [hvoices, List.length_set, h.count]
  case taken =>
    rw [hvoices] at hv
    rcases Nat.lt_trichotomy k pressed.length with hlt | rfl | hgt
    · rw [List.getElem?_append_left hlt] at hm
      rw [List.getElem?_set_ne (by omega)] at hv
      exact h.taken k m v hm hv
    · rw [List.getElem?_concat_length] at hm
      rw [List.getElem?_set_self (h.count ▸ hleft)] at hv
      obtain rfl := Option.some.inj hm
      obtain rfl := Option.some.inj hv
      exact ⟨rfl, rfl, hage⟩
    · rw [List.getElem?_eq_none (by rw [List.length_append, List.length_singleton]; omega)] at hm
      nomatch hm
  case untaken =>
    rw [List.getElem?_eq_none_iff, List.length_append, List.length_singleton] at hm
    rw [hvoices, List.getElem?_set_ne (by omega)] at hv
    exact h.untaken k v (List.getElem?_eq_none (by omega)) hv

end

end PressedPool

/-! ## Presses one after another (R365) -/

theorem execAll_cons_of_next {i : Instr} {s t : State} (h : exec i s = .next t) (is : List Instr) :
    execAll (i :: is) s = execAll is t := by
  rw [execAll, h]

/-- Distinct notes, as many as there are voices left at most, take the voices in order. -/
theorem PressedPool.pressAll {p : Params} (hpool : p.Valid) {rest pressed : List (BitVec 16)} {s : State}
    (h : PressedPool p pressed s) (hdistinct : (pressed ++ rest).Nodup) (hnotes : ∀ n ∈ rest, n.toNat < p.numNotes)
    (hroom : (pressed ++ rest).length ≤ p.voices) (more : List Instr) :
    ∃ t, execAll (rest.map .press ++ more) s = execAll more t ∧ PressedPool p (pressed ++ rest) t := by
  induction rest generalizing pressed s with
  | nil => exact ⟨s, rfl, by rwa [List.append_nil]⟩
  | cons n rest ih =>
    rw [List.append_cons] at hdistinct hroom ⊢
    obtain ⟨hn, hothers⟩ := List.forall_mem_cons.1 hnotes
    have hnew : n ∉ pressed := fun hmem => (List.nodup_append.1 (List.nodup_append.1 hdistinct).1).2.2 n hmem n
      (List.mem_singleton_self n) rfl
    have hleft : pressed.length < p.voices := by
      rw [List.length_append, List.length_append, List.length_singleton] at hroom
      omega
    obtain ⟨t, hexec, hnext⟩ := h.press hnew hn hpool hleft.le hleft
    obtain ⟨u, hall, hfinal⟩ := ih hnext hdistinct hothers hroom
    exact ⟨u, (execAll_cons_of_next hexec _).trans hall, hfinal⟩

/-- Settles O48: the first `V` presses take the voices in order, by induction on the notes; the last finds none free
and voice 0 the oldest. -/
theorem pressingOneNoteTooManyStealsVoiceZero : Obligations.PressingOneNoteTooManyStealsVoiceZero := by
  intro p notes newest hpool hlength hdistinct hnotes
  obtain ⟨hothers, hnewest⟩ := List.forall_mem_append.1 hnotes
  obtain ⟨hnodup, -, hfresh⟩ := List.nodup_append.1 hdistinct
  have hnew : newest ∉ notes := fun hmem => hfresh newest hmem newest (List.mem_singleton_self newest) rfl
  obtain ⟨s, hall, hfull⟩ := (pressedPool_resetWith p).pressAll hpool (rest := notes) hnodup hothers hlength.le
    [.press newest]
  obtain ⟨t, old, inc, hexec, -, hage, hunmarked, hvoices⟩ :=
    hfull.exec_press hnew (hnewest newest (List.mem_singleton_self newest)) hpool hlength.le
  rw [hfull.selectVoice_eq_zero hlength hpool.voices_low] at hvoices
  refine ⟨t, ?run, ?notes, ?age, hunmarked⟩
  case run =>
    rw [List.map_append]
    exact hall.trans (execAll_cons_of_next hexec [])
  case notes =>
    rw [hvoices, List.map_set, hfull.notes_eq hlength]
    rfl
  case age => rw [hage]; exact congrArg (· + 1) hlength

end Sys2Proof.Machine
end
